-- ==== Sys2Proof/Word.lean ====
section
/-! DEFINITION. The bit-vector types of the block and the table type of its index spaces.
`spec/00_scope.md` R7 fixes every width; the widths never vary, so they are abbreviations. -/

namespace Sys2Proof

/-- A host command word (`spec/30_encoding.md` R77). -/
abbrev Word := BitVec 32

/-- A 16-bit frame, brightness counter, response or diagnostic counter (R7: `FW`, `CW`). -/
abbrev Frame := BitVec 16

/-- An 8-bit configuration code, column mask or row mask (R7: `CODEW`). -/
abbrev Byte := BitVec 8

/-- R7: `NCOL`, lamp columns. -/
abbrev ncol : Nat := 8

/-- R7: `NROW`, lamp rows. -/
abbrev nrow : Nat := 8

/-- R7: `NLAMP`, lamps. -/
abbrev nlamp : Nat := 64

/-- One lamp table of `spec/20_memory.md` R50: 64 elements of one width, indexed by lamp. -/
abbrev Table (w : Nat) := Vector (BitVec w) 64

end Sys2Proof
end

