-- ==== Sys2Proof/Syntax.lean ====
section
/-! DEFINITION. The fifteen host commands of `spec/30_encoding.md` R79, one constructor per row of
`spec/opcode_table.json`.  Fields a command ignores (R81) are not part of it.  An index is a number
(R77: `IDX` is unsigned); a code is the 8-bit value stored; a mask is 16 bits read one by one. -/

namespace Sys2Proof

/-- A decoded host command. -/
inductive Instr where
  /-- R192 -/
  | nop
  /-- R193 -/
  | stop
  /-- R194 -/
  | start
  /-- R195 -/
  | rdStatus
  /-- R196: `mask` is `DATA` -/
  | clrStatus (mask : Frame)
  /-- R197: `idx` is `IDX`, `code` is `DATA[7:0]` -/
  | wrGlowcode (idx : Nat) (code : Byte)
  /-- R198 -/
  | wrBrightcode (idx : Nat) (code : Byte)
  /-- R199 -/
  | rdGlowcode (idx : Nat)
  /-- R200 -/
  | rdBrightcode (idx : Nat)
  /-- R201 -/
  | apply
  /-- R202 -/
  | rdStep (idx : Nat)
  /-- R203 -/
  | rdMaxsub (idx : Nat)
  /-- R204 -/
  | rdLamp (idx : Nat)
  /-- R205 -/
  | rdDiag (idx : Nat)
  /-- R206: `mask` is `DATA` -/
  | clrDiag (mask : Frame)
  deriving DecidableEq, Repr

end Sys2Proof
end

