-- ==== Sys2Proof/WellFormed.lean ====
section
/-! DEFINITION. When a command term has an encoding: its index fits the 8-bit `IDX` field
(`spec/30_encoding.md` R77; R87: an assembler refuses `IDX > 255` and accepts 64..255, which the block
refuses at execution).  Codes and masks are bit vectors of their field's width. -/

namespace Sys2Proof

/-- The index a command carries in `IDX`, if it uses that field (R79, R81). -/
def Instr.index? : Instr → Option Nat
  | .nop => none
  | .stop => none
  | .start => none
  | .rdStatus => none
  | .clrStatus _ => none
  | .wrGlowcode idx _ => some idx
  | .wrBrightcode idx _ => some idx
  | .rdGlowcode idx => some idx
  | .rdBrightcode idx => some idx
  | .apply => none
  | .rdStep idx => some idx
  | .rdMaxsub idx => some idx
  | .rdLamp idx => some idx
  | .rdDiag idx => some idx
  | .clrDiag _ => none

/-- R77, R87: the index fits eight bits. -/
def Instr.wellFormed (i : Instr) : Bool :=
  match i.index? with
  | none => true
  | some idx => decide (idx < 256)

end Sys2Proof
end

