-- ==== Sys2Proof/Decode.lean ====
section
/-! DEFINITION. The decoder of a 32-bit command word, total and refusing the 241 undefined opcodes by
name (`spec/30_encoding.md` R77, R79, R81, R82), and the encoder beside it.  A command moves as one whole
word on parallel wires (`spec/20_memory.md` R53), so there is no byte order to decide. -/

namespace Sys2Proof

/-- Why a word is no command. -/
inductive Reject where
  /-- R82: `OPC` is not in the opcode map.  Raised by `decode`; the machine answers it with
  `RES = ILLEGAL` (R207), it does not stop. -/
  | undefinedOpcode (opc : Byte)
  deriving DecidableEq, Repr

/-- R77: `OPC = CMD[31:24]`. -/
def opcField (w : Word) : Byte := w.extractLsb' 24 8

/-- R77, R80: `IDX = CMD[23:16]`, an unsigned number. -/
def idxField (w : Word) : Nat := (w.extractLsb' 16 8).toNat

/-- R77, R80: `DATA = CMD[15:0]`. -/
def dataField (w : Word) : Frame := w.extractLsb' 0 16

/-- R80: a command that writes an 8-bit element uses `DATA[7:0]`. -/
def codeField (w : Word) : Byte := w.extractLsb' 0 8

/-- R79: the opcode map.  R81: the decoder matches on `OPC` alone. -/
def decode (w : Word) : Except Reject Instr :=
  match (opcField w).toNat with
  | 0x00 => .ok .nop
  | 0x01 => .ok .stop
  | 0x02 => .ok .start
  | 0x03 => .ok .rdStatus
  | 0x04 => .ok (.clrStatus (dataField w))
  | 0x10 => .ok (.wrGlowcode (idxField w) (codeField w))
  | 0x11 => .ok (.wrBrightcode (idxField w) (codeField w))
  | 0x12 => .ok (.rdGlowcode (idxField w))
  | 0x13 => .ok (.rdBrightcode (idxField w))
  | 0x14 => .ok .apply
  | 0x15 => .ok (.rdStep (idxField w))
  | 0x16 => .ok (.rdMaxsub (idxField w))
  | 0x20 => .ok (.rdLamp (idxField w))
  | 0x21 => .ok (.rdDiag (idxField w))
  | 0x22 => .ok (.clrDiag (dataField w))
  | _ => .error (.undefinedOpcode (opcField w))

/-- R79: the opcode of each command. -/
def Instr.opcode : Instr → Byte
  | .nop => 0x00
  | .stop => 0x01
  | .start => 0x02
  | .rdStatus => 0x03
  | .clrStatus _ => 0x04
  | .wrGlowcode _ _ => 0x10
  | .wrBrightcode _ _ => 0x11
  | .rdGlowcode _ => 0x12
  | .rdBrightcode _ => 0x13
  | .apply => 0x14
  | .rdStep _ => 0x15
  | .rdMaxsub _ => 0x16
  | .rdLamp _ => 0x20
  | .rdDiag _ => 0x21
  | .clrDiag _ => 0x22

/-- The `DATA` field of each command; a field it does not use is zero (R81, R87). -/
def Instr.data : Instr → Frame
  | .nop => 0
  | .stop => 0
  | .start => 0
  | .rdStatus => 0
  | .clrStatus mask => mask
  | .wrGlowcode _ code => code.setWidth 16
  | .wrBrightcode _ code => code.setWidth 16
  | .rdGlowcode _ => 0
  | .rdBrightcode _ => 0
  | .apply => 0
  | .rdStep _ => 0
  | .rdMaxsub _ => 0
  | .rdLamp _ => 0
  | .rdDiag _ => 0
  | .clrDiag mask => mask

/-- R77: the word from its three fields. -/
def packWord (opc : Byte) (idx : Nat) (data : Frame) : Word :=
  (opc ++ BitVec.ofNat 8 idx) ++ data

/-- R87: a line assembles to `OPC, IDX, DATA` with absent fields zero. -/
def encode (i : Instr) : Word :=
  packWord i.opcode (i.index?.getD 0) i.data

/-- The command the decoder reads from a table word: bit 0 is the word's least significant bit, and
every bit from `nbits` up is zero.  A command is one 32-bit word (R84). -/
def decodeTableWord (nbits w : Nat) : Option Instr :=
  if nbits ≤ 32 ∧ w < 2 ^ nbits then
    match decode (BitVec.ofNat 32 w) with
    | .ok i => some i
    | .error _ => none
  else none

end Sys2Proof
end

