-- ==== Sys2Proof/Machine/Arith.lean ====
section
/-! DEFINITION. The arithmetic primitives of `spec/00_scope.md` R11 and R12, and access to a lamp table.
Each computes on natural numbers and narrows at the end. -/

namespace Sys2Proof.Machine

/-- R11: `ceil_div`. -/
def ceilDiv (a b : Nat) : Nat := (a + b - 1) / b

/-- R11: `sat_add16`. -/
def satAdd16 (a b : Frame) : Frame := BitVec.ofNat 16 (min 65535 (a.toNat + b.toNat))

/-- R11: `sat_sub16`, without wrap-around. -/
def satSub16 (a b : Frame) : Frame := BitVec.ofNat 16 (a.toNat - b.toNat)

/-- R11: `sat_inc8`, saturating at `CONS_MAX`. -/
def satInc8 (consMax : Nat) (c : Byte) : Byte := BitVec.ofNat 8 (min consMax (c.toNat + 1))

/-- R11: `sat_inc16`. -/
def satInc16 (c : Frame) : Frame := BitVec.ofNat 16 (min 65535 (c.toNat + 1))

/-- R12: the eight masks with exactly one bit set. -/
def oneHotMasks : List Byte := [0x01, 0x02, 0x04, 0x08, 0x10, 0x20, 0x40, 0x80]

/-- R12: `onehot8`. -/
def onehot8 (m : Byte) : Bool := oneHotMasks.contains m

/-- R12: `index8`, the `c` in 0..7 with `m = 1 << c`; of another mask it has no value, so the model
cannot read one (93 U3). -/
def index8 (m : Byte) : Option Nat := (List.range 8).find? fun c => m == (1#8 <<< c)

/-- R71, R73: the one-hot byte of column `c`. -/
def columnMask (c : Nat) : Byte := 1#8 <<< c

/-- R51: lamp (column `c`, row `r`) is index `8*c + r`. -/
def lampIndex (c r : Nat) : Nat := 8 * c + r

/-- R10: `TABLE[i]`.  An index at or above 64 names nothing (R52) and is never formed. -/
def readTable {w : Nat} (t : Table w) (i : Nat) : BitVec w := t.toList.getD i 0

/-- R10: `TABLE[i] <- v`. -/
def writeTable {w : Nat} (t : Table w) (i : Nat) (v : BitVec w) : Table w :=
  ⟨⟨t.toList.set i v⟩, by simp⟩

/-- The table whose element `i` is `f i`. -/
def tabulate {w : Nat} (f : Nat → BitVec w) : Table w := ⟨⟨(List.range 64).map f⟩, by simp⟩

/-- The table whose 64 elements are all `v`. -/
def constTable {w : Nat} (v : BitVec w) : Table w := tabulate fun _ => v

end Sys2Proof.Machine
end

