-- ==== Sys2Proof/Config.lean ====
section
/-! DEFINITION. The block's implementation parameters (`spec/00_scope.md` R7).  An `OPEN` parameter is an
argument the model takes: `Config` is plain data, carried by the state and changed by no step, so that a
statement about every state is a statement about every configuration. -/

namespace Sys2Proof

/-- R7: the parameters the spec leaves open or lets a build choose. -/
structure Config where
  /-- `N0`, `N1`: PWM sub-cycles per window in timing mode 0 and 1 -/
  n0 : Nat
  n1 : Nat
  /-- `TICK_CYCLES0`, `TICK_CYCLES1`: tick period in clock cycles -/
  tickCycles0 : Nat
  tickCycles1 : Nat
  /-- `SCAN_NUMm`, `SCAN_DENm`: original-matrix scans per glow-duration code unit, as a ratio -/
  scanNum0 : Nat
  scanDen0 : Nat
  scanNum1 : Nat
  scanDen1 : Nat
  /-- `DEFAULT_GLOW_CODE`, `DEFAULT_BRIGHT_CODE`: the compiled-in codes of all 64 lamps -/
  defaultGlowCode : Byte
  defaultBrightCode : Byte
  /-- `CONS_THRESHOLD`: consistency count at which a frame is accepted -/
  consThreshold : Nat
  /-- `CONS_MAX`: saturation value of the consistency counter -/
  consMax : Nat
  /-- `OUT_ROW_ACTIVE_LOW`: output row bit is 0 for a lit lamp -/
  outRowActiveLow : Bool
  /-- `HAS_DIAG`: diagnostic counters present -/
  hasDiag : Bool
  /-- `WDT_CYCLES`: watchdog timeout in clock cycles -/
  wdtCycles : Nat
  /-- `DUR_OUTLIER_LIMIT`: largest tick duration accepted as a new maximum -/
  durOutlierLimit : Nat
  /-- `TICK_WCET_CYCLES`: worst-case cycles of one tick -/
  tickWcet : Nat
  /-- `CMD_WCET_CYCLES`: worst-case cycles of one host command allowed while running -/
  cmdWcet : Nat
  /-- `F_CLK`: clock frequency, timing only; no rule depends on it (R253) -/
  fClk : Nat
  deriving DecidableEq, Repr

/-- Binding B1 of `spec/95_test_vectors.md` section 0.  "Every parameter is a choice for the vectors, not
a property of the hardware"; where the section says "any values meeting R8", the numbers below are the
model's.  DESIGN CHOICE, log entry 2. -/
def Config.binding1 : Config where
  n0 := 16
  n1 := 8
  tickCycles0 := 16
  tickCycles1 := 12
  scanNum0 := 1
  scanDen0 := 1
  scanNum1 := 2
  scanDen1 := 1
  defaultGlowCode := 0
  defaultBrightCode := 7
  consThreshold := 1
  consMax := 255
  outRowActiveLow := true
  hasDiag := true
  wdtCycles := 64
  durOutlierLimit := 4
  tickWcet := 4
  cmdWcet := 2
  fClk := 1

end Sys2Proof
end

