-- ==== Sys2Proof/Machine/Parameters.lean ====
section
/-! DEFINITION. The parameters a timing mode selects (`spec/10_state.md` R23) and the constraints a
configuration must meet (`spec/00_scope.md` R8). -/

namespace Sys2Proof.Machine

/-- R23: `N` in timing mode `tmode`. -/
def subCycles (c : Config) (tmode : Bool) : Nat := if tmode then c.n1 else c.n0

/-- R23: `TICK_CYCLES` in timing mode `tmode`. -/
def tickPeriod (c : Config) (tmode : Bool) : Nat := if tmode then c.tickCycles1 else c.tickCycles0

/-- R23: `SCAN_NUM` in timing mode `tmode`. -/
def scanNum (c : Config) (tmode : Bool) : Nat := if tmode then c.scanNum1 else c.scanNum0

/-- R23: `SCAN_DEN` in timing mode `tmode`. -/
def scanDen (c : Config) (tmode : Bool) : Nat := if tmode then c.scanDen1 else c.scanDen0

/-- R8: "a model must refuse a configuration that breaks one" of these. -/
def configValid (c : Config) : Bool :=
  decide (1 ≤ c.n0) && (decide (c.n0 ≤ 256)
  && (decide (1 ≤ c.n1) && (decide (c.n1 ≤ 256)
  && (decide (1 ≤ c.scanDen0) && (decide (1 ≤ c.scanDen1)
  && (decide (1 ≤ c.scanNum0) && (decide (1 ≤ c.scanNum1)
  && (decide (1 ≤ c.consThreshold) && (decide (c.consThreshold ≤ c.consMax) && (decide (c.consMax ≤ 255)
  && (decide (c.tickWcet + c.cmdWcet < c.tickCycles0)
  && (decide (c.tickWcet + c.cmdWcet < c.tickCycles1)
  && decide (max c.tickCycles0 c.tickCycles1 + c.tickWcet + c.cmdWcet < c.wdtCycles)))))))))))))

end Sys2Proof.Machine
end

