-- ==== Sys2Proof/Machine/Model.lean ====
section
/-! DEFINITION. The Fixed-Point Brightness Model (`spec/42_integrator.md` R137 to R141) and the PWM
decision of one lamp (`spec/43_pwm_driver.md` R154), as functions of configuration and codes alone. -/

namespace Sys2Proof.Machine

/-- R139: `scans_for(g, m)`. -/
def scansFor (c : Config) (g : Byte) (tmode : Bool) : Nat :=
  g.toNat * scanNum c tmode / scanDen c tmode

/-- R138: `glow_step` from the number of scans; zero scans is instant, and the division rounds up. -/
def stepOfScans (scans : Nat) : Nat := if scans = 0 then 65535 else ceilDiv 65535 scans

/-- R138: `glow_step(g, m)`, 1..65535. -/
def glowStep (c : Config) (g : Byte) (tmode : Bool) : Frame :=
  BitVec.ofNat 16 (stepOfScans (scansFor c g tmode))

/-- R140: `max_sub(b, n)`, 0..8191; codes 8..255 are computed the same way (R141). -/
def maxSub (b : Byte) (n : Nat) : Frame :=
  let p := (b.toNat + 1) * n
  if p < 8 then 0 else BitVec.ofNat 16 (p / 8 - 1)

/-- R137: the `STEP` table DERIVE makes. -/
def deriveStep (c : Config) (tmode : Bool) (glow : Table 8) : Table 16 :=
  tabulate fun i => glowStep c (readTable glow i) tmode

/-- R137: the `MAXSUB` table DERIVE makes. -/
def deriveMaxsub (c : Config) (tmode : Bool) (bright : Table 8) : Table 16 :=
  tabulate fun i => maxSub (readTable bright i) (subCycles c tmode)

/-- R154: `lamp_on`, for a lamp with counter `v` and maximum sub-cycle `m`, in sub-cycle `sub` of `n`. -/
def lampOn (n : Nat) (v m : Frame) (sub : Nat) : Bool :=
  if v = 0 then false
  else
    let q := 65536 / n
    decide (sub ≤ min (v.toNat / q) m.toNat)

end Sys2Proof.Machine
end

