-- ==== Sys2Proof/Machine/State.lean ====
section
/-! DEFINITION. Everything the spec gives the machine, as plain data: the registers and tables of
`spec/10_state.md`, the output pins, the input pins as the environment drives them, and the trace a model
observes (`spec/00_scope.md` R6).  `State.reset` is the machine right after `RESET_N` (R48). -/

namespace Sys2Proof.Machine

/-- `PHASE` (`spec/10_state.md` R21, `spec/30_encoding.md` R85). -/
inductive Phase where
  | idle
  | blank
  | drive
  | sample
  | validate
  | integrate
  | advance
  | checkin
  deriving DecidableEq, Repr

/-- The events of `spec/30_encoding.md` R86, and the passing of one clock cycle in which none of them
happens (log entry 4). -/
inductive Event where
  | tick
  | hostCmd
  | tmodeChange
  | wdtExpire
  | reset
  | tickMissed
  | clock
  deriving DecidableEq, Repr

/-- The cause codes of `spec/60_exceptions.md` R220, the values `LAST_EC` can hold.  Codes 7..15 are never
produced, and a state cannot hold one (93 R2). -/
inductive Cause where
  | none
  | framing
  | overrun
  | busy
  | illegal
  | range
  | wdt
  deriving DecidableEq, Repr

/-- `RES` (`spec/30_encoding.md` R78). -/
inductive Result where
  | ok
  | busy
  | illegal
  | range
  deriving DecidableEq, Repr

/-- The cause of a reset (`spec/70_reset_and_hazards.md` R240). -/
inductive ResetCause where
  /-- `RESET_N` low -/
  | pin
  /-- watchdog expiry -/
  | wdt
  deriving DecidableEq, Repr

/-- `VSTATE` (`spec/10_state.md` R34); value 3 never occurs, and none stands for it (93 R3). -/
inductive VState where
  | firstLook
  | accumulating
  | accepted
  deriving DecidableEq, Repr

/-- The index spaces of `spec/20_memory.md` R50. -/
inductive Space where
  | lamp
  | glow
  | bright
  | step
  | maxsub
  | diag
  deriving DecidableEq, Repr

/-- The output pins, each a register the block drives (`spec/10_state.md` R36). -/
structure OutPins where
  soClk : Bool
  soData : Bool
  soLatch : Bool
  soOeN : Bool
  siClk : Bool
  siLoadN : Bool
  wdtReset : Bool
  deriving DecidableEq, Repr

/-- One write of an output pin, the unit of the pin sequences of R101 and R150. -/
inductive PinWrite where
  | soClk (b : Bool)
  | soData (b : Bool)
  | soLatch (b : Bool)
  | soOeN (b : Bool)
  | siClk (b : Bool)
  | siLoadN (b : Bool)
  deriving DecidableEq, Repr

/-- What the environment presents during one step: the levels of the input pins (`spec/10_state.md` R37)
and the draws the spec leaves to time (R46, R177, R180, R182).  Log entry 9. -/
structure Inputs where
  /-- `RESET_N` -/
  resetN : Bool
  /-- the four strap pins (R24) -/
  tmodeIn : Bool
  agIn : Bool
  testIn : Bool
  tselIn : Bool
  /-- the original machine's column and row lines, which a shift-in captures (R102) -/
  siLines : Frame
  /-- `TSRC_FRAME` (R103) -/
  tsrcFrame : Frame
  /-- `CMD_VALID`, `CMD` (R45) -/
  cmdValid : Bool
  cmd : Word
  /-- the environment's watchdog expiry, a fault outside the block (R180) -/
  wdtFault : Bool
  /-- the cycles a tick in this step takes, drawn from 1..`TICK_WCET_CYCLES` (R177) -/
  tickCycles : Nat
  /-- the cycles a command in this step takes (R190) -/
  cmdCycles : Nat
  /-- the tick timer expires in this step, whatever it has counted (R182; log entry 28) -/
  tickNow : Bool
  /-- a timing-mode change that is due happens after this step (R182; log entry 28) -/
  tmodeLater : Bool
  deriving DecidableEq, Repr

/-- An entry of the trace (`spec/00_scope.md` R6), with the event labels of R86 and the phases of R85. -/
inductive Obs where
  /-- an atomic event begins -/
  | event (e : Event)
  /-- the tick enters a phase -/
  | phase (p : Phase)
  /-- a frame emitted on the output port, then latched and enabled -/
  | emit (f : Frame)
  /-- a shift-in transaction and the value it returned -/
  | shiftIn (v : Frame)
  /-- a host command word, its response and its result code -/
  | command (w : Word) (rsp : Frame) (res : Result)
  /-- a change of `SO_OE_N` -/
  | oeN (level : Bool)
  /-- a change of `WDT_RESET` -/
  | wdtReset (level : Bool)
  /-- a reset -/
  | reset (cause : ResetCause)
  deriving DecidableEq, Repr

/-- The machine. -/
structure State where
  /-- the configuration, fixed (R7) -/
  cfg : Config
  /-- `RUN` (R22) -/
  run : Bool
  /-- `TMODE` (R23) -/
  tmode : Bool
  /-- the first stage of each strap synchroniser (R24) -/
  tmodeMeta : Bool
  agMeta : Bool
  testMeta : Bool
  tselMeta : Bool
  /-- `TMODE_SYNC`, `AG_SYNC`, `TEST_SYNC`, `TSEL_SYNC` (R24) -/
  tmodeSync : Bool
  agSync : Bool
  testSync : Bool
  tselSync : Bool
  /-- `PHASE` (R21) -/
  phase : Phase
  /-- `AG_T`, `TEST_T`: the straps latched at the start of the tick (R183) -/
  agT : Bool
  testT : Bool
  /-- `TICK_COL`, `SUB_IDX` (R25) -/
  tickCol : BitVec 3
  subIdx : Byte
  /-- `TIMER`, `TICK_PENDING` (R26) -/
  timer : Nat
  tickPending : Bool
  /-- `MATRIX` (R27) -/
  matrix : Table 16
  /-- `GLOW_CODE`, `BRIGHT_CODE` (R28) -/
  glowCode : Table 8
  brightCode : Table 8
  /-- `CFG_DIRTY` (R29) -/
  cfgDirty : Bool
  /-- `STEP`, `MAXSUB` (R30) -/
  stepTab : Table 16
  maxsubTab : Table 16
  /-- `RAW_PREV` (R31) -/
  rawPrev : Frame
  /-- `LAST_ACC` (R32) -/
  lastAcc : Byte
  /-- `CONS` (R33) -/
  cons : Byte
  /-- `LAST_OUT` (R35) -/
  lastOut : Frame
  /-- the output pins (R36) -/
  out : OutPins
  /-- `STATUS[6]` `RST_WDT` (R44) -/
  rstWdt : Bool
  /-- `STATUS[8..11]`, the sticky error bits (R38) -/
  errOverrun : Bool
  errBusy : Bool
  errIllegal : Bool
  errRange : Bool
  /-- `STATUS[15:12]` `LAST_EC` (R39) -/
  lastEc : Cause
  /-- `BADFRAME_CNT`, `OVERRUN_CNT`, `DUR_MAX`, `DUR_CUR` (R40 to R42) -/
  badframeCnt : Frame
  overrunCnt : Frame
  durMax : Frame
  durCur : Frame
  /-- `WDT_EN`, `WDT_CNT` (R43) -/
  wdtEn : Bool
  wdtCnt : Nat
  /-- `RSP`, `RES` (R45) -/
  rsp : Frame
  res : Result
  /-- the model's own: `RESET_N` was low in the step before (R240; log entry 15) -/
  inReset : Bool
  /-- the model's own: what the environment presents in this step (log entry 9) -/
  pins : Inputs
  /-- the model's own: what it will present in the steps after; when empty, the levels stay (log entry 9) -/
  agenda : List Inputs
  /-- the model's own: the trace so far, newest entry first (R6; log entry 14) -/
  trace : List Obs
  deriving DecidableEq, Repr

/-- Reasons to stop with a fault.  There are none: no rule of the spec stops the block.  An error drops a
sample, refuses a command, counts, or resets the block (`spec/60_exceptions.md` R220, R228), and what
93 U3, R2 and R3 would treat as a fault (an index of a mask that is not one-hot, a cause code 7..15, a
`VSTATE` of 3) no state can hold. -/
inductive Fault where
  deriving DecidableEq, Repr

/-- Reasons to refuse a step. -/
inductive Refusal where
  /-- Raised by `exec` for a command that has no meaning yet; no arm raises it now.  Safe. -/
  | notModelled (mnemonic : String)
  /-- Raised by `step` for a configuration that breaks `spec/00_scope.md` R8: "a model must refuse a
  configuration that breaks one".  Safe: no claim is made of such a block. -/
  | configurationBreaksR8
  deriving DecidableEq, Repr

/-- The levels of the output pins in reset (R36, R48). -/
def OutPins.idle : OutPins where
  soClk := false
  soData := false
  soLatch := false
  soOeN := true
  siClk := false
  siLoadN := true
  wdtReset := false

/-- Inputs at rest: `RESET_N` high, every other pin 0, no command, a tick and a command of one
cycle, every event when the clock brings it.
DESIGN CHOICE, log entry 3. -/
def Inputs.quiet : Inputs where
  resetN := true
  tmodeIn := false
  agIn := false
  testIn := false
  tselIn := false
  siLines := 0
  tsrcFrame := 0
  cmdValid := false
  cmd := 0
  wdtFault := false
  tickCycles := 1
  cmdCycles := 1
  tickNow := false
  tmodeLater := false

/-- The reset values of `spec/10_state.md` R48 and `spec/70_reset_and_hazards.md` R241, for a
configuration, a cause and the pin levels the synchronisers take (they are transparent during reset).
`AG_T` and `TEST_T` have no reset value in the spec: 0, log entry 11. -/
def State.afterReset (c : Config) (cause : ResetCause) (pins : Inputs) : State where
  cfg := c
  run := false
  tmode := pins.tmodeIn
  tmodeMeta := pins.tmodeIn
  agMeta := pins.agIn
  testMeta := pins.testIn
  tselMeta := pins.tselIn
  tmodeSync := pins.tmodeIn
  agSync := pins.agIn
  testSync := pins.testIn
  tselSync := pins.tselIn
  phase := .idle
  agT := false
  testT := false
  tickCol := 0
  subIdx := 0
  timer := 0
  tickPending := false
  matrix := constTable 0
  glowCode := constTable c.defaultGlowCode
  brightCode := constTable c.defaultBrightCode
  cfgDirty := false
  stepTab := deriveStep c pins.tmodeIn (constTable c.defaultGlowCode)
  maxsubTab := deriveMaxsub c pins.tmodeIn (constTable c.defaultBrightCode)
  rawPrev := 0
  lastAcc := 0
  cons := 0
  lastOut := 0
  out := OutPins.idle
  rstWdt := match cause with | .pin => false | .wdt => true
  errOverrun := false
  errBusy := false
  errIllegal := false
  errRange := false
  lastEc := match cause with | .pin => .none | .wdt => .wdt
  badframeCnt := 0
  overrunCnt := 0
  durMax := 0
  durCur := 0
  wdtEn := false
  wdtCnt := 0
  rsp := 0
  res := .ok
  inReset := false
  pins := pins
  agenda := []
  trace := []

/-- The machine right after reset by `RESET_N`, in binding B1 with the pins at rest (log entries 2, 3). -/
def State.reset : State := State.afterReset Config.binding1 .pin Inputs.quiet

end Sys2Proof.Machine
end

