-- ==== Sys2Proof/Machine/Ops.lean ====
section
/-! DEFINITION. The shared operations: the serial transactions `Emit` and `ShiftIn` as their pin
sequences, `raise Error` (the block's whole "exception", `spec/60_exceptions.md` R221, R228: nothing is
saved, no vector is fetched, and there is no return, R229), DERIVE, RESET, the clock cycle with its timers
and the missed deadline, and the expiry of the watchdog. -/

namespace Sys2Proof.Machine

/-- Adds an entry to the trace (`spec/00_scope.md` R6). -/
def State.log (s : State) (o : Obs) : State := { s with trace := o :: s.trace }

/-- R21, R85: the tick enters phase `p`. -/
def State.enter (s : State) (p : Phase) : State := { s with phase := p, trace := .phase p :: s.trace }

/-! ### Pin sequences -/

/-- One pin write. -/
def OutPins.write (o : OutPins) : PinWrite → OutPins
  | .soClk b => { o with soClk := b }
  | .soData b => { o with soData := b }
  | .soLatch b => { o with soLatch := b }
  | .soOeN b => { o with soOeN := b }
  | .siClk b => { o with siClk := b }
  | .siLoadN b => { o with siLoadN := b }

/-- A sequence of pin writes, first to last. -/
def OutPins.writes (o : OutPins) (ws : List PinWrite) : OutPins := ws.foldl OutPins.write o

/-- The frame bits in the order they leave or arrive, most significant first (R75, R76). -/
def bitsMsbFirst (f : Frame) : List Bool := (List.range 16).map fun k => f.getLsbD (15 - k)

/-- `spec/43_pwm_driver.md` R150: 16 bits shifted, then the latch, then the output enable. -/
def emitWrites (f : Frame) : List PinWrite :=
  (bitsMsbFirst f).flatMap (fun b => [.soData b, .soClk true, .soClk false])
  ++ [.soData false, .soLatch true, .soLatch false, .soOeN false]

/-- `spec/40_sampler.md` R101: one load pulse, then 16 clock pulses. -/
def shiftInWrites : List PinWrite :=
  [.siLoadN false, .siLoadN true]
  ++ (List.range 16).flatMap (fun _ => [.siClk true, .siClk false])

/-- R101: reads `n` bits from a chain that presents its top bit on `SI_DATA` and shifts one stage at each
clock; the first bit stands there right after the load (93 G1).  The bits go into `acc` from the top. -/
def readBits : Nat → Frame → Frame → Frame
  | 0, _, acc => acc
  | n + 1, chain, acc => readBits n (chain <<< 1) (acc ||| ((BitVec.ofBool chain.msb).setWidth 16 <<< n))

/-- The trace entry for `SO_OE_N` going from `old` to `new`, if it changes (R6). -/
def oeChange (old new : Bool) : List Obs := if old = new then [] else [.oeN new]

/-- R150: `Emit(f)`. -/
def emit (f : Frame) (s : State) : State :=
  let out := s.out.writes (emitWrites f)
  { s with
    out := out
    lastOut := f
    trace := oeChange s.out.soOeN out.soOeN ++ .emit f :: s.trace }

/-- R101, R102: the value `ShiftIn()` returns when the original machine's lines hold `lines`. -/
def shiftInValue (lines : Frame) : Frame := readBits 16 lines 0

/-- R101: the state after a shift-in transaction. -/
def shiftIn (s : State) : State :=
  { s with
    out := s.out.writes shiftInWrites
    trace := .shiftIn (shiftInValue s.pins.siLines) :: s.trace }

/-- Drives `SO_OE_N` to 1 (R170, R193). -/
def blankOutputs (s : State) : State :=
  { s with
    out := { s.out with soOeN := true }
    trace := oeChange s.out.soOeN true ++ s.trace }

/-! ### Errors and the derived model -/

/-- `spec/60_exceptions.md` R221: `raise Error(ec)`.  Codes 2..5 set a sticky bit and `LAST_EC`; it never
changes control flow. -/
def raiseError (ec : Cause) (s : State) : State :=
  match ec with
  | .none => s
  | .framing => s
  | .overrun => { s with errOverrun := true, lastEc := .overrun }
  | .busy => { s with errBusy := true, lastEc := .busy }
  | .illegal => { s with errIllegal := true, lastEc := .illegal }
  | .range => { s with errRange := true, lastEc := .range }
  | .wdt => s

/-- `spec/42_integrator.md` R137: DERIVE. -/
def derive (s : State) : State :=
  { s with
    stepTab := deriveStep s.cfg s.tmode s.glowCode
    maxsubTab := deriveMaxsub s.cfg s.tmode s.brightCode
    cfgDirty := false }

/-! ### Reset -/

/-- `spec/70_reset_and_hazards.md` R241: RESET(cause).  Configuration, pins, agenda and trace are no
registers of the block; the reset and the change of `SO_OE_N` it makes are traced. -/
def resetAction (cause : ResetCause) (s : State) : State :=
  { State.afterReset s.cfg cause s.pins with
    agenda := s.agenda
    trace := oeChange s.out.soOeN true ++ .reset cause :: s.trace }

/-- R240: the step in which `RESET_N` is low, or has just returned to 1.  While it is low every register
holds its reset value; the reset action completes in the cycle it returns to 1.  The assertion is the
event RESET (R86); log entry 15. -/
def resetEvent (s : State) : State :=
  if s.inReset then
    { State.afterReset s.cfg .pin s.pins with
      inReset := !s.pins.resetN, agenda := s.agenda, trace := s.trace }
  else { resetAction .pin (s.log (.event .reset)) with inReset := !s.pins.resetN }

/-- `spec/44_scheduler.md` R180: WDT_EXPIRE.  `WDT_RESET` is high for one cycle and low again after the
event (R48; log entry 17). -/
def wdtExpire (s : State) : State :=
  (resetAction .wdt ((s.log (.event .wdtExpire)).log (.wdtReset true))).log (.wdtReset false)

/-- R179: the watchdog has expired: it is enabled and its counter has reached `WDT_CYCLES`. -/
def wdtDue (s : State) : Bool := s.wdtEn && decide (s.cfg.wdtCycles ≤ s.wdtCnt)

/-! ### The clock -/

/-- `spec/44_scheduler.md` R172: TICK_MISSED. -/
def tickMissed (s : State) : State :=
  raiseError .overrun { s.log (.event .tickMissed) with overrunCnt := satInc16 s.overrunCnt }

/-- R171: the tick timer expires. -/
def timerExpiry (s : State) : State :=
  if !s.tickPending && decide (s.phase = .idle) then { s with tickPending := true } else tickMissed s

/-- R182: the environment draws the moment of the next tick, so that a tick can come at any time and not
only after `TICK_CYCLES`.  The draw never makes a missed deadline, for under R8 there is none; log entry 28. -/
def tickDrawn (s : State) : Bool := s.pins.tickNow && (!s.tickPending && decide (s.phase = .idle))

/-- R171: one clock cycle of the tick timer. -/
def timerCycle (s : State) : State :=
  if s.run then
    if tickPeriod s.cfg s.tmode ≤ s.timer + 1 ∨ tickDrawn s = true then timerExpiry { s with timer := 0 }
    else { s with timer := s.timer + 1 }
  else s

/-- R24: one clock cycle of the strap synchronisers. -/
def syncCycle (s : State) : State :=
  { s with
    tmodeMeta := s.pins.tmodeIn
    agMeta := s.pins.agIn
    testMeta := s.pins.testIn
    tselMeta := s.pins.tselIn
    tmodeSync := s.tmodeMeta
    agSync := s.agMeta
    testSync := s.testMeta
    tselSync := s.tselMeta }

/-- R42, R43: one clock cycle of the tick-duration counter and of the watchdog counter. -/
def countCycle (s : State) : State :=
  { s with
    durCur := if s.phase = .idle then s.durCur else satInc16 s.durCur
    wdtCnt := if s.wdtEn then s.wdtCnt + 1 else s.wdtCnt }

/-- One clock cycle of the block. -/
def clockCycle (s : State) : State := timerCycle (countCycle (syncCycle s))

/-- `n` clock cycles, the time an event takes. -/
def elapse : Nat → State → State
  | 0, s => s
  | n + 1, s => elapse n (clockCycle s)

/-- R177: a tick's duration, the draw brought into 1..`TICK_WCET_CYCLES`. -/
def tickTime (s : State) : Nat := min (max 1 s.pins.tickCycles) s.cfg.tickWcet

/-- R190: a command's duration, at most `CMD_WCET_CYCLES` when `RUN = 1`, free when stopped.  It may be 0, so
that any number of commands comes between two ticks (R182; log entry 28). -/
def cmdTime (s : State) : Nat := if s.run then min s.pins.cmdCycles s.cfg.cmdWcet else s.pins.cmdCycles

end Sys2Proof.Machine
end

