-- ==== Sys2Proof/Machine/Flags.lean ====
section
/-! DEFINITION. The codes of the closed types, the `STATUS` word and its clearing, and the diagnostic
views (`spec/10_state.md` R34, R38 to R45; `spec/30_encoding.md` R78, R85, R86). -/

namespace Sys2Proof.Machine

/-- R85: the code of a phase. -/
def Phase.code : Phase → BitVec 3
  | .idle => 0
  | .blank => 1
  | .drive => 2
  | .sample => 3
  | .validate => 4
  | .integrate => 5
  | .advance => 6
  | .checkin => 7

/-- R86: the code of an event; the passing of a cycle is no event and has none. -/
def Event.code : Event → Option Nat
  | .tick => some 0
  | .hostCmd => some 1
  | .tmodeChange => some 2
  | .wdtExpire => some 3
  | .reset => some 4
  | .tickMissed => some 5
  | .clock => none

/-- R220: the code of a cause. -/
def Cause.code : Cause → BitVec 4
  | .none => 0
  | .framing => 1
  | .overrun => 2
  | .busy => 3
  | .illegal => 4
  | .range => 5
  | .wdt => 6

/-- R78: `RES[1:0]`. -/
def Result.code : Result → BitVec 2
  | .ok => 0
  | .busy => 1
  | .illegal => 2
  | .range => 3

/-- R34: the code of `VSTATE`. -/
def VState.code : VState → BitVec 2
  | .firstLook => 0
  | .accumulating => 1
  | .accepted => 2

/-- R34, R117: `VSTATE`, read off the history. -/
def State.vstate (s : State) : VState :=
  let cm := s.rawPrev.extractLsb' 8 8
  if onehot8 cm && cm == s.lastAcc then .accepted
  else if s.cons = 0 then .firstLook
  else .accumulating

/-- R38: the `STATUS` word.  Bits 0 to 5 follow their sources, bits 6 and 8 to 15 are held (R39). -/
def State.status (s : State) : Frame :=
  s.lastEc.code
  ++ BitVec.ofBool s.errRange
  ++ BitVec.ofBool s.errIllegal
  ++ BitVec.ofBool s.errBusy
  ++ BitVec.ofBool s.errOverrun
  ++ BitVec.ofBool false
  ++ BitVec.ofBool s.rstWdt
  ++ BitVec.ofBool (!s.out.soOeN)
  ++ BitVec.ofBool s.cfgDirty
  ++ BitVec.ofBool s.testSync
  ++ BitVec.ofBool s.agSync
  ++ BitVec.ofBool s.tmode
  ++ BitVec.ofBool s.run

/-- `spec/45_host_commands.md` R196: CLR_STATUS's effect on the held bits. -/
def clearStatus (mask : Frame) (s : State) : State :=
  { s with
    rstWdt := s.rstWdt && !mask.getLsbD 6
    errOverrun := s.errOverrun && !mask.getLsbD 8
    errBusy := s.errBusy && !mask.getLsbD 9
    errIllegal := s.errIllegal && !mask.getLsbD 10
    errRange := s.errRange && !mask.getLsbD 11
    lastEc := if mask.extractLsb' 12 4 = 0 then s.lastEc else .none }

/-- R206: CLR_DIAG's effect on the counters; without `HAS_DIAG` bits 0 and 2 change nothing. -/
def clearDiag (mask : Frame) (s : State) : State :=
  { s with
    badframeCnt := if mask.getLsbD 0 && s.cfg.hasDiag then 0 else s.badframeCnt
    overrunCnt := if mask.getLsbD 1 then 0 else s.overrunCnt
    durMax := if mask.getLsbD 2 && s.cfg.hasDiag then 0 else s.durMax }

/-- R205: the diagnostic views, `DIAG[0..7]`. -/
def State.diagView (s : State) (idx : Nat) : Frame :=
  match idx with
  | 0 => if s.cfg.hasDiag then s.badframeCnt else 0
  | 1 => s.overrunCnt
  | 2 => if s.cfg.hasDiag then s.durMax else 0
  | 3 => s.rawPrev
  | 4 => s.cons ++ s.lastAcc
  | 5 => s.subIdx ++ s.tickCol.setWidth 8
  | 6 => s.lastOut
  | 7 => s.vstate.code.setWidth 16
  | _ => 0

/-- R45, R190, R240: `CMD_READY`: no tick pending or running, and not in reset.  A command is atomic, so
the cycles in which one executes lie inside a step.  DESIGN CHOICE: it stays 1 in a step whose watchdog expiry
or timing-mode change is taken before the command (log entry 29). -/
def State.cmdReady (s : State) : Bool :=
  s.pins.resetN && !s.inReset && !s.tickPending && decide (s.phase = .idle)

end Sys2Proof.Machine
end

