-- ==== Sys2Proof/Machine/Operands.lean ====
section
/-! DEFINITION. The operand forms of a host command: an index checked against the size of its space
(`spec/20_memory.md` R50, R52), element access at the element's own width (R55), and the checks and the
response every command shares (`spec/45_host_commands.md` R190, R191). -/

namespace Sys2Proof.Machine

/-- R50: the number of elements of a space. -/
def Space.size : Space → Nat
  | .lamp => 64
  | .glow => 64
  | .bright => 64
  | .step => 64
  | .maxsub => 64
  | .diag => 8

/-- R50: the width of an element of a space. -/
def Space.width : Space → Nat
  | .lamp => 16
  | .glow => 8
  | .bright => 8
  | .step => 16
  | .maxsub => 16
  | .diag => 16

/-- R10, R55: `MemRead(space, i)` as a host read returns it: an 8-bit element zero-extended, a 16-bit
element whole. -/
def memRead (sp : Space) (i : Nat) (s : State) : Frame :=
  match sp with
  | .lamp => readTable s.matrix i
  | .glow => (readTable s.glowCode i).setWidth 16
  | .bright => (readTable s.brightCode i).setWidth 16
  | .step => readTable s.stepTab i
  | .maxsub => readTable s.maxsubTab i
  | .diag => s.diagView i

/-- R191: the checks on a word whose opcode is in the map, in their order: BUSY, then RANGE. -/
def check (stoppedOnly : Bool) (operand : Option (Space × Nat)) (s : State) : Result :=
  if stoppedOnly && s.run then .busy
  else
    match operand with
    | none => .ok
    | some (sp, i) => if sp.size ≤ i then .range else .ok

/-- R220: the cause a refused command records. -/
def Result.cause : Result → Cause
  | .ok => .none
  | .busy => .busy
  | .illegal => .illegal
  | .range => .range

/-- R190: `RSP <- rsp; RES <- the result code`. -/
def respond (r : Result) (v : Frame) (s : State) : State := { s with rsp := v, res := r }

/-- R191: a refused command changes no state but `RSP`, `RES` and the error record. -/
def refuse (r : Result) (s : State) : State := respond r 0 (raiseError r.cause s)

/-- R190: HOST_CMD on a decoded command: CHECK, then EXECUTE, then the response.  `body` gives the state
after the effect, `value` the response computed before it. -/
def command (stoppedOnly : Bool) (operand : Option (Space × Nat)) (body : State → State)
    (value : State → Frame) (s : State) : Host.Outcome State Fault Refusal :=
  match check stoppedOnly operand s with
  | .ok => .next (respond .ok (value s) (body s))
  | .busy => .next (refuse .busy s)
  | .illegal => .next (refuse .illegal s)
  | .range => .next (refuse .range s)

/-- R199 to R205: a read command returns one element and changes nothing else. -/
def readCommand (stoppedOnly : Bool) (sp : Space) (idx : Nat) (s : State) :
    Host.Outcome State Fault Refusal :=
  command stoppedOnly (some (sp, idx)) (fun t => t) (memRead sp idx) s

/-- R207: a word whose opcode is not in the map. -/
def illegalCommand (s : State) : State := refuse .illegal s

end Sys2Proof.Machine
end

