-- ==== Sys2Proof/Machine/Configuration.lean ====
section
/-! DEFINITION. The configuration commands (`spec/45_host_commands.md` R197 to R203). -/

namespace Sys2Proof.Machine

/-- R197: the effect of WR_GLOWCODE. -/
def writeGlowCode (idx : Nat) (code : Byte) (s : State) : State :=
  { s with glowCode := writeTable s.glowCode idx code, cfgDirty := true }

/-- R198: the effect of WR_BRIGHTCODE. -/
def writeBrightCode (idx : Nat) (code : Byte) (s : State) : State :=
  { s with brightCode := writeTable s.brightCode idx code, cfgDirty := true }

/-- R197: WR_GLOWCODE, stopped only. -/
def execWrGlowcode (idx : Nat) (code : Byte) (s : State) : Host.Outcome State Fault Refusal :=
  command true (some (.glow, idx)) (writeGlowCode idx code) (fun _ => 0) s

/-- R198: WR_BRIGHTCODE, stopped only. -/
def execWrBrightcode (idx : Nat) (code : Byte) (s : State) : Host.Outcome State Fault Refusal :=
  command true (some (.bright, idx)) (writeBrightCode idx code) (fun _ => 0) s

/-- R199: RD_GLOWCODE. -/
def execRdGlowcode (idx : Nat) (s : State) : Host.Outcome State Fault Refusal :=
  readCommand false .glow idx s

/-- R200: RD_BRIGHTCODE. -/
def execRdBrightcode (idx : Nat) (s : State) : Host.Outcome State Fault Refusal :=
  readCommand false .bright idx s

/-- R201: APPLY, stopped only. -/
def execApply (s : State) : Host.Outcome State Fault Refusal :=
  command true none derive (fun _ => 0) s

/-- R202: RD_STEP. -/
def execRdStep (idx : Nat) (s : State) : Host.Outcome State Fault Refusal :=
  readCommand false .step idx s

/-- R203: RD_MAXSUB. -/
def execRdMaxsub (idx : Nat) (s : State) : Host.Outcome State Fault Refusal :=
  readCommand false .maxsub idx s

end Sys2Proof.Machine
end

