-- ==== Sys2Proof/Machine/Control.lean ====
section
/-! DEFINITION. The control commands (`spec/45_host_commands.md` R192 to R196). -/

namespace Sys2Proof.Machine

/-- R193: the effect of STOP. -/
def stopEffect (s : State) : State :=
  blankOutputs
    { s with
      run := false
      timer := 0
      tickPending := false
      wdtEn := false
      wdtCnt := 0 }

/-- R194: the effect of START; while running, no change. -/
def startEffect (s : State) : State :=
  if s.run then s
  else
    let t := if s.cfgDirty then derive s else s
    { t with
      timer := 0
      tickPending := false
      wdtCnt := 0
      wdtEn := true
      run := true }

/-- R192: NOP. -/
def execNop (s : State) : Host.Outcome State Fault Refusal :=
  command false none (fun t => t) (fun _ => 0) s

/-- R193: STOP. -/
def execStop (s : State) : Host.Outcome State Fault Refusal :=
  command false none stopEffect (fun _ => 0) s

/-- R194: START. -/
def execStart (s : State) : Host.Outcome State Fault Refusal :=
  command false none startEffect (fun _ => 0) s

/-- R195: RD_STATUS. -/
def execRdStatus (s : State) : Host.Outcome State Fault Refusal :=
  command false none (fun t => t) State.status s

/-- R196: CLR_STATUS. -/
def execClrStatus (mask : Frame) (s : State) : Host.Outcome State Fault Refusal :=
  command false none (clearStatus mask) (fun _ => 0) s

end Sys2Proof.Machine
end

