-- ==== Sys2Proof/Machine/Diagnostics.lean ====
section
/-! DEFINITION. The diagnostic commands (`spec/45_host_commands.md` R204 to R206). -/

namespace Sys2Proof.Machine

/-- R204: RD_LAMP, stopped only. -/
def execRdLamp (idx : Nat) (s : State) : Host.Outcome State Fault Refusal :=
  readCommand true .lamp idx s

/-- R205: RD_DIAG. -/
def execRdDiag (idx : Nat) (s : State) : Host.Outcome State Fault Refusal :=
  readCommand false .diag idx s

/-- R206: CLR_DIAG. -/
def execClrDiag (mask : Frame) (s : State) : Host.Outcome State Fault Refusal :=
  command false none (clearDiag mask) (fun _ => 0) s

end Sys2Proof.Machine
end

