-- ==== Sys2Proof/Machine/Dispatch.lean ====
section
/-! DEFINITION. One arm per host command. -/

namespace Sys2Proof.Machine

def exec (i : Instr) (s : State) : Host.Outcome State Fault Refusal :=
  match i with
  | .nop => Sys2Proof.Machine.execNop s
  | .stop => Sys2Proof.Machine.execStop s
  | .start => Sys2Proof.Machine.execStart s
  | .rdStatus => Sys2Proof.Machine.execRdStatus s
  | .clrStatus mask => Sys2Proof.Machine.execClrStatus mask s
  | .wrGlowcode idx code => Sys2Proof.Machine.execWrGlowcode idx code s
  | .wrBrightcode idx code => Sys2Proof.Machine.execWrBrightcode idx code s
  | .rdGlowcode idx => Sys2Proof.Machine.execRdGlowcode idx s
  | .rdBrightcode idx => Sys2Proof.Machine.execRdBrightcode idx s
  | .apply => Sys2Proof.Machine.execApply s
  | .rdStep idx => Sys2Proof.Machine.execRdStep idx s
  | .rdMaxsub idx => Sys2Proof.Machine.execRdMaxsub idx s
  | .rdLamp idx => Sys2Proof.Machine.execRdLamp idx s
  | .rdDiag idx => Sys2Proof.Machine.execRdDiag idx s
  | .clrDiag mask => Sys2Proof.Machine.execClrDiag mask s

end Sys2Proof.Machine
end

