-- ==== Sys2Proof/Machine/Driver.lean ====
section
/-! DEFINITION. The BLANK and DRIVE phases (`spec/43_pwm_driver.md`). -/

namespace Sys2Proof.Machine

/-- R74: the blanking frame. -/
def blankFrame : Frame := 0x0000

/-- R153: the lit rows of column `col` in sub-cycle `sub`, one bit per row. -/
def litRows (n col sub : Nat) (matrix maxsub : Table 16) : Byte :=
  (List.range 8).foldl (fun lit r =>
    if lampOn n (readTable matrix (lampIndex col r)) (readTable maxsub (lampIndex col r)) sub
    then lit ||| (1#8 <<< r) else lit) 0

/-- R156: the row byte, in the output polarity. -/
def rowByte (activeLow : Bool) (lit : Byte) : Byte := if activeLow then ~~~lit else lit

/-- R153, R73: the frame AGFRAME emits. -/
def afterglowFrame (s : State) : Frame :=
  columnMask s.tickCol.toNat ++
    rowByte s.cfg.outRowActiveLow
      (litRows (subCycles s.cfg s.tmode) s.tickCol.toNat s.subIdx.toNat s.matrix s.maxsubTab)

/-- R152: BLANK. -/
def blank (s : State) : State := emit blankFrame (s.enter .blank)

/-- R153: AGFRAME. -/
def agframe (s : State) : State := emit (afterglowFrame s) (s.enter .drive)

/-- R157: whether PASS re-drives the last raw sample. -/
def passEmits (s : State) : Bool := s.rawPrev != s.lastOut || s.out.soOeN

/-- R157: PASS. -/
def pass (s : State) : State :=
  if passEmits s then emit s.rawPrev (s.enter .drive) else s.enter .drive

/-- R151: DRIVE, dispatched on the latched strap. -/
def drive (s : State) : State := if s.agT then agframe (blank s) else pass s

end Sys2Proof.Machine
end

