-- ==== Sys2Proof/Machine/Sampler.lean ====
section
/-! DEFINITION. The SAMPLE phase (`spec/40_sampler.md`). -/

namespace Sys2Proof.Machine

/-- R100, R102, R103: the value of this tick's raw sample.  It is local to the tick, no register. -/
def sampleValue (s : State) : Frame :=
  if s.testT then s.pins.tsrcFrame else shiftInValue s.pins.siLines

/-- R100, R103: SAMPLE.  In test mode there is no shift-in transaction. -/
def sample (s : State) : State :=
  if s.testT then s.enter .sample else shiftIn (s.enter .sample)

end Sys2Proof.Machine
end

