-- ==== Sys2Proof/Machine/Integrator.lean ====
section
/-! DEFINITION. The INTEGRATE phase (`spec/42_integrator.md` R130 to R135). -/

namespace Sys2Proof.Machine

/-- R131 to R133: one lane.  A row bit of 0 is on and raises the counter; a 1 is off and lowers it by the
same step. -/
def integrateLane (rowOff : Bool) (v step : Frame) : Frame :=
  if rowOff then satSub16 v step else satAdd16 v step

/-- R130, R135: the table after column `c` is integrated with row mask `rm`. -/
def integrateColumn (c : Nat) (rm : Byte) (step matrix : Table 16) : Table 16 :=
  tabulate fun i =>
    if i / 8 = c then integrateLane (rm.getLsbD (i % 8)) (readTable matrix i) (readTable step i)
    else readTable matrix i

/-- R130: INTEGRATE(c, rm).  R134: a column index out of range changes nothing. -/
def integrate (c : Nat) (rm : Byte) (s : State) : State :=
  if 8 ≤ c then s
  else
    let t := s.enter .integrate
    { t with matrix := integrateColumn c rm t.stepTab t.matrix }

end Sys2Proof.Machine
end

