-- ==== Sys2Proof/Machine/Validator.lean ====
section
/-! DEFINITION. The VALIDATE phase (`spec/41_validator.md` R110 to R118). -/

namespace Sys2Proof.Machine

/-- R70: `COL = s[15:8]`. -/
def colMask (smp : Frame) : Byte := smp.extractLsb' 8 8

/-- R70: `ROW = s[7:0]`, active low. -/
def rowMask (smp : Frame) : Byte := smp.extractLsb' 0 8

/-- R113: step 3, the consistency counter, against the previous tick's raw sample. -/
def nextCons (smp : Frame) (s : State) : Byte :=
  if smp = s.rawPrev then satInc8 s.cfg.consMax s.cons else 0

/-- R111, R114, R115: the column the sample is accepted for, if it is accepted: its mask is one-hot,
differs from `LAST_ACC`, and the updated counter has reached `CONS_THRESHOLD`. -/
def acceptedColumn (smp : Frame) (s : State) : Option Nat :=
  match index8 (colMask smp) with
  | none => none
  | some c =>
    if colMask smp = s.lastAcc then none
    else if s.cfg.consThreshold ≤ (nextCons smp s).toNat then some c
    else none

/-- R112: the bad-frame counter. -/
def nextBadframe (smp : Frame) (s : State) : Frame :=
  if !onehot8 (colMask smp) && s.cfg.hasDiag then satInc16 s.badframeCnt else s.badframeCnt

/-- R113, R112, R116: what VALIDATE records of every sample, accepted or not. -/
def recordSample (smp : Frame) (s : State) : State :=
  { s.enter .validate with
    cons := nextCons smp s
    badframeCnt := nextBadframe smp s
    rawPrev := smp }

/-- R110: VALIDATE(s). -/
def validate (smp : Frame) (s : State) : State :=
  match acceptedColumn smp s with
  | none => recordSample smp s
  | some c => integrate c (rowMask smp) { recordSample smp s with lastAcc := colMask smp }

end Sys2Proof.Machine
end

