-- ==== Sys2Proof/Machine/Scheduler.lean ====
section
/-! DEFINITION. The Realtime Scheduler (`spec/44_scheduler.md`): the tick, the timing-mode change, and
which event comes next. -/

namespace Sys2Proof.Machine

/-- R174, R183: the start of a tick. -/
def tickStart (s : State) : State :=
  { s.log (.event .tick) with
    tickPending := false
    durCur := 0
    agT := s.agSync
    testT := s.testSync }

/-- R175: the tick counter after ADVANCE. -/
def nextTickCol (col : BitVec 3) : BitVec 3 := if col = 7 then 0 else col + 1

/-- R175: the sub-cycle index after ADVANCE, in a window of `n` sub-cycles. -/
def nextSubIdx (n : Nat) (col : BitVec 3) (sub : Byte) : Byte :=
  if col = 7 then BitVec.ofNat 8 ((sub.toNat + 1) % n) else sub

/-- R175: ADVANCE. -/
def advance (s : State) : State :=
  { s.enter .advance with
    tickCol := nextTickCol s.tickCol
    subIdx := nextSubIdx (subCycles s.cfg s.tmode) s.tickCol s.subIdx }

/-- R177: the largest tick duration after one of `d` cycles. -/
def nextDurMax (s : State) (d : Frame) : Frame :=
  if s.cfg.hasDiag && decide (d.toNat ≤ s.cfg.durOutlierLimit) && decide (s.durMax.toNat < d.toNat)
  then d else s.durMax

/-- R176: CHECKIN. -/
def checkin (s : State) : State :=
  { s with wdtCnt := 0, durMax := nextDurMax s s.durCur }

/-- R174: the phases of a tick up to ADVANCE, in their order. -/
def tickPhases (s : State) : State :=
  let d := drive (tickStart s)
  advance (validate (sampleValue d) (sample d))

/-- R174: TICK.  Its cycles (R177) are counted together, before CHECKIN (log entry 5).  A watchdog that
expires in them ends the tick by reset (R229; log entry 7). -/
def tick (s : State) : State :=
  let t := elapse (tickTime s) ((tickPhases s).enter .checkin)
  if wdtDue t then wdtExpire t else { checkin t with phase := .idle }

/-- R178: TMODE_CHANGE. -/
def tmodeChange (s : State) : State :=
  derive
    { s.log (.event .tmodeChange) with
      tmode := s.tmodeSync
      timer := 0
      tickPending := false
      tickCol := 0
      subIdx := 0
      wdtCnt := if s.run then 0 else s.wdtCnt }

/-- R178: the condition of a timing-mode change, at a moment the environment draws ("at some point after
`TMODE_SYNC` differs from `TMODE`", R182; log entry 28). -/
def tmodeDue (s : State) : Bool :=
  s.tmodeSync != s.tmode && !s.pins.tmodeLater && !s.tickPending && decide (s.phase = .idle)

/-- R227: what happens next, highest priority first; R173, R178, R190 give each event's condition.
`TICK_MISSED` is a timer expiry and happens inside the cycles of another event (R171).
DESIGN CHOICE: a command presented while `CMD_READY` is 1 is not taken in a step that takes a watchdog expiry
or a timing-mode change, though R45 alone would take it (log entry 29). -/
def State.nextEvent (s : State) : Event :=
  if !s.pins.resetN || s.inReset then .reset
  else if wdtDue s || (s.pins.wdtFault && s.wdtEn) then .wdtExpire
  else if s.run && s.tickPending && decide (s.phase = .idle) then .tick
  else if tmodeDue s then .tmodeChange
  else if s.pins.cmdValid && s.cmdReady then .hostCmd
  else .clock

end Sys2Proof.Machine
end

