-- ==== Sys2Proof/Machine/HostPort.lean ====
section
/-! DEFINITION. The host command port (`spec/45_host_commands.md` R190), the environment's next inputs,
and one step as the event that comes next. -/

namespace Sys2Proof.Machine

/-- R190, R207: the execution of one command word. -/
def execWord (w : Word) (s : State) : Host.Outcome State Fault Refusal :=
  match decode w with
  | .ok i => exec i s
  | .error _ => .next (illegalCommand s)

/-- R45: the word is taken; the host then lowers `CMD_VALID` (log entry 9). -/
def takeCommand (s : State) : State :=
  { s.log (.event .hostCmd) with pins := { s.pins with cmdValid := false } }

/-- The state a taken command executes in: its cycles have passed (log entry 6). -/
def commandState (s : State) : State := elapse (cmdTime s) (takeCommand s)

/-- Applies `f` to the state of a next outcome. -/
def mapNext (f : State → State) : Host.Outcome State Fault Refusal → Host.Outcome State Fault Refusal
  | .next t => .next (f t)
  | .fault r => .fault r
  | .refused r => .refused r

/-- R6: the trace of a command and its response. -/
def logCommand (w : Word) (s : State) : State := s.log (.command w s.rsp s.res)

/-- R190: HOST_CMD.  A watchdog that expires in the command's cycles ends it by reset (R229). -/
def hostCmd (s : State) : Host.Outcome State Fault Refusal :=
  if wdtDue (commandState s) then .next (wdtExpire (commandState s))
  else mapNext (logCommand s.pins.cmd) (execWord s.pins.cmd (commandState s))

/-- The environment's inputs of the next step; when the agenda is empty the levels stay. -/
def nextInputs (s : State) : State :=
  match s.agenda with
  | [] => s
  | p :: rest => { s with pins := p, agenda := rest }

/-- One event, chosen by R227. -/
def runEvent (s : State) : Host.Outcome State Fault Refusal :=
  match s.nextEvent with
  | .reset => .next (resetEvent s)
  | .wdtExpire => .next (wdtExpire s)
  | .tick => .next (tick s)
  | .tmodeChange => .next (tmodeChange s)
  | .hostCmd => hostCmd s
  | .tickMissed => .next (tickMissed s)
  | .clock => .next (clockCycle s)

/-- R8: a configuration that breaks the constraints is refused; every other state has a next one. -/
def stepEvent (s : State) : Host.Outcome State Fault Refusal :=
  if configValid s.cfg then mapNext nextInputs (runEvent s)
  else .refused .configurationBreaksR8

/-- The host presents `w`, and nothing of higher priority (R227) is due before it: reset is released,
no tick is pending or running, no timing-mode change and no watchdog expiry is due. -/
def presentWord (w : Word) (s : State) : State :=
  { s with
    pins := { s.pins with resetN := true, wdtFault := false, cmdValid := true, cmd := w }
    inReset := false
    tickPending := false
    phase := .idle
    tmodeSync := s.tmode
    wdtCnt := if s.wdtEn && decide (s.cfg.wdtCycles ≤ s.wdtCnt + cmdTime s) then 0 else s.wdtCnt }

end Sys2Proof.Machine
end

