-- ==== Sys2Proof/Machine/Step.lean ====
section
/-! DEFINITION. One step of the machine, and the state in which the next step runs a given command. -/

namespace Sys2Proof.Machine

/-- One step: the event that comes next (`spec/60_exceptions.md` R227), then the environment's next
inputs. -/
def step (s : State) : Host.Outcome State Fault Refusal := stepEvent s

/-- The block fetches no instructions (`spec/20_memory.md` R66): its next command is the word the host
presents on `CMD`.  This presents a table word there (log entry 16). -/
def State.withFetchWord (s : State) (nbits w : Nat) : State :=
  presentWord (BitVec.ofNat 32 (w % 2 ^ nbits)) s

end Sys2Proof.Machine
end

