-- ==== Sys2Proof/Machine/HostContract.lean ====
section
/-! DEFINITION. The command sequences the host contract asks of the host (`spec/46_external_interfaces.md`
R212, R214).  They bind the host, not the block; the machine never calls them. -/

namespace Sys2Proof.Machine

/-- The two code grids of a configuration record, as the block holds them (R211). -/
structure CodeGrids where
  glow : Table 8
  bright : Table 8
  deriving DecidableEq, Repr

/-- R212, R214: the 128 code writes of one record, in lamp order. -/
def writeGrids (g : CodeGrids) : List Instr :=
  (List.range 64).flatMap fun i =>
    [.wrGlowcode i (readTable g.glow i), .wrBrightcode i (readTable g.bright i)]

/-- R212: BOOT; an invalid record is `none`, and no code is written. -/
def bootCommands (record : Option CodeGrids) : List Instr :=
  match record with
  | some g => writeGrids g ++ [.start]
  | none => [.start]

/-- R214: LIVE_WRITE; a record that fails its check is `none`. -/
def liveWriteCommands (record : Option CodeGrids) : List Instr :=
  match record with
  | some g => [.stop] ++ writeGrids g ++ [.start]
  | none => [.stop, .start]

/-- The commands `is` executed one after another, with no other event between them. -/
def execAll : List Instr → State → Host.Outcome State Fault Refusal
  | [], s => .next s
  | i :: is, s =>
    match exec i s with
    | .next t => execAll is t
    | .fault r => .fault r
    | .refused r => .refused r

end Sys2Proof.Machine
end

