-- ==== Sys2Proof/Safety.lean ====
section
/-! DEFINITION. The terms claims are stated in: the pieces of the state by name and which of them an
operation leaves alone, the invariants of `spec/10_state.md` R49 and `spec/00_scope.md` R8, the LED chain a
frame is shifted into, and the columns a run of samples is accepted for. -/

namespace Sys2Proof.Machine

/-! ### Frames -/

/-- Every piece of the state by name. -/
inductive Field where
  | cfg
  | run
  | tmode
  | tmodeMeta
  | agMeta
  | testMeta
  | tselMeta
  | tmodeSync
  | agSync
  | testSync
  | tselSync
  | phase
  | agT
  | testT
  | tickCol
  | subIdx
  | timer
  | tickPending
  | matrix
  | glowCode
  | brightCode
  | cfgDirty
  | stepTab
  | maxsubTab
  | rawPrev
  | lastAcc
  | cons
  | lastOut
  | soClk
  | soData
  | soLatch
  | soOeN
  | siClk
  | siLoadN
  | wdtReset
  | rstWdt
  | errOverrun
  | errBusy
  | errIllegal
  | errRange
  | lastEc
  | badframeCnt
  | overrunCnt
  | durMax
  | durCur
  | wdtEn
  | wdtCnt
  | rsp
  | res
  | inReset
  | pins
  | agenda
  | trace
  deriving DecidableEq, Repr

/-- `s` and `t` hold the same value in one piece of the state. -/
def State.agreesOn (s t : State) : Field → Prop
  | .cfg => t.cfg = s.cfg
  | .run => t.run = s.run
  | .tmode => t.tmode = s.tmode
  | .tmodeMeta => t.tmodeMeta = s.tmodeMeta
  | .agMeta => t.agMeta = s.agMeta
  | .testMeta => t.testMeta = s.testMeta
  | .tselMeta => t.tselMeta = s.tselMeta
  | .tmodeSync => t.tmodeSync = s.tmodeSync
  | .agSync => t.agSync = s.agSync
  | .testSync => t.testSync = s.testSync
  | .tselSync => t.tselSync = s.tselSync
  | .phase => t.phase = s.phase
  | .agT => t.agT = s.agT
  | .testT => t.testT = s.testT
  | .tickCol => t.tickCol = s.tickCol
  | .subIdx => t.subIdx = s.subIdx
  | .timer => t.timer = s.timer
  | .tickPending => t.tickPending = s.tickPending
  | .matrix => t.matrix = s.matrix
  | .glowCode => t.glowCode = s.glowCode
  | .brightCode => t.brightCode = s.brightCode
  | .cfgDirty => t.cfgDirty = s.cfgDirty
  | .stepTab => t.stepTab = s.stepTab
  | .maxsubTab => t.maxsubTab = s.maxsubTab
  | .rawPrev => t.rawPrev = s.rawPrev
  | .lastAcc => t.lastAcc = s.lastAcc
  | .cons => t.cons = s.cons
  | .lastOut => t.lastOut = s.lastOut
  | .soClk => t.out.soClk = s.out.soClk
  | .soData => t.out.soData = s.out.soData
  | .soLatch => t.out.soLatch = s.out.soLatch
  | .soOeN => t.out.soOeN = s.out.soOeN
  | .siClk => t.out.siClk = s.out.siClk
  | .siLoadN => t.out.siLoadN = s.out.siLoadN
  | .wdtReset => t.out.wdtReset = s.out.wdtReset
  | .rstWdt => t.rstWdt = s.rstWdt
  | .errOverrun => t.errOverrun = s.errOverrun
  | .errBusy => t.errBusy = s.errBusy
  | .errIllegal => t.errIllegal = s.errIllegal
  | .errRange => t.errRange = s.errRange
  | .lastEc => t.lastEc = s.lastEc
  | .badframeCnt => t.badframeCnt = s.badframeCnt
  | .overrunCnt => t.overrunCnt = s.overrunCnt
  | .durMax => t.durMax = s.durMax
  | .durCur => t.durCur = s.durCur
  | .wdtEn => t.wdtEn = s.wdtEn
  | .wdtCnt => t.wdtCnt = s.wdtCnt
  | .rsp => t.rsp = s.rsp
  | .res => t.res = s.res
  | .inReset => t.inReset = s.inReset
  | .pins => t.pins = s.pins
  | .agenda => t.agenda = s.agenda
  | .trace => t.trace = s.trace

/-- From `s` to `t` nothing changes but the pieces named. -/
def State.sameExcept (s t : State) (changed : List Field) : Prop :=
  ∀ f : Field, f ∉ changed → s.agreesOn t f

/-- The trace entries a step from `s` to `t` adds are `new`, newest first (`spec/00_scope.md` R6). -/
def State.adds (s t : State) (new : List Obs) : Prop := t.trace = new ++ s.trace

/-- The phases in a part of a trace, oldest first (`spec/30_encoding.md` R85). -/
def phasesOf (new : List Obs) : List Phase :=
  (new.filterMap fun o => match o with | .phase p => some p | _ => none).reverse

/-- The frames emitted in a part of a trace, oldest first. -/
def framesOf (new : List Obs) : List Frame :=
  (new.filterMap fun o => match o with | .emit f => some f | _ => none).reverse

/-- The values shifted in in a part of a trace, oldest first. -/
def shiftsOf (new : List Obs) : List Frame :=
  (new.filterMap fun o => match o with | .shiftIn v => some v | _ => none).reverse

/-! ### How a command is answered -/

/-- `spec/45_host_commands.md` R190: the command is answered `OK` with `v`, and changes nothing but the
pieces named and its response. -/
def State.answered (s t : State) (v : Frame) (changed : List Field) : Prop :=
  t.rsp = v ∧ t.res = .ok ∧ s.sameExcept t ([.rsp, .res] ++ changed)

/-- R191: the command is refused with `BUSY`: only the response and the error record change. -/
def State.busyRefused (s t : State) : Prop :=
  t.rsp = 0 ∧ t.res = .busy ∧ t.errBusy = true ∧ t.lastEc = .busy
  ∧ s.sameExcept t [.rsp, .res, .errBusy, .lastEc]

/-- R191: the command is refused with `RANGE`. -/
def State.rangeRefused (s t : State) : Prop :=
  t.rsp = 0 ∧ t.res = .range ∧ t.errRange = true ∧ t.lastEc = .range
  ∧ s.sameExcept t [.rsp, .res, .errRange, .lastEc]

/-- R191, R207: the word is refused with `ILLEGAL`. -/
def State.illegalRefused (s t : State) : Prop :=
  t.rsp = 0 ∧ t.res = .illegal ∧ t.errIllegal = true ∧ t.lastEc = .illegal
  ∧ s.sameExcept t [.rsp, .res, .errIllegal, .lastEc]

/-! ### Invariants -/

/-- `spec/10_state.md` R49: what every reachable state satisfies.  `TICK_COL < 8` holds by its width.
That `PHASE` is `IDLE` and `WDT_EN` set between the events of a running block is R21 and R43. -/
structure State.Consistent (s : State) : Prop where
  subIdx_lt : s.subIdx.toNat < subCycles s.cfg s.tmode
  cons_le : s.cons.toNat ≤ s.cfg.consMax
  phase_idle : s.phase = .idle
  stopped : s.run = false → s.out.soOeN = true ∧ s.wdtEn = false ∧ s.tickPending = false
  running : s.run = true → s.cfgDirty = false ∧ s.wdtEn = true
  derived : s.cfgDirty = false →
    s.stepTab = deriveStep s.cfg s.tmode s.glowCode ∧ s.maxsubTab = deriveMaxsub s.cfg s.tmode s.brightCode
  lastAcc_onehot : s.lastAcc = 0 ∨ onehot8 s.lastAcc = true
  step_pos : ∀ i, i < 64 → 1 ≤ (readTable s.stepTab i).toNat

/-- Where the timers of a running block stand between events, under `spec/00_scope.md` R8: the tick timer
is inside its period, a pending tick has waited no longer than one command, and the watchdog has counted no
more than the cycles since the last tick's CHECKIN can be.  Of a stopped one, both stand at 0
(`spec/44_scheduler.md` R170). -/
structure State.InTime (s : State) : Prop where
  stopped : s.run = false → s.timer = 0 ∧ s.wdtCnt = 0
  timer_lt : s.run = true → s.timer < tickPeriod s.cfg s.tmode
  pending_le : s.run = true → s.tickPending = true → s.timer ≤ s.cfg.cmdWcet
  wdt_le : s.run = true →
    s.wdtCnt ≤ s.timer + (if s.tickPending then tickPeriod s.cfg s.tmode else 0)

/-- The levels of the pins of the two serial ports between events, and of `WDT_RESET`, whose pulse the model
keeps in the trace alone (`spec/10_state.md` R36; log entry 17). -/
def State.pinsIdle (s : State) : Prop :=
  s.out.soClk = false ∧ s.out.soData = false ∧ s.out.soLatch = false ∧ s.out.siClk = false
  ∧ s.out.siLoadN = true ∧ s.out.wdtReset = false

/-! ### Runs -/

/-- An unending run: every state is the step of the one before. -/
def IsRun (r : Nat → State) : Prop := ∀ n, step (r n) = .next (r (n + 1))

/-- `spec/44_scheduler.md` R182: "while `RUN = 1`, a TICK eventually happens; while `TMODE_SYNC != TMODE`, a
TMODE_CHANGE eventually happens".  It binds the environment's draws; a claim that something eventually
happens takes it as a hypothesis (log entry 28). -/
def WeaklyFair (r : Nat → State) : Prop :=
  (∀ n, (∀ m, n ≤ m → (r m).run = true) → ∃ m, n ≤ m ∧ (r m).nextEvent = .tick)
  ∧ (∀ n, (∀ m, n ≤ m → (r m).tmodeSync ≠ (r m).tmode) → ∃ m, n ≤ m ∧ (r m).nextEvent = .tmodeChange)

/-! ### The LED chain -/

/-- The output shift-register chain of the environment (`spec/43_pwm_driver.md` R150, R159): a rising
clock shifts the data bit in, a rising latch copies the chain to its outputs.  It is no state of the block
(`spec/10_state.md` R46). -/
structure LedChain where
  data : Bool
  clk : Bool
  latch : Bool
  stages : Frame
  outputs : Frame
  deriving DecidableEq, Repr

/-- The chain after one pin write. -/
def LedChain.see (c : LedChain) : PinWrite → LedChain
  | .soData b => { c with data := b }
  | .soClk b =>
    if b && !c.clk then
      { c with clk := b, stages := (c.stages <<< 1) ||| (BitVec.ofBool c.data).setWidth 16 }
    else { c with clk := b }
  | .soLatch b =>
    if b && !c.latch then { c with latch := b, outputs := c.stages } else { c with latch := b }
  | .soOeN _ => c
  | .siClk _ => c
  | .siLoadN _ => c

/-- The chain after a sequence of pin writes. -/
def LedChain.seeAll (c : LedChain) (ws : List PinWrite) : LedChain := ws.foldl LedChain.see c

/-! ### Runs of samples -/

/-- The state after a run of samples is validated one after another. -/
def validateAll : List Frame → State → State
  | [], s => s
  | f :: fs, s => validateAll fs (validate f s)

/-- The masks accepted in a run of samples, in order (`spec/41_validator.md` R115). -/
def acceptedMasks : List Frame → State → List Byte
  | [], _ => []
  | f :: fs, s =>
    match acceptedColumn f s with
    | some _ => colMask f :: acceptedMasks fs (validate f s)
    | none => acceptedMasks fs (validate f s)

/-- `n` updates of one counter by a step, all rising or all falling (`spec/42_integrator.md` R142). -/
def updates (rowOff : Bool) (step : Frame) : Nat → Frame → Frame
  | 0, v => v
  | n + 1, v => updates rowOff step n (integrateLane rowOff v step)

/-- `n` ticks' worth of ADVANCE. -/
def advances : Nat → State → State
  | 0, s => s
  | n + 1, s => advances n (advance s)

end Sys2Proof.Machine
end

