-- ==== Sys2Proof/Certificates/Slice0/Obligations.lean ====
section
/-! DEFINITION. The statements for the provers. -/

open Sys2Proof Sys2Proof.Machine

/-! ### Encoding -/

/-- `spec/30_encoding.md` R77, R79 to R81: no bit of a command's encoding is dropped. -/
def Obligations.DecodeUndoesEncode : Prop :=
  ∀ i : Instr, i.wellFormed = true → decode (encode i) = .ok i

/-- R81: the decoder matches on `OPC` alone, and takes only the fields a command uses. -/
def Obligations.DecodeFollowsTheOpcodeMap : Prop :=
  ∀ w : Word,
    (w.extractLsb' 24 8 = 0x00 → decode w = .ok .nop)
    ∧ (w.extractLsb' 24 8 = 0x01 → decode w = .ok .stop)
    ∧ (w.extractLsb' 24 8 = 0x02 → decode w = .ok .start)
    ∧ (w.extractLsb' 24 8 = 0x03 → decode w = .ok .rdStatus)
    ∧ (w.extractLsb' 24 8 = 0x04 → decode w = .ok (.clrStatus (w.extractLsb' 0 16)))
    ∧ (w.extractLsb' 24 8 = 0x10 →
        decode w = .ok (.wrGlowcode (w.extractLsb' 16 8).toNat (w.extractLsb' 0 8)))
    ∧ (w.extractLsb' 24 8 = 0x11 →
        decode w = .ok (.wrBrightcode (w.extractLsb' 16 8).toNat (w.extractLsb' 0 8)))
    ∧ (w.extractLsb' 24 8 = 0x12 → decode w = .ok (.rdGlowcode (w.extractLsb' 16 8).toNat))
    ∧ (w.extractLsb' 24 8 = 0x13 → decode w = .ok (.rdBrightcode (w.extractLsb' 16 8).toNat))
    ∧ (w.extractLsb' 24 8 = 0x14 → decode w = .ok .apply)
    ∧ (w.extractLsb' 24 8 = 0x15 → decode w = .ok (.rdStep (w.extractLsb' 16 8).toNat))
    ∧ (w.extractLsb' 24 8 = 0x16 → decode w = .ok (.rdMaxsub (w.extractLsb' 16 8).toNat))
    ∧ (w.extractLsb' 24 8 = 0x20 → decode w = .ok (.rdLamp (w.extractLsb' 16 8).toNat))
    ∧ (w.extractLsb' 24 8 = 0x21 → decode w = .ok (.rdDiag (w.extractLsb' 16 8).toNat))
    ∧ (w.extractLsb' 24 8 = 0x22 → decode w = .ok (.clrDiag (w.extractLsb' 0 16)))

/-- R82, R207: the 241 undefined opcodes, and what executing such a word does. -/
def Obligations.UndefinedOpcodesAreRefused : Prop :=
  ((List.range 256).filter fun n =>
    (decide (0x05 ≤ n) && decide (n ≤ 0x0F)) || (decide (0x17 ≤ n) && decide (n ≤ 0x1F))
      || decide (0x23 ≤ n)).length = 241
  ∧ ∀ (w : Word) (n : Nat), n = (w.extractLsb' 24 8).toNat →
    ((0x05 ≤ n ∧ n ≤ 0x0F) ∨ (0x17 ≤ n ∧ n ≤ 0x1F) ∨ 0x23 ≤ n) →
    decode w = .error (.undefinedOpcode (w.extractLsb' 24 8))
    ∧ ∀ s : State, ∃ t, execWord w s = .next t ∧ s.illegalRefused t

/-- Words written out from the encodings of R79 (`spec/95_test_vectors.md` 2.2). -/
def Obligations.DecodesWordsWrittenOut : Prop :=
  decode 0x00FFFFFF#32 = .ok .nop
  ∧ decode 0x0400FFFF#32 = .ok (.clrStatus 0xFFFF)
  ∧ decode 0x1000FF05#32 = .ok (.wrGlowcode 0 5)
  ∧ decode 0x113F0007#32 = .ok (.wrBrightcode 63 7)
  ∧ decode 0x12FF0000#32 = .ok (.rdGlowcode 255)
  ∧ decode 0x14000000#32 = .ok .apply
  ∧ decode 0x2107FFFF#32 = .ok (.rdDiag 7)
  ∧ decode 0x22000007#32 = .ok (.clrDiag 7)

/-! ### Host commands -/

/-- R192: NOP. -/
def Obligations.NopChangesNothingElse : Prop :=
  (∀ w : Word, w.extractLsb' 24 8 = 0x00 → decode w = .ok .nop)
  ∧ ∀ s : State, ∃ t, exec .nop s = .next t ∧ s.answered t 0 []

/-- R193: STOP; and STOP while stopped changes nothing. -/
def Obligations.StopStopsTheScheduler : Prop :=
  (∀ w : Word, w.extractLsb' 24 8 = 0x01 → decode w = .ok .stop)
  ∧ ∀ s : State, ∃ t, exec .stop s = .next t
    ∧ t.run = false ∧ t.timer = 0 ∧ t.tickPending = false ∧ t.wdtEn = false ∧ t.wdtCnt = 0
    ∧ t.out.soOeN = true
    ∧ s.adds t (if s.out.soOeN = true then [] else [.oeN true])
    ∧ s.answered t 0 [.run, .timer, .tickPending, .wdtEn, .wdtCnt, .soOeN, .trace]
    ∧ (s.run = false → s.Consistent → s.InTime → s.answered t 0 [])

/-- R194: START; while running it changes nothing.  The first tick comes a tick period after it, where the
environment draws none before (log entry 28). -/
def Obligations.StartRunsTheScheduler : Prop :=
  (∀ w : Word, w.extractLsb' 24 8 = 0x02 → decode w = .ok .start)
  ∧ ∀ s : State, ∃ t, exec .start s = .next t
    ∧ (s.run = true → s.answered t 0 [])
    ∧ (s.run = false →
        t.run = true ∧ t.timer = 0 ∧ t.tickPending = false ∧ t.wdtEn = true ∧ t.wdtCnt = 0
        ∧ t.cfgDirty = false
        ∧ (s.cfgDirty = true → ∀ i, i < 64 →
            readTable t.stepTab i = glowStep s.cfg (readTable s.glowCode i) s.tmode
            ∧ readTable t.maxsubTab i = maxSub (readTable s.brightCode i) (subCycles s.cfg s.tmode))
        ∧ (s.cfgDirty = false → t.stepTab = s.stepTab ∧ t.maxsubTab = s.maxsubTab)
        ∧ s.answered t 0 [.run, .timer, .tickPending, .wdtEn, .wdtCnt, .cfgDirty, .stepTab, .maxsubTab]
        ∧ (configValid s.cfg = true → s.phase = .idle → s.pins.tickNow = false →
            (∀ n, n < tickPeriod s.cfg s.tmode → (elapse n t).tickPending = false)
            ∧ (elapse (tickPeriod s.cfg s.tmode) t).tickPending = true))

/-- R195: RD_STATUS, field by field (`spec/10_state.md` R38, `spec/60_exceptions.md` R220). -/
def Obligations.ReadStatusReturnsEachField : Prop :=
  (Cause.none.code = 0 ∧ Cause.framing.code = 1 ∧ Cause.overrun.code = 2 ∧ Cause.busy.code = 3
    ∧ Cause.illegal.code = 4 ∧ Cause.range.code = 5 ∧ Cause.wdt.code = 6)
  ∧ (∀ w : Word, w.extractLsb' 24 8 = 0x03 → decode w = .ok .rdStatus)
  ∧ ∀ s : State, ∃ t, exec .rdStatus s = .next t
    ∧ t.rsp.getLsbD 0 = s.run
    ∧ t.rsp.getLsbD 1 = s.tmode
    ∧ t.rsp.getLsbD 2 = s.agSync
    ∧ t.rsp.getLsbD 3 = s.testSync
    ∧ t.rsp.getLsbD 4 = s.cfgDirty
    ∧ t.rsp.getLsbD 5 = !s.out.soOeN
    ∧ t.rsp.getLsbD 6 = s.rstWdt
    ∧ t.rsp.getLsbD 7 = false
    ∧ t.rsp.getLsbD 8 = s.errOverrun
    ∧ t.rsp.getLsbD 9 = s.errBusy
    ∧ t.rsp.getLsbD 10 = s.errIllegal
    ∧ t.rsp.getLsbD 11 = s.errRange
    ∧ t.rsp.extractLsb' 12 4 = s.lastEc.code
    ∧ s.answered t t.rsp []

/-- R196: CLR_STATUS. -/
def Obligations.ClearStatusClearsByMask : Prop :=
  (∀ w : Word, w.extractLsb' 24 8 = 0x04 → decode w = .ok (.clrStatus (w.extractLsb' 0 16)))
  ∧ ∀ (s : State) (mask : Frame), ∃ t, exec (.clrStatus mask) s = .next t
    ∧ t.rstWdt = (if mask.getLsbD 6 = true then false else s.rstWdt)
    ∧ t.errOverrun = (if mask.getLsbD 8 = true then false else s.errOverrun)
    ∧ t.errBusy = (if mask.getLsbD 9 = true then false else s.errBusy)
    ∧ t.errIllegal = (if mask.getLsbD 10 = true then false else s.errIllegal)
    ∧ t.errRange = (if mask.getLsbD 11 = true then false else s.errRange)
    ∧ t.lastEc = (if mask.extractLsb' 12 4 = 0 then s.lastEc else .none)
    ∧ s.answered t 0 [.rstWdt, .errOverrun, .errBusy, .errIllegal, .errRange, .lastEc]

/-- R197, R198: WR_GLOWCODE and WR_BRIGHTCODE, with their refusals. -/
def Obligations.CodeWritesStoreOneCode : Prop :=
  (∀ w : Word,
    (w.extractLsb' 24 8 = 0x10 → decode w = .ok (.wrGlowcode (w.extractLsb' 16 8).toNat (w.extractLsb' 0 8)))
    ∧ (w.extractLsb' 24 8 = 0x11 →
        decode w = .ok (.wrBrightcode (w.extractLsb' 16 8).toNat (w.extractLsb' 0 8))))
  ∧ ∀ (s : State) (idx : Nat) (code : Byte),
    (s.run = true →
      (∃ t, exec (.wrGlowcode idx code) s = .next t ∧ s.busyRefused t)
      ∧ (∃ t, exec (.wrBrightcode idx code) s = .next t ∧ s.busyRefused t))
    ∧ (s.run = false → 64 ≤ idx →
      (∃ t, exec (.wrGlowcode idx code) s = .next t ∧ s.rangeRefused t)
      ∧ (∃ t, exec (.wrBrightcode idx code) s = .next t ∧ s.rangeRefused t))
    ∧ (s.run = false → idx < 64 →
      (∃ t, exec (.wrGlowcode idx code) s = .next t
        ∧ readTable t.glowCode idx = code
        ∧ (∀ j, j ≠ idx → readTable t.glowCode j = readTable s.glowCode j)
        ∧ t.cfgDirty = true ∧ s.answered t 0 [.glowCode, .cfgDirty])
      ∧ (∃ t, exec (.wrBrightcode idx code) s = .next t
        ∧ readTable t.brightCode idx = code
        ∧ (∀ j, j ≠ idx → readTable t.brightCode j = readTable s.brightCode j)
        ∧ t.cfgDirty = true ∧ s.answered t 0 [.brightCode, .cfgDirty]))

/-- R199, R200, R202, R203: the reads of codes and derived tables, allowed while running. -/
def Obligations.ReadsReturnCodesAndTables : Prop :=
  (∀ w : Word,
    (w.extractLsb' 24 8 = 0x12 → decode w = .ok (.rdGlowcode (w.extractLsb' 16 8).toNat))
    ∧ (w.extractLsb' 24 8 = 0x13 → decode w = .ok (.rdBrightcode (w.extractLsb' 16 8).toNat))
    ∧ (w.extractLsb' 24 8 = 0x15 → decode w = .ok (.rdStep (w.extractLsb' 16 8).toNat))
    ∧ (w.extractLsb' 24 8 = 0x16 → decode w = .ok (.rdMaxsub (w.extractLsb' 16 8).toNat)))
  ∧ ∀ (s : State) (idx : Nat),
    (idx < 64 →
      (∃ t, exec (.rdGlowcode idx) s = .next t
        ∧ s.answered t ((readTable s.glowCode idx).setWidth 16) [])
      ∧ (∃ t, exec (.rdBrightcode idx) s = .next t
        ∧ s.answered t ((readTable s.brightCode idx).setWidth 16) [])
      ∧ (∃ t, exec (.rdStep idx) s = .next t ∧ s.answered t (readTable s.stepTab idx) [])
      ∧ (∃ t, exec (.rdMaxsub idx) s = .next t ∧ s.answered t (readTable s.maxsubTab idx) []))
    ∧ (64 ≤ idx →
      (∃ t, exec (.rdGlowcode idx) s = .next t ∧ s.rangeRefused t)
      ∧ (∃ t, exec (.rdBrightcode idx) s = .next t ∧ s.rangeRefused t)
      ∧ (∃ t, exec (.rdStep idx) s = .next t ∧ s.rangeRefused t)
      ∧ (∃ t, exec (.rdMaxsub idx) s = .next t ∧ s.rangeRefused t))

/-- R201, and R137: APPLY runs DERIVE. -/
def Obligations.ApplyDerivesTheTables : Prop :=
  (∀ w : Word, w.extractLsb' 24 8 = 0x14 → decode w = .ok .apply)
  ∧ ∀ s : State,
    (s.run = true → ∃ t, exec .apply s = .next t ∧ s.busyRefused t)
    ∧ (s.run = false → ∃ t, exec .apply s = .next t
      ∧ (∀ i, i < 64 →
          readTable t.stepTab i = glowStep s.cfg (readTable s.glowCode i) s.tmode
          ∧ readTable t.maxsubTab i = maxSub (readTable s.brightCode i) (subCycles s.cfg s.tmode))
      ∧ t.cfgDirty = false ∧ s.answered t 0 [.stepTab, .maxsubTab, .cfgDirty])

/-- R204: RD_LAMP, stopped only; BUSY goes before RANGE. -/
def Obligations.ReadLampOnlyWhileStopped : Prop :=
  (∀ w : Word, w.extractLsb' 24 8 = 0x20 → decode w = .ok (.rdLamp (w.extractLsb' 16 8).toNat))
  ∧ ∀ (s : State) (idx : Nat),
    (s.run = true → ∃ t, exec (.rdLamp idx) s = .next t ∧ s.busyRefused t)
    ∧ (s.run = false → 64 ≤ idx → ∃ t, exec (.rdLamp idx) s = .next t ∧ s.rangeRefused t)
    ∧ (s.run = false → idx < 64 → ∃ t, exec (.rdLamp idx) s = .next t
        ∧ s.answered t (readTable s.matrix idx) [])

/-- R205: RD_DIAG, view by view. -/
def Obligations.ReadDiagReturnsEachView : Prop :=
  (∀ w : Word, w.extractLsb' 24 8 = 0x21 → decode w = .ok (.rdDiag (w.extractLsb' 16 8).toNat))
  ∧ ∀ s : State,
    (∃ t, exec (.rdDiag 0) s = .next t ∧ s.answered t (if s.cfg.hasDiag = true then s.badframeCnt else 0) [])
    ∧ (∃ t, exec (.rdDiag 1) s = .next t ∧ s.answered t s.overrunCnt [])
    ∧ (∃ t, exec (.rdDiag 2) s = .next t ∧ s.answered t (if s.cfg.hasDiag = true then s.durMax else 0) [])
    ∧ (∃ t, exec (.rdDiag 3) s = .next t ∧ s.answered t s.rawPrev [])
    ∧ (∃ t, exec (.rdDiag 4) s = .next t ∧ s.answered t t.rsp []
        ∧ t.rsp.extractLsb' 8 8 = s.cons ∧ t.rsp.extractLsb' 0 8 = s.lastAcc)
    ∧ (∃ t, exec (.rdDiag 5) s = .next t ∧ s.answered t t.rsp []
        ∧ t.rsp.extractLsb' 8 8 = s.subIdx ∧ (t.rsp.extractLsb' 0 8).toNat = s.tickCol.toNat)
    ∧ (∃ t, exec (.rdDiag 6) s = .next t ∧ s.answered t s.lastOut [])
    ∧ (∃ t, exec (.rdDiag 7) s = .next t ∧ s.answered t t.rsp []
        ∧ t.rsp.toNat =
          (if onehot8 (s.rawPrev.extractLsb' 8 8) = true ∧ s.rawPrev.extractLsb' 8 8 = s.lastAcc then 2
           else if s.cons = 0 then 0 else 1))
    ∧ (∀ idx, 8 ≤ idx → ∃ t, exec (.rdDiag idx) s = .next t ∧ s.rangeRefused t)

/-- R206: CLR_DIAG. -/
def Obligations.ClearDiagClearsByMask : Prop :=
  (∀ w : Word, w.extractLsb' 24 8 = 0x22 → decode w = .ok (.clrDiag (w.extractLsb' 0 16)))
  ∧ ∀ (s : State) (mask : Frame), ∃ t, exec (.clrDiag mask) s = .next t
    ∧ t.badframeCnt = (if mask.getLsbD 0 = true ∧ s.cfg.hasDiag = true then 0 else s.badframeCnt)
    ∧ t.overrunCnt = (if mask.getLsbD 1 = true then 0 else s.overrunCnt)
    ∧ t.durMax = (if mask.getLsbD 2 = true ∧ s.cfg.hasDiag = true then 0 else s.durMax)
    ∧ s.answered t 0 [.badframeCnt, .overrunCnt, .durMax]

/-- R191: the checks on a command word, in their order. -/
def Obligations.ChecksGoIllegalThenBusyThenRange : Prop :=
  ∀ (w : Word) (s : State) (opc idx : Nat),
    opc = (w.extractLsb' 24 8).toNat → idx = (w.extractLsb' 16 8).toNat →
    ∃ t, execWord w s = .next t ∧
      (if opc ∉ [0x00, 0x01, 0x02, 0x03, 0x04, 0x10, 0x11, 0x12, 0x13, 0x14, 0x15, 0x16, 0x20, 0x21, 0x22]
       then s.illegalRefused t
       else if opc ∈ [0x10, 0x11, 0x14, 0x20] ∧ s.run = true then s.busyRefused t
       else if (opc ∈ [0x10, 0x11, 0x12, 0x13, 0x15, 0x16, 0x20] ∧ 64 ≤ idx) ∨ (opc = 0x21 ∧ 8 ≤ idx)
       then s.rangeRefused t
       else t.res = .ok)

/-- `spec/60_exceptions.md` R221: what `raise Error` records, and that a sticky bit stays 1 until CLR_STATUS
clears it or a reset. -/
def Obligations.RaiseErrorRecordsTheCause : Prop :=
  (∀ s : State,
    ((raiseError .overrun s).errOverrun = true ∧ (raiseError .overrun s).lastEc = .overrun
      ∧ s.sameExcept (raiseError .overrun s) [.errOverrun, .lastEc])
    ∧ ((raiseError .busy s).errBusy = true ∧ (raiseError .busy s).lastEc = .busy
      ∧ s.sameExcept (raiseError .busy s) [.errBusy, .lastEc])
    ∧ ((raiseError .illegal s).errIllegal = true ∧ (raiseError .illegal s).lastEc = .illegal
      ∧ s.sameExcept (raiseError .illegal s) [.errIllegal, .lastEc])
    ∧ ((raiseError .range s).errRange = true ∧ (raiseError .range s).lastEc = .range
      ∧ s.sameExcept (raiseError .range s) [.errRange, .lastEc])
    ∧ raiseError .none s = s ∧ raiseError .framing s = s ∧ raiseError .wdt s = s)
  ∧ ∀ s t : State, step s = .next t →
    s.nextEvent = .reset
    ∨ (∃ new, s.adds t new ∧ .reset .wdt ∈ new)
    ∨ (s.nextEvent = .hostCmd ∧ ∃ mask, decode s.pins.cmd = .ok (.clrStatus mask)
        ∧ (s.errOverrun = true → mask.getLsbD 8 = false → t.errOverrun = true)
        ∧ (s.errBusy = true → mask.getLsbD 9 = false → t.errBusy = true)
        ∧ (s.errIllegal = true → mask.getLsbD 10 = false → t.errIllegal = true)
        ∧ (s.errRange = true → mask.getLsbD 11 = false → t.errRange = true))
    ∨ ((s.errOverrun = true → t.errOverrun = true) ∧ (s.errBusy = true → t.errBusy = true)
        ∧ (s.errIllegal = true → t.errIllegal = true) ∧ (s.errRange = true → t.errRange = true))

/-- `spec/46_external_interfaces.md` R217: a code written reads back unchanged, whatever its value. -/
def Obligations.WrittenCodesReadBack : Prop :=
  ∀ (s : State) (idx : Nat) (code : Byte), s.run = false → idx < 64 →
    (∃ t u, exec (.wrGlowcode idx code) s = .next t ∧ exec (.rdGlowcode idx) t = .next u
      ∧ u.rsp.toNat = code.toNat ∧ u.res = .ok)
    ∧ (∃ t u, exec (.wrBrightcode idx code) s = .next t ∧ exec (.rdBrightcode idx) t = .next u
      ∧ u.rsp.toNat = code.toNat ∧ u.res = .ok)

/-- `spec/20_memory.md` R57: the read commands. -/
def Obligations.ReadsAreIdempotent : Prop :=
  ∀ (i : Instr) (s : State),
    (i = .rdStatus ∨ (∃ idx, i = .rdGlowcode idx ∨ i = .rdBrightcode idx ∨ i = .rdStep idx
      ∨ i = .rdMaxsub idx ∨ i = .rdLamp idx ∨ i = .rdDiag idx)) →
    ∃ t u, exec i s = .next t ∧ exec i t = .next u
      ∧ (t.res = .ok → s.sameExcept t [.rsp, .res] ∧ u.rsp = t.rsp ∧ u.res = t.res)

/-- `spec/20_memory.md` R58 and `spec/10_state.md` R22 to R35: what no host command writes. -/
def Obligations.CommandsLeaveMatrixAndHistory : Prop :=
  ∀ (i : Instr) (s : State), ∃ t, exec i s = .next t
    ∧ t.matrix = s.matrix ∧ t.rawPrev = s.rawPrev ∧ t.lastAcc = s.lastAcc ∧ t.cons = s.cons
    ∧ t.lastOut = s.lastOut ∧ t.tickCol = s.tickCol ∧ t.subIdx = s.subIdx ∧ t.tmode = s.tmode
    ∧ t.phase = s.phase ∧ t.cfg = s.cfg
    ∧ (t.run ≠ s.run → (i = .stop ∧ t.run = false) ∨ (i = .start ∧ t.run = true))

/-! ### The integrator and the derived model -/

/-- `spec/00_scope.md` R12: `onehot8` and `index8`. -/
def Obligations.OneHotMasksHaveTheirIndex : Prop :=
  ∀ m : Byte,
    (onehot8 m = true ↔ m ∈ [0x01#8, 0x02#8, 0x04#8, 0x08#8, 0x10#8, 0x20#8, 0x40#8, 0x80#8])
    ∧ (∀ c, index8 m = some c ↔ c < 8 ∧ m = 1#8 <<< c)
    ∧ (index8 m = none ↔ onehot8 m = false)

/-- `spec/42_integrator.md` R130, R132 to R134: INTEGRATE, lane by lane. -/
def Obligations.IntegrateMovesOneColumn : Prop :=
  ∀ (s : State) (c : Nat) (rm : Byte),
    (8 ≤ c → integrate c rm s = s)
    ∧ (c < 8 →
      (∀ r, r < 8 →
        (rm.getLsbD r = false →
          (readTable (integrate c rm s).matrix (8 * c + r)).toNat
            = min 65535 ((readTable s.matrix (8 * c + r)).toNat + (readTable s.stepTab (8 * c + r)).toNat))
        ∧ (rm.getLsbD r = true →
          (readTable (integrate c rm s).matrix (8 * c + r)).toNat
            = (readTable s.matrix (8 * c + r)).toNat - (readTable s.stepTab (8 * c + r)).toNat))
      ∧ (∀ i, i / 8 ≠ c → readTable (integrate c rm s).matrix i = readTable s.matrix i)
      ∧ s.sameExcept (integrate c rm s) [.matrix, .phase, .trace])

/-- R142: the saturation bound, and that a counter never wraps. -/
def Obligations.CountersSaturateAndStay : Prop :=
  ∀ (step v : Frame), 1 ≤ step.toNat →
    (∀ n, (65535 + step.toNat - 1) / step.toNat ≤ n →
      updates false step n v = 65535 ∧ updates true step n v = 0)
    ∧ v.toNat ≤ (integrateLane false v step).toNat
    ∧ (integrateLane true v step).toNat ≤ v.toNat

/-- R143: idempotence at saturation. -/
def Obligations.SaturatedLampsStay : Prop :=
  ∀ (s : State) (c r : Nat) (rm : Byte), c < 8 → r < 8 →
    (readTable s.matrix (8 * c + r) = 65535 ∧ rm.getLsbD r = false)
      ∨ (readTable s.matrix (8 * c + r) = 0 ∧ rm.getLsbD r = true) →
    readTable (integrate c rm s).matrix (8 * c + r) = readTable s.matrix (8 * c + r)

/-- R138, R139: the glow step; it rounds up, so that `scans` updates always traverse the range. -/
def Obligations.GlowStepTraversesInItsScans : Prop :=
  ∀ (c : Config) (g : Byte) (m : Bool) (scans : Nat),
    scans = g.toNat * (if m = true then c.scanNum1 else c.scanNum0)
      / (if m = true then c.scanDen1 else c.scanDen0) →
    (scans = 0 → (glowStep c g m).toNat = 65535)
    ∧ (scans ≠ 0 → (glowStep c g m).toNat = (65535 + scans - 1) / scans)
    ∧ 1 ≤ (glowStep c g m).toNat
    ∧ (1 ≤ scans → ∀ v, updates false (glowStep c g m) scans v = 65535
        ∧ updates true (glowStep c g m) scans v = 0)

/-- R144: scans to traverse. -/
def Obligations.TraverseTakesExactlyItsScans : Prop :=
  ∀ (c : Config) (g : Byte) (m : Bool), 1 ≤ scansFor c g m →
    (scansFor c g m ≤ 256 → (scansFor c g m - 1) * (glowStep c g m).toNat < 65535)
    ∧ ((scansFor c g m - 1) * (glowStep c g m).toNat < 65535 →
        updates false (glowStep c g m) (scansFor c g m) 0 = 65535
        ∧ ∀ n, n < scansFor c g m → updates false (glowStep c g m) n 0 ≠ 65535)
    ∧ (updates false (glowStep c g m) ((65535 + (glowStep c g m).toNat - 1) / (glowStep c g m).toNat) 0 = 65535
        ∧ ∀ n, n < (65535 + (glowStep c g m).toNat - 1) / (glowStep c g m).toNat →
          updates false (glowStep c g m) n 0 ≠ 65535)

/-- R140: the maximum sub-cycle; code 7 and above never limit. -/
def Obligations.MaxSubFollowsTheCode : Prop :=
  ∀ (b : Byte) (n : Nat), 1 ≤ n → n ≤ 256 →
    ((b.toNat + 1) * n < 8 → (maxSub b n).toNat = 0)
    ∧ (8 ≤ (b.toNat + 1) * n → (maxSub b n).toNat = (b.toNat + 1) * n / 8 - 1)
    ∧ (b.toNat = 7 → (maxSub b n).toNat = n - 1)
    ∧ (7 ≤ b.toNat → n - 1 ≤ (maxSub b n).toNat)
    ∧ (b.toNat < 8 → (maxSub b n).toNat + 1 = max 1 ((b.toNat + 1) * n / 8))
    ∧ (maxSub b n).toNat ≤ 8191

/-! ### The output driver -/

/-- `spec/43_pwm_driver.md` R158, R154: the PWM window, the visits a lamp is lit in, and their count. -/
def Obligations.WindowLightsALampItsCount : Prop :=
  ∀ (s : State) (n c : Nat) (v m : Frame),
    n = subCycles s.cfg s.tmode → 1 ≤ n → n ≤ 256 → c < 8 → s.tickCol = 0 → s.subIdx = 0 →
    (∀ k, k < n → (advances (8 * k + c) s).tickCol.toNat = c ∧ (advances (8 * k + c) s).subIdx.toNat = k)
    ∧ ((advances (8 * n) s).tickCol = 0 ∧ (advances (8 * n) s).subIdx = 0)
    ∧ (∀ k, k < n → (lampOn n v m (advances (8 * k + c) s).subIdx.toNat = true
        ↔ v ≠ 0 ∧ k ≤ min (v.toNat / (65536 / n)) m.toNat))
    ∧ ((List.range (8 * n)).filter fun k =>
        (advances k s).tickCol.toNat == c && lampOn n v m (advances k s).subIdx.toNat).length
      = (if v = 0 then 0 else min (min (v.toNat / (65536 / n)) m.toNat) (n - 1) + 1)

/-- R153, R156: the frame AGFRAME emits, bit by bit. -/
def Obligations.AfterglowFrameShowsOneColumn : Prop :=
  ∀ s : State,
    (∀ b, b < 8 → (afterglowFrame s).getLsbD (8 + b) = decide (b = s.tickCol.toNat))
    ∧ (∀ r, r < 8 → (afterglowFrame s).getLsbD r =
        xor (lampOn (subCycles s.cfg s.tmode)
              (readTable s.matrix (8 * s.tickCol.toNat + r)) (readTable s.maxsubTab (8 * s.tickCol.toNat + r))
              s.subIdx.toNat)
          s.cfg.outRowActiveLow)
    ∧ (∃ new, s.adds (agframe s) new ∧ framesOf new = [afterglowFrame s])
    ∧ (agframe s).lastOut = afterglowFrame s
    ∧ (agframe s).out.soOeN = false
    ∧ s.sameExcept (agframe s) [.phase, .trace, .lastOut, .soOeN, .soClk, .soData, .soLatch]

/-- R150: the pin sequence of `Emit`. -/
def Obligations.EmitShiftsLatchesEnables : Prop :=
  ∀ (f : Frame) (s : State),
    (emitWrites f).length = 52
    ∧ (∀ k, k < 16 → (emitWrites f)[3 * k]? = some (.soData (f.getLsbD (15 - k)))
        ∧ (emitWrites f)[3 * k + 1]? = some (.soClk true)
        ∧ (emitWrites f)[3 * k + 2]? = some (.soClk false))
    ∧ (emitWrites f).drop 48 = [.soData false, .soLatch true, .soLatch false, .soOeN false]
    ∧ (emit f s).out = s.out.writes (emitWrites f)
    ∧ (emit f s).out.soClk = false ∧ (emit f s).out.soData = false ∧ (emit f s).out.soLatch = false
    ∧ (emit f s).out.soOeN = false
    ∧ (emit f s).lastOut = f
    ∧ s.adds (emit f s) ((if s.out.soOeN = true then [.oeN false] else []) ++ [.emit f])
    ∧ s.sameExcept (emit f s) [.soClk, .soData, .soLatch, .soOeN, .lastOut, .trace]

/-- R159: in every prefix of an emission the chain shows the frame it showed before or the whole new
one, at the end the new one, and the output enable falls only once it does. -/
def Obligations.NoPartialFrameIsVisible : Prop :=
  ∀ (c : LedChain) (f : Frame) (k : Nat) (o : OutPins), c.clk = false → c.latch = false →
    ((c.seeAll ((emitWrites f).take k)).outputs = c.outputs
      ∨ (c.seeAll ((emitWrites f).take k)).outputs = f)
    ∧ (c.seeAll (emitWrites f)).outputs = f
    ∧ (o.soOeN = true → (o.writes ((emitWrites f).take k)).soOeN = false →
        (c.seeAll ((emitWrites f).take k)).outputs = f)

/-- R151, R152, R157: the two behaviours of the driver. -/
def Obligations.DriveFollowsTheLatchedMode : Prop :=
  ∀ s : State, ∃ new, s.adds (drive s) new
    ∧ s.sameExcept (drive s) [.phase, .trace, .lastOut, .soOeN, .soClk, .soData, .soLatch]
    ∧ (s.agT = true →
        phasesOf new = [.blank, .drive] ∧ framesOf new = [0x0000, afterglowFrame s]
        ∧ (drive s).lastOut = afterglowFrame s ∧ (drive s).out.soOeN = false)
    ∧ (s.agT = false → (s.rawPrev ≠ s.lastOut ∨ s.out.soOeN = true) →
        phasesOf new = [.drive] ∧ framesOf new = [s.rawPrev]
        ∧ (drive s).lastOut = s.rawPrev ∧ (drive s).out.soOeN = false)
    ∧ (s.agT = false → s.rawPrev = s.lastOut → s.out.soOeN = false →
        phasesOf new = [.drive] ∧ framesOf new = []
        ∧ (drive s).lastOut = s.lastOut ∧ (drive s).out = s.out)

/-! ### The sampler and the validator -/

/-- `spec/40_sampler.md` R101, R102: the shift-in transaction reads all sixteen bits, most significant
first.  That it returns the lines whole rests on 93 G1 (general knowledge, not the source): the chain
presents its first bit right after the load pulse (log entry 26). -/
def Obligations.ShiftInReturnsTheLines : Prop :=
  (∀ v : Frame, shiftInValue v = v)
  ∧ shiftInWrites.length = 34
  ∧ shiftInWrites.take 2 = [.siLoadN false, .siLoadN true]
  ∧ (∀ k, k < 16 → shiftInWrites[2 + 2 * k]? = some (.siClk true)
      ∧ shiftInWrites[3 + 2 * k]? = some (.siClk false))
  ∧ ∀ s : State, (shiftIn s).out.siLoadN = true ∧ (shiftIn s).out.siClk = false
      ∧ (shiftIn s).out = s.out.writes shiftInWrites
      ∧ s.sameExcept (shiftIn s) [.siLoadN, .siClk, .trace]

/-- R100, R103, R105: SAMPLE and the test-mode substitution. -/
def Obligations.SampleTakesLinesOrTestSource : Prop :=
  ∀ s : State, ∃ new, s.adds (sample s) new
    ∧ (s.testT = false → sampleValue s = s.pins.siLines ∧ shiftsOf new = [s.pins.siLines]
        ∧ s.sameExcept (sample s) [.phase, .trace, .siLoadN, .siClk])
    ∧ (s.testT = true → sampleValue s = s.pins.tsrcFrame ∧ shiftsOf new = []
        ∧ s.sameExcept (sample s) [.phase, .trace])

/-- `spec/41_validator.md` R110, R112 to R116, R118: VALIDATE. -/
def Obligations.ValidateAcceptsOrDrops : Prop :=
  ∀ (s : State) (f : Frame) (cm rm : Byte),
    configValid s.cfg = true → cm = f.extractLsb' 8 8 → rm = f.extractLsb' 0 8 →
    (validate f s).rawPrev = f
    ∧ (validate f s).cons.toNat = (if f = s.rawPrev then min s.cfg.consMax (s.cons.toNat + 1) else 0)
    ∧ (validate f s).badframeCnt.toNat =
        (if onehot8 cm = false ∧ s.cfg.hasDiag = true then min 65535 (s.badframeCnt.toNat + 1)
         else s.badframeCnt.toNat)
    ∧ (if onehot8 cm = true ∧ cm ≠ s.lastAcc ∧ s.cfg.consThreshold ≤ (validate f s).cons.toNat then
        (validate f s).lastAcc = cm
        ∧ ∃ c, c < 8 ∧ cm = 1#8 <<< c ∧ (validate f s).matrix = (integrate c rm s).matrix
       else (validate f s).lastAcc = s.lastAcc ∧ (validate f s).matrix = s.matrix)
    ∧ s.sameExcept (validate f s) [.rawPrev, .cons, .badframeCnt, .lastAcc, .matrix, .phase, .trace]

/-- R119: between two acceptances of one mask another mask is accepted. -/
def Obligations.NoMaskIsAcceptedTwiceRunning : Prop :=
  ∀ (fs : List Frame) (s : State),
    (∀ a, (acceptedMasks fs s)[0]? = some a → a ≠ s.lastAcc)
    ∧ ∀ k a b, (acceptedMasks fs s)[k]? = some a → (acceptedMasks fs s)[k + 1]? = some b → a ≠ b

/-- R120, R121: a new sample is accepted at exactly its `CONS_THRESHOLD + 1`st tick in a row, if its mask
is one-hot and not the last accepted one, and never before. -/
def Obligations.NewSamplesAreAcceptedAtTheThreshold : Prop :=
  ∀ (s : State) (f : Frame), configValid s.cfg = true → f ≠ s.rawPrev →
    (∀ k, k < s.cfg.consThreshold →
      acceptedColumn f (validateAll (List.replicate k f) s) = none)
    ∧ (onehot8 (f.extractLsb' 8 8) = true → f.extractLsb' 8 8 ≠ s.lastAcc →
        ∃ c, c < 8 ∧ f.extractLsb' 8 8 = 1#8 <<< c
          ∧ acceptedColumn f (validateAll (List.replicate s.cfg.consThreshold f) s) = some c)

/-! ### The scheduler -/

/-- `spec/44_scheduler.md` R175: ADVANCE. -/
def Obligations.AdvanceMovesTheTickCounter : Prop :=
  ∀ s : State, configValid s.cfg = true →
    (s.tickCol = 7 → (advance s).tickCol = 0
      ∧ (advance s).subIdx.toNat = (s.subIdx.toNat + 1) % (if s.tmode = true then s.cfg.n1 else s.cfg.n0))
    ∧ (s.tickCol ≠ 7 → (advance s).tickCol.toNat = s.tickCol.toNat + 1 ∧ (advance s).subIdx = s.subIdx)
    ∧ s.sameExcept (advance s) [.tickCol, .subIdx, .phase, .trace]

/-- `spec/10_state.md` R25: the two registers stand for an unbounded tick count. -/
def Obligations.TickCounterCountsTicks : Prop :=
  ∀ (s : State) (n : Nat), configValid s.cfg = true → s.tickCol = 0 → s.subIdx = 0 →
    (advances n s).tickCol.toNat = n % 8
    ∧ (advances n s).subIdx.toNat = (n / 8) % subCycles s.cfg s.tmode

/-- R174, with `spec/30_encoding.md` R85: the phases of a tick, in their order. -/
def Obligations.TickRunsItsPhasesInOrder : Prop :=
  ∀ s : State, configValid s.cfg = true → s.Consistent → s.InTime → s.run = true → s.tickPending = true →
    ∃ new, s.adds (tick s) new
      ∧ phasesOf new = (if s.agSync = true then [.blank] else []) ++ [.drive, .sample, .validate]
          ++ (if acceptedColumn (if s.testSync = true then s.pins.tsrcFrame else s.pins.siLines) s = none
              then [] else [.integrate])
          ++ [.advance, .checkin]
      ∧ .event .tick ∈ new
      ∧ (tick s).phase = .idle ∧ (tick s).tickPending = false ∧ (tick s).wdtCnt = 0

/-- R174, `spec/20_memory.md` R62: a tick is a function of the state before it and the sample; the frame
is computed from the state before it. -/
def Obligations.TickIsAFunctionOfStateAndSample : Prop :=
  ∀ (s : State) (smp : Frame),
    configValid s.cfg = true → s.Consistent → s.InTime → s.run = true → s.tickPending = true →
    smp = (if s.testSync = true then s.pins.tsrcFrame else s.pins.siLines) →
    (tick s).matrix = (validate smp s).matrix
    ∧ (tick s).rawPrev = smp
    ∧ (tick s).cons = (validate smp s).cons
    ∧ (tick s).lastAcc = (validate smp s).lastAcc
    ∧ (tick s).badframeCnt = (validate smp s).badframeCnt
    ∧ (tick s).tickCol = (advance s).tickCol
    ∧ (tick s).subIdx = (advance s).subIdx
    ∧ (tick s).agT = s.agSync ∧ (tick s).testT = s.testSync
    ∧ (tick s).lastOut = (if s.agSync = true then afterglowFrame s
        else if s.rawPrev ≠ s.lastOut ∨ s.out.soOeN = true then s.rawPrev else s.lastOut)
    ∧ (tick s).out.soOeN = false
    ∧ (∃ new, s.adds (tick s) new
        ∧ framesOf new = (if s.agSync = true then [0x0000, afterglowFrame s]
            else if s.rawPrev ≠ s.lastOut ∨ s.out.soOeN = true then [s.rawPrev] else [])
        ∧ shiftsOf new = (if s.testSync = true then [] else [s.pins.siLines]))
    ∧ s.sameExcept (tick s)
        [.tmodeMeta, .agMeta, .testMeta, .tselMeta, .tmodeSync, .agSync, .testSync, .tselSync, .agT, .testT,
         .tickCol, .subIdx, .timer, .tickPending, .matrix, .rawPrev, .lastAcc, .cons, .lastOut,
         .soClk, .soData, .soLatch, .soOeN, .siClk, .siLoadN, .badframeCnt, .durMax, .durCur, .wdtCnt, .trace]

/-- R177: the duration measurement, for the cycles this tick takes (the draw `tickTime`, log entry 5). -/
def Obligations.TickMeasuresItsDuration : Prop :=
  ∀ (s : State) (d : Nat),
    configValid s.cfg = true → s.Consistent → s.InTime → s.run = true → s.tickPending = true →
    d = min 65535 (tickTime s) →
    tickTime s ≤ s.cfg.tickWcet
    ∧ (tick s).durCur.toNat = d
    ∧ (tick s).durMax.toNat =
        (if s.cfg.hasDiag = true ∧ d ≤ s.cfg.durOutlierLimit ∧ s.durMax.toNat < d then d else s.durMax.toNat)

/-- R178: the timing-mode change and its condition. -/
def Obligations.TimingModeChangeRestartsTheTick : Prop :=
  ∀ s : State,
    (s.nextEvent = .tmodeChange → s.tmodeSync ≠ s.tmode ∧ s.phase = .idle ∧ s.tickPending = false)
    ∧ (tmodeChange s).tmode = s.tmodeSync
    ∧ (tmodeChange s).timer = 0 ∧ (tmodeChange s).tickPending = false
    ∧ (tmodeChange s).tickCol = 0 ∧ (tmodeChange s).subIdx = 0
    ∧ (∀ i, i < 64 →
        readTable (tmodeChange s).stepTab i = glowStep s.cfg (readTable s.glowCode i) s.tmodeSync
        ∧ readTable (tmodeChange s).maxsubTab i
            = maxSub (readTable s.brightCode i) (if s.tmodeSync = true then s.cfg.n1 else s.cfg.n0))
    ∧ (tmodeChange s).cfgDirty = false
    ∧ (tmodeChange s).wdtCnt = (if s.run = true then 0 else s.wdtCnt)
    ∧ s.sameExcept (tmodeChange s)
        [.tmode, .timer, .tickPending, .tickCol, .subIdx, .stepTab, .maxsubTab, .cfgDirty, .wdtCnt, .trace]

/-- R171, R172, R24, and R179's count: one clock cycle of the tick timer, the synchronisers and the watchdog.
That a strap takes one cycle per stage is log entry 13, that a timer past its period expires at once log
entry 23, and that the environment may draw an expiry (R182) log entry 28. -/
def Obligations.TickTimerExpiresOrMisses : Prop :=
  ∀ (s : State) (period : Nat), period = (if s.tmode = true then s.cfg.tickCycles1 else s.cfg.tickCycles0) →
    (s.run = false → (clockCycle s).timer = s.timer ∧ (clockCycle s).tickPending = s.tickPending
      ∧ (clockCycle s).overrunCnt = s.overrunCnt)
    ∧ (s.run = true → s.timer + 1 < period →
        (s.pins.tickNow = false ∨ s.tickPending = true ∨ s.phase ≠ .idle) →
        (clockCycle s).timer = s.timer + 1 ∧ (clockCycle s).tickPending = s.tickPending
        ∧ (clockCycle s).overrunCnt = s.overrunCnt)
    ∧ (s.run = true → (period ≤ s.timer + 1 ∨ s.pins.tickNow = true) → s.tickPending = false →
        s.phase = .idle →
        (clockCycle s).timer = 0 ∧ (clockCycle s).tickPending = true
        ∧ (clockCycle s).overrunCnt = s.overrunCnt)
    ∧ (s.run = true → period ≤ s.timer + 1 → (s.tickPending = true ∨ s.phase ≠ .idle) →
        (clockCycle s).timer = 0 ∧ (clockCycle s).tickPending = s.tickPending
        ∧ (clockCycle s).overrunCnt.toNat = min 65535 (s.overrunCnt.toNat + 1)
        ∧ (clockCycle s).errOverrun = true ∧ (clockCycle s).lastEc = .overrun
        ∧ s.adds (clockCycle s) [.event .tickMissed])
    ∧ ((clockCycle s).tmodeMeta = s.pins.tmodeIn ∧ (clockCycle s).tmodeSync = s.tmodeMeta
      ∧ (clockCycle s).agMeta = s.pins.agIn ∧ (clockCycle s).agSync = s.agMeta
      ∧ (clockCycle s).testMeta = s.pins.testIn ∧ (clockCycle s).testSync = s.testMeta
      ∧ (clockCycle s).tselMeta = s.pins.tselIn ∧ (clockCycle s).tselSync = s.tselMeta)
    ∧ (clockCycle s).wdtCnt = (if s.wdtEn = true then s.wdtCnt + 1 else s.wdtCnt)
    ∧ (clockCycle s).durCur.toNat = (if s.phase = .idle then s.durCur.toNat else min 65535 (s.durCur.toNat + 1))
    ∧ s.sameExcept (clockCycle s)
        [.tmodeMeta, .agMeta, .testMeta, .tselMeta, .tmodeSync, .agSync, .testSync, .tselSync, .timer,
         .tickPending, .overrunCnt, .errOverrun, .lastEc, .durCur, .wdtCnt, .trace]

/-- R227: the order in which simultaneous events are taken, and that a step runs the event taken, then takes
the environment's next inputs.  R182: from a running block with no tick pending, the environment can bring a
tick next, or any command, after which a tick is no nearer, so that ticks and commands come in any order and
any number.  The drawn fault is log entry 10, the passing of a cycle log entry 4, `inReset` log entry 15, a
phase that is not idle log entry 18, the next inputs log entry 9, the drawn moments log entry 28,
and that a presented command waits behind an expiry or a mode change with `CMD_READY` at 1 log entry 29. -/
def Obligations.EventsAreTakenByPriority : Prop :=
  (∀ s : State,
    (s.pins.resetN = false ∨ s.inReset = true → s.nextEvent = .reset)
    ∧ (s.pins.resetN = true → s.inReset = false →
        (s.wdtEn = true → (s.cfg.wdtCycles ≤ s.wdtCnt ∨ s.pins.wdtFault = true) → s.nextEvent = .wdtExpire)
        ∧ (¬ (s.wdtEn = true ∧ (s.cfg.wdtCycles ≤ s.wdtCnt ∨ s.pins.wdtFault = true)) →
            (s.phase ≠ .idle → s.nextEvent = .clock)
            ∧ (s.phase = .idle → s.run = true → s.tickPending = true → s.nextEvent = .tick)
            ∧ (s.phase = .idle → s.tickPending = false → s.tmodeSync ≠ s.tmode → s.pins.tmodeLater = false →
                s.nextEvent = .tmodeChange)
            ∧ (s.phase = .idle → s.tickPending = false →
                (s.tmodeSync = s.tmode ∨ s.pins.tmodeLater = true) →
                s.nextEvent = (if s.pins.cmdValid = true then .hostCmd else .clock))))
    ∧ (configValid s.cfg = true →
        (s.nextEvent = .reset → step s = .next (nextInputs (resetEvent s)))
        ∧ (s.nextEvent = .wdtExpire → step s = .next (nextInputs (wdtExpire s)))
        ∧ (s.nextEvent = .tick → step s = .next (nextInputs (tick s)))
        ∧ (s.nextEvent = .tmodeChange → step s = .next (nextInputs (tmodeChange s)))
        ∧ (s.nextEvent = .clock → step s = .next (nextInputs (clockCycle s))))
    ∧ (s.agenda = [] → nextInputs s = s)
    ∧ (∀ p rest, s.agenda = p :: rest → nextInputs s = { s with pins := p, agenda := rest }))
  ∧ ∀ (s : State) (p : Inputs), configValid s.cfg = true → s.Consistent → s.InTime → s.run = true →
    s.tickPending = false → s.inReset = false → s.agenda = [] →
    p.resetN = true → p.wdtFault = false → p.tmodeLater = true →
    (p.cmdValid = false → p.tickNow = true →
      ∃ t, step { s with pins := p } = .next t ∧ t.nextEvent = .tick ∧ t.trace = s.trace)
    ∧ (p.cmdValid = true → p.cmdCycles = 0 →
      ({ s with pins := p } : State).nextEvent = .hostCmd
      ∧ ∃ t, step { s with pins := p } = .next t
        ∧ (t.run = true → t.tickPending = false ∧ t.timer = s.timer ∧ t.wdtCnt = s.wdtCnt))

/-! ### Reset and configuration -/

/-- `spec/10_state.md` R48, `spec/70_reset_and_hazards.md` R241: every register after either reset. -/
def Obligations.ResetSetsEveryRegister : Prop :=
  ∀ (s t : State) (cause : ResetCause), t = resetAction cause s →
    (∀ i, i < 64 → readTable t.matrix i = 0
      ∧ readTable t.glowCode i = s.cfg.defaultGlowCode ∧ readTable t.brightCode i = s.cfg.defaultBrightCode
      ∧ readTable t.stepTab i = glowStep s.cfg s.cfg.defaultGlowCode s.pins.tmodeIn
      ∧ readTable t.maxsubTab i
          = maxSub s.cfg.defaultBrightCode (if s.pins.tmodeIn = true then s.cfg.n1 else s.cfg.n0))
    ∧ t.run = false ∧ t.phase = .idle ∧ t.tmode = s.pins.tmodeIn
    ∧ t.tmodeSync = s.pins.tmodeIn ∧ t.agSync = s.pins.agIn ∧ t.testSync = s.pins.testIn
    ∧ t.tselSync = s.pins.tselIn
    ∧ t.tickCol = 0 ∧ t.subIdx = 0 ∧ t.timer = 0 ∧ t.tickPending = false ∧ t.cfgDirty = false
    ∧ t.rawPrev = 0 ∧ t.lastAcc = 0 ∧ t.cons = 0 ∧ t.lastOut = 0
    ∧ t.out.soClk = false ∧ t.out.soData = false ∧ t.out.soLatch = false ∧ t.out.soOeN = true
    ∧ t.out.siClk = false ∧ t.out.siLoadN = true ∧ t.out.wdtReset = false
    ∧ t.errOverrun = false ∧ t.errBusy = false ∧ t.errIllegal = false ∧ t.errRange = false
    ∧ (cause = .wdt → t.rstWdt = true ∧ t.lastEc = .wdt)
    ∧ (cause = .pin → t.rstWdt = false ∧ t.lastEc = .none)
    ∧ t.badframeCnt = 0 ∧ t.overrunCnt = 0 ∧ t.durMax = 0 ∧ t.durCur = 0
    ∧ t.wdtEn = false ∧ t.wdtCnt = 0
    ∧ (s.pins.resetN = true → t.cmdReady = true) ∧ t.rsp = 0 ∧ t.res = .ok
    ∧ t.cfg = s.cfg ∧ t.pins = s.pins

/-- `spec/44_scheduler.md` R180: a watchdog expiry resets everything, pulses `WDT_RESET`, and leaves its
cause; it cannot occur while `WDT_EN = 0`. -/
def Obligations.WatchdogExpiryResetsTheBlock : Prop :=
  ∀ s : State,
    (s.nextEvent = .wdtExpire → s.wdtEn = true)
    ∧ (wdtExpire s).rstWdt = true ∧ (wdtExpire s).lastEc = .wdt
    ∧ (resetAction .pin s).sameExcept (wdtExpire s) [.rstWdt, .lastEc, .trace]
    ∧ s.adds (wdtExpire s) ([.wdtReset false] ++ (if s.out.soOeN = true then [] else [.oeN true])
        ++ [.reset .wdt, .wdtReset true, .event .wdtExpire])

/-- `spec/70_reset_and_hazards.md` R240, R242: while `RESET_N` is low every register holds its reset value
and no command is taken; the reset completes in the cycle it returns to 1, and the block is then stopped
and ready.  That the model carries one bit for it is log entry 15. -/
def Obligations.ResetPinHoldsTheBlock : Prop :=
  ∀ s : State,
    (s.pins.resetN = false ∨ s.inReset = true → s.nextEvent = .reset)
    ∧ (State.afterReset s.cfg .pin s.pins).sameExcept (resetEvent s) [.inReset, .agenda, .trace]
    ∧ (resetEvent s).agenda = s.agenda
    ∧ (s.pins.resetN = false → (resetEvent s).inReset = true ∧ (resetEvent s).cmdReady = false)
    ∧ (s.pins.resetN = true → (resetEvent s).inReset = false ∧ (resetEvent s).cmdReady = true)

/-- `spec/00_scope.md` R8: the constraints, and that a configuration that breaks one is refused. -/
def Obligations.BrokenConfigurationsAreRefused : Prop :=
  (∀ c : Config, configValid c = true ↔
    (1 ≤ c.n0 ∧ c.n0 ≤ 256 ∧ 1 ≤ c.n1 ∧ c.n1 ≤ 256
      ∧ 1 ≤ c.scanDen0 ∧ 1 ≤ c.scanDen1 ∧ 1 ≤ c.scanNum0 ∧ 1 ≤ c.scanNum1
      ∧ 1 ≤ c.consThreshold ∧ c.consThreshold ≤ c.consMax ∧ c.consMax ≤ 255
      ∧ c.tickWcet + c.cmdWcet < c.tickCycles0 ∧ c.tickWcet + c.cmdWcet < c.tickCycles1
      ∧ max c.tickCycles0 c.tickCycles1 + c.tickWcet + c.cmdWcet < c.wdtCycles))
  ∧ ∀ s : State, (configValid s.cfg = false → step s = .refused .configurationBreaksR8)
      ∧ (configValid s.cfg = true → ∃ t, step s = .next t)

/-! ### The step -/

/-- A step runs the word the host presents: it is `execWord` of the word, which is `exec i` where the word
decodes to `i` and the ILLEGAL answer of R207 where it decodes to none, at the state after the command's
cycles (log entry 6), then the trace entry of the command and the environment's next inputs.  That the taken
command leaves `CMD_VALID` lowered is log entry 9. -/
def Obligations.StepRunsTheDecodedCommand : Prop :=
  ∀ s : State, configValid s.cfg = true → s.nextEvent = .hostCmd → wdtDue (commandState s) = false →
    (∃ t, execWord s.pins.cmd (commandState s) = .next t
      ∧ step s = .next (nextInputs (logCommand s.pins.cmd t)))
    ∧ (∀ i, decode s.pins.cmd = .ok i →
        execWord s.pins.cmd (commandState s) = exec i (commandState s))
    ∧ (∀ r, decode s.pins.cmd = .error r →
        ∃ t, execWord s.pins.cmd (commandState s) = .next t ∧ (commandState s).illegalRefused t)
    ∧ (commandState s).pins = { s.pins with cmdValid := false }
    ∧ s.sameExcept (commandState s)
        [.tmodeMeta, .agMeta, .testMeta, .tselMeta, .tmodeSync, .agSync, .testSync, .tselSync, .timer,
         .tickPending, .overrunCnt, .errOverrun, .lastEc, .durCur, .wdtCnt, .pins, .trace]

/-- The word placed by `withFetchWord` is the command the very next step runs (log entry 16). -/
def Obligations.FetchWordIsRunNext : Prop :=
  ∀ (s : State) (w : Nat) (i : Instr), configValid s.cfg = true → s.wdtEn = s.run → w < 2 ^ 32 →
    decode (BitVec.ofNat 32 w) = .ok i →
    ∃ t, exec i (commandState (s.withFetchWord 32 w)) = .next t
      ∧ step (s.withFetchWord 32 w) = .next (nextInputs (logCommand (BitVec.ofNat 32 w) t))

/-- `spec/10_state.md` R22, `spec/45_host_commands.md` R209: only STOP, START and reset change `RUN`, and no
tick starts while stopped. -/
def Obligations.OnlyStopStartAndResetChangeRun : Prop :=
  ∀ s t : State, step s = .next t →
    (s.nextEvent = .tick → s.run = true)
    ∧ (t.run ≠ s.run →
        s.nextEvent = .reset
        ∨ (∃ new, s.adds t new ∧ .reset .wdt ∈ new)
        ∨ (s.nextEvent = .hostCmd ∧ decode s.pins.cmd = .ok .stop ∧ t.run = false)
        ∨ (s.nextEvent = .hostCmd ∧ decode s.pins.cmd = .ok .start ∧ t.run = true))

/-- `spec/20_memory.md` R58: each table is written only by its owner, resets apart. -/
def Obligations.TablesAreWrittenOnlyByTheirOwners : Prop :=
  ∀ s t : State, step s = .next t →
    s.nextEvent = .reset
    ∨ (∃ new, s.adds t new ∧ .reset .wdt ∈ new)
    ∨ ((t.matrix ≠ s.matrix → s.nextEvent = .tick)
      ∧ (t.glowCode ≠ s.glowCode → s.nextEvent = .hostCmd ∧ s.run = false
          ∧ ∃ idx code, decode s.pins.cmd = .ok (.wrGlowcode idx code) ∧ idx < 64)
      ∧ (t.brightCode ≠ s.brightCode → s.nextEvent = .hostCmd ∧ s.run = false
          ∧ ∃ idx code, decode s.pins.cmd = .ok (.wrBrightcode idx code) ∧ idx < 64)
      ∧ ((t.stepTab ≠ s.stepTab ∨ t.maxsubTab ≠ s.maxsubTab) →
          s.nextEvent = .tmodeChange
          ∨ (s.nextEvent = .hostCmd ∧ s.run = false
              ∧ (decode s.pins.cmd = .ok .apply ∨ decode s.pins.cmd = .ok .start))))

/-! ### Invariants -/

/-- R49: every step keeps what every reachable state satisfies. -/
def Obligations.StepKeepsTheStateConsistent : Prop :=
  ∀ s t : State, s.Consistent → step s = .next t → t.Consistent

/-- R49 and R48: the state after any reset, in any configuration R8 allows, is consistent and in time. -/
def Obligations.ResetStateIsConsistent : Prop :=
  ∀ (c : Config) (cause : ResetCause) (pins : Inputs), configValid c = true →
    (State.afterReset c cause pins).Consistent ∧ (State.afterReset c cause pins).InTime
    ∧ (State.afterReset c cause pins).pinsIdle

/-- R8, R171, R173, R179: every step keeps the timers of a block inside their bounds. -/
def Obligations.StepKeepsTheTimersInTime : Prop :=
  ∀ s t : State, s.Consistent → s.InTime → step s = .next t → t.InTime

/-- R8: "Under these constraints no tick deadline is missed and the watchdog never expires while the block
works as specified": a step misses no deadline, and resets by the watchdog only when the environment's
fault (R180) is drawn. -/
def Obligations.NoDeadlineIsMissed : Prop :=
  ∀ s t : State, s.Consistent → s.InTime → step s = .next t →
    ∃ new, s.adds t new ∧ .event .tickMissed ∉ new
      ∧ (s.pins.wdtFault = false → .event .wdtExpire ∉ new ∧ .reset .wdt ∉ new)

/-- `spec/10_state.md` R36, R101, R150: the pins of the serial ports rest at their idle levels between
events.  `WDT_RESET` is 0 then too, after its own expiry as well, because the model keeps its one-cycle pulse
in the trace alone (log entry 17). -/
def Obligations.PortPinsRestBetweenEvents : Prop :=
  ∀ s t : State, s.pinsIdle → step s = .next t → t.pinsIdle

/-! ### The host contract -/

/-- `spec/46_external_interfaces.md` R214: a rejected update leaves the configuration, the matrix, the
history and the tick counter as they were, and the block running. -/
def Obligations.RejectedUpdateChangesNoConfiguration : Prop :=
  ∀ s : State, s.run = true → s.Consistent →
    ∃ t, execAll (liveWriteCommands none) s = .next t
      ∧ t.run = true
      ∧ s.sameExcept t [.rsp, .res, .timer, .tickPending, .wdtCnt, .soOeN, .trace]

/-- R217: a record written live and the same record loaded at boot give the same codes and the same
derived tables; the codes are the record's, and they read back so. -/
def Obligations.LiveWriteAndBootAgree : Prop :=
  ∀ (s : State) (g : CodeGrids) (cause : ResetCause) (pins : Inputs), pins.tmodeIn = s.tmode →
    ∃ t u, execAll (liveWriteCommands (some g)) s = .next t
      ∧ execAll (bootCommands (some g)) (State.afterReset s.cfg cause pins) = .next u
      ∧ t.glowCode = g.glow ∧ t.brightCode = g.bright
      ∧ u.glowCode = g.glow ∧ u.brightCode = g.bright
      ∧ t.stepTab = u.stepTab ∧ t.maxsubTab = u.maxsubTab
      ∧ t.stepTab = deriveStep s.cfg s.tmode g.glow ∧ t.maxsubTab = deriveMaxsub s.cfg s.tmode g.bright
      ∧ (∀ i, i < 64 →
          (∃ v, exec (.rdGlowcode i) t = .next v ∧ v.rsp.toNat = (readTable g.glow i).toNat)
          ∧ (∃ v, exec (.rdBrightcode i) t = .next v ∧ v.rsp.toNat = (readTable g.bright i).toNat))
      ∧ t.run = true ∧ u.run = true ∧ t.cfgDirty = false ∧ u.cfgDirty = false
end

