-- ==== Sys2Proof/Laws/State.lean ====
section
/-! SUPPORT. One lemma per update: what each named update of the state writes, as a record update, so that
`simp` reads every field after it without unfolding more; and the laws of frames. -/

namespace Sys2Proof.Machine

/-! ### Frames -/

/-- The field names leave nothing out: two states that agree on all of them are equal. -/
theorem eq_of_agreesOn {s t : State} (h : ∀ f, s.agreesOn t f) : t = s := by
  have hout : t.out = s.out := by
    have h1 := h .soClk
    have h2 := h .soData
    have h3 := h .soLatch
    have h4 := h .soOeN
    have h5 := h .siClk
    have h6 := h .siLoadN
    have h7 := h .wdtReset
    simp only [State.agreesOn] at h1 h2 h3 h4 h5 h6 h7
    cases ho : t.out
    cases ho' : s.out
    simp_all
  cases t
  cases s
  simp only [State.mk.injEq]
  refine ⟨h .cfg, h .run, h .tmode, h .tmodeMeta, h .agMeta, h .testMeta, h .tselMeta, h .tmodeSync, h .agSync,
    h .testSync, h .tselSync, h .phase, h .agT, h .testT, h .tickCol, h .subIdx, h .timer, h .tickPending,
    h .matrix, h .glowCode, h .brightCode, h .cfgDirty, h .stepTab, h .maxsubTab, h .rawPrev, h .lastAcc,
    h .cons, h .lastOut, hout, h .rstWdt, h .errOverrun, h .errBusy, h .errIllegal, h .errRange, h .lastEc,
    h .badframeCnt, h .overrunCnt, h .durMax, h .durCur, h .wdtEn, h .wdtCnt, h .rsp, h .res, h .inReset,
    h .pins, h .agenda, h .trace⟩

theorem agreesOn_refl (s : State) (f : Field) : s.agreesOn s f := by
  cases f <;> rfl

theorem agreesOn_trans {s t u : State} {f : Field} (h : s.agreesOn t f) (h' : t.agreesOn u f) :
    s.agreesOn u f := by
  cases f <;> exact Eq.trans h' h

theorem sameExcept_refl (s : State) (l : List Field) : s.sameExcept s l := fun f _ => agreesOn_refl s f

/-- Frames compose. -/
theorem sameExcept_trans {s t u : State} {l : List Field} (h : s.sameExcept t l) (h' : t.sameExcept u l) :
    s.sameExcept u l := fun f hf => agreesOn_trans (h f hf) (h' f hf)

/-- A frame may name more. -/
theorem sameExcept_mono {s t : State} {l l' : List Field} (h : s.sameExcept t l) (hl : ∀ f, f ∈ l → f ∈ l') :
    s.sameExcept t l' := fun f hf => h f fun hm => hf (hl f hm)

/-- The trace part of a composition. -/
theorem adds_trans {s t u : State} {new new' : List Obs} (h : s.adds t new) (h' : t.adds u new') :
    s.adds u (new' ++ new) := by
  unfold State.adds at *
  rw [h', h, List.append_assoc]

/-! ### Updates -/

@[simp] theorem log_eq (s : State) (o : Obs) : s.log o = { s with trace := o :: s.trace } := rfl

@[simp] theorem enter_eq (s : State) (p : Phase) :
    s.enter p = { s with phase := p, trace := .phase p :: s.trace } := rfl

/-- R137: DERIVE writes the two tables and clears `CFG_DIRTY`. -/
@[simp] theorem derive_eq (s : State) :
    derive s = { s with
      stepTab := deriveStep s.cfg s.tmode s.glowCode
      maxsubTab := deriveMaxsub s.cfg s.tmode s.brightCode
      cfgDirty := false } := rfl

@[simp] theorem respond_eq (r : Result) (v : Frame) (s : State) :
    respond r v s = { s with rsp := v, res := r } := rfl

@[simp] theorem raiseError_overrun (s : State) :
    raiseError .overrun s = { s with errOverrun := true, lastEc := .overrun } := rfl

@[simp] theorem raiseError_busy (s : State) :
    raiseError .busy s = { s with errBusy := true, lastEc := .busy } := rfl

@[simp] theorem raiseError_illegal (s : State) :
    raiseError .illegal s = { s with errIllegal := true, lastEc := .illegal } := rfl

@[simp] theorem raiseError_range (s : State) :
    raiseError .range s = { s with errRange := true, lastEc := .range } := rfl

theorem syncCycle_eq (s : State) :
    syncCycle s = { s with
      tmodeMeta := s.pins.tmodeIn
      agMeta := s.pins.agIn
      testMeta := s.pins.testIn
      tselMeta := s.pins.tselIn
      tmodeSync := s.tmodeMeta
      agSync := s.agMeta
      testSync := s.testMeta
      tselSync := s.tselMeta } := rfl

theorem checkin_eq (s : State) :
    checkin s = { s with wdtCnt := 0, durMax := nextDurMax s s.durCur } := rfl

theorem advance_eq (s : State) :
    advance s = { s with
      phase := .advance
      trace := .phase .advance :: s.trace
      tickCol := nextTickCol s.tickCol
      subIdx := nextSubIdx (subCycles s.cfg s.tmode) s.tickCol s.subIdx } := rfl

theorem recordSample_eq (smp : Frame) (s : State) :
    recordSample smp s = { s with
      phase := .validate
      trace := .phase .validate :: s.trace
      cons := nextCons smp s
      badframeCnt := nextBadframe smp s
      rawPrev := smp } := rfl

theorem tmodeChange_eq (s : State) :
    tmodeChange s = { s with
      trace := .event .tmodeChange :: s.trace
      tmode := s.tmodeSync
      timer := 0
      tickPending := false
      tickCol := 0
      subIdx := 0
      wdtCnt := if s.run then 0 else s.wdtCnt
      stepTab := deriveStep s.cfg s.tmodeSync s.glowCode
      maxsubTab := deriveMaxsub s.cfg s.tmodeSync s.brightCode
      cfgDirty := false } := by
  simp only [tmodeChange, derive_eq, log_eq]

theorem stopEffect_eq (s : State) :
    stopEffect s = { s with
      run := false
      timer := 0
      tickPending := false
      wdtEn := false
      wdtCnt := 0
      out := { s.out with soOeN := true }
      trace := oeChange s.out.soOeN true ++ s.trace } := by
  simp only [stopEffect, blankOutputs]

/-! ### Pins -/

@[simp] theorem writes_nil (o : OutPins) : o.writes [] = o := rfl

@[simp] theorem writes_cons (o : OutPins) (w : PinWrite) (ws : List PinWrite) :
    o.writes (w :: ws) = (o.write w).writes ws := rfl

@[simp] theorem writes_append (o : OutPins) (ws ws' : List PinWrite) :
    o.writes (ws ++ ws') = (o.writes ws).writes ws' := by
  simp [OutPins.writes, List.foldl_append]

/-- Shifting bits out moves the data and clock pins only, and leaves the clock low. -/
theorem writes_shiftOut (bs : List Bool) (o : OutPins) :
    ∃ d, o.writes (bs.flatMap fun b => [.soData b, .soClk true, .soClk false])
      = { o with soData := d, soClk := if bs = [] then o.soClk else false } := by
  induction bs generalizing o with
  | nil => exact ⟨o.soData, rfl⟩
  | cons b bs ih =>
    obtain ⟨d, h⟩ := ih { o with soData := b, soClk := false }
    refine ⟨d, ?_⟩
    rw [List.flatMap_cons, writes_append]
    simp only [writes_cons, writes_nil, OutPins.write]
    rw [h]
    simp

/-- Clocking in moves the input clock only, and leaves it low. -/
theorem writes_clockIn {α : Type} (l : List α) (o : OutPins) :
    o.writes (l.flatMap fun _ => [.siClk true, .siClk false])
      = { o with siClk := if l = [] then o.siClk else false } := by
  induction l generalizing o with
  | nil => rfl
  | cons a l ih =>
    rw [List.flatMap_cons, writes_append]
    simp only [writes_cons, writes_nil, OutPins.write]
    rw [ih]
    simp

/-- R150: the pins after an emission. -/
@[simp] theorem writes_emitWrites (o : OutPins) (f : Frame) :
    o.writes (emitWrites f)
      = { o with soClk := false, soData := false, soLatch := false, soOeN := false } := by
  obtain ⟨d, h⟩ := writes_shiftOut (bitsMsbFirst f) o
  rw [emitWrites, writes_append, h]
  have hne : bitsMsbFirst f ≠ [] := by simp [bitsMsbFirst]
  simp [OutPins.write, hne]

/-- R101: the pins after a shift-in. -/
@[simp] theorem writes_shiftInWrites (o : OutPins) :
    o.writes shiftInWrites = { o with siClk := false, siLoadN := true } := by
  rw [shiftInWrites, writes_append, writes_clockIn]
  simp [OutPins.write]

/-- R150: everything `Emit` does. -/
theorem emit_eq (f : Frame) (s : State) :
    emit f s = { s with
      out := { s.out with soClk := false, soData := false, soLatch := false, soOeN := false }
      lastOut := f
      trace := oeChange s.out.soOeN false ++ .emit f :: s.trace } := by
  simp only [emit, writes_emitWrites]

/-- R101: everything a shift-in does. -/
theorem shiftIn_eq (s : State) :
    shiftIn s = { s with
      out := { s.out with siClk := false, siLoadN := true }
      trace := .shiftIn (shiftInValue s.pins.siLines) :: s.trace } := by
  simp only [shiftIn, writes_shiftInWrites]

end Sys2Proof.Machine
end

