-- ==== Sys2Proof/Laws/Tables.lean ====
section
/-! SUPPORT. Laws of the lamp tables and of the arithmetic primitives. -/

namespace Sys2Proof.Machine

/-- Reading an element of a table given by a function. -/
@[simp] theorem readTable_tabulate {w : Nat} (f : Nat → BitVec w) (i : Nat) :
    readTable (tabulate f) i = if i < 64 then f i else 0 := by
  have h : (tabulate f).toList = (List.range 64).map f := rfl
  unfold readTable
  rw [h, List.getD_eq_getElem?_getD, List.getElem?_map]
  by_cases hi : i < 64
  · rw [List.getElem?_range hi]; simp [hi]
  · rw [List.getElem?_eq_none (by simpa using hi)]; simp [hi]

/-- An index at or above 64 names nothing and reads as 0. -/
theorem readTable_of_ge {w : Nat} (t : Table w) {i : Nat} (h : 64 ≤ i) : readTable t i = 0 := by
  unfold readTable
  rw [List.getD_eq_getElem?_getD, List.getElem?_eq_none (by simpa using h)]
  rfl

/-- A write read back. -/
theorem readTable_writeTable_self {w : Nat} (t : Table w) {i : Nat} (v : BitVec w) (h : i < 64) :
    readTable (writeTable t i v) i = v := by
  have e : (writeTable t i v).toList = t.toList.set i v := rfl
  unfold readTable
  rw [e, List.getD_eq_getElem?_getD, List.getElem?_set_self (by simpa using h)]
  rfl

/-- A write leaves every other element. -/
theorem readTable_writeTable_ne {w : Nat} (t : Table w) {i j : Nat} (v : BitVec w) (h : j ≠ i) :
    readTable (writeTable t i v) j = readTable t j := by
  have e : (writeTable t i v).toList = t.toList.set i v := rfl
  unfold readTable
  rw [e, List.getD_eq_getElem?_getD, List.getD_eq_getElem?_getD, List.getElem?_set_ne (by omega)]

/-- Two tables with the same elements are the same. -/
theorem table_ext {w : Nat} {t u : Table w} (h : ∀ i, i < 64 → readTable t i = readTable u i) : t = u := by
  apply Vector.ext
  intro i hi
  have := h i hi
  unfold readTable at this
  rw [List.getD_eq_getElem?_getD, List.getD_eq_getElem?_getD,
    List.getElem?_eq_getElem (by simpa using hi), List.getElem?_eq_getElem (by simpa using hi)] at this
  simpa using this

@[simp] theorem readTable_constTable {w : Nat} (v : BitVec w) {i : Nat} (h : i < 64) :
    readTable (constTable v) i = v := by
  simp [constTable, h]

/-! ### Arithmetic -/

@[simp] theorem satAdd16_toNat (a b : Frame) : (satAdd16 a b).toNat = min 65535 (a.toNat + b.toNat) := by
  simp only [satAdd16, BitVec.toNat_ofNat]
  omega

@[simp] theorem satSub16_toNat (a b : Frame) : (satSub16 a b).toNat = a.toNat - b.toNat := by
  simp only [satSub16, BitVec.toNat_ofNat]
  omega

@[simp] theorem satInc16_toNat (c : Frame) : (satInc16 c).toNat = min 65535 (c.toNat + 1) := by
  simp only [satInc16, BitVec.toNat_ofNat]
  omega

theorem satInc8_toNat {m : Nat} (h : m ≤ 255) (c : Byte) : (satInc8 m c).toNat = min m (c.toNat + 1) := by
  simp only [satInc8, BitVec.toNat_ofNat]
  omega

theorem ceilDiv_pos {n : Nat} (h : 1 ≤ n) : 1 ≤ ceilDiv 65535 n := by
  unfold ceilDiv
  exact (Nat.one_le_div_iff (by omega)).2 (by omega)

theorem ceilDiv_le {n : Nat} (h : 1 ≤ n) : ceilDiv 65535 n ≤ 65535 := by
  unfold ceilDiv
  have : (65535 + n - 1) / n < 65536 := (Nat.div_lt_iff_lt_mul (by omega)).2 (by omega)
  omega

/-- `ceil_div` rounds up: the quotient times the divisor reaches the dividend. -/
theorem le_mul_ceilDiv {n : Nat} (h : 1 ≤ n) : 65535 ≤ n * ceilDiv 65535 n := by
  unfold ceilDiv
  have h1 := Nat.div_add_mod (65535 + n - 1) n
  have h2 := Nat.mod_lt (65535 + n - 1) (by omega : 0 < n)
  omega

/-- Fewer than `ceil_div` times the divisor stays below the dividend. -/
theorem mul_lt_of_lt_ceilDiv {n k : Nat} (h : 1 ≤ n) (hk : k < ceilDiv 65535 n) : k * n < 65535 := by
  unfold ceilDiv at hk
  have h1 : (k + 1) * n ≤ 65535 + n - 1 := (Nat.le_div_iff_mul_le (by omega)).1 hk
  have h2 : (k + 1) * n = k * n + n := by rw [Nat.add_mul, Nat.one_mul]
  omega

/-! ### The derived model -/

theorem stepOfScans_bounds (n : Nat) : 1 ≤ stepOfScans n ∧ stepOfScans n ≤ 65535 := by
  unfold stepOfScans
  split
  · omega
  · exact ⟨ceilDiv_pos (by omega), ceilDiv_le (by omega)⟩

/-- R138: the glow step keeps its value in 16 bits. -/
theorem glowStep_toNat (c : Config) (g : Byte) (m : Bool) :
    (glowStep c g m).toNat = stepOfScans (scansFor c g m) := by
  have := stepOfScans_bounds (scansFor c g m)
  simp only [glowStep, BitVec.toNat_ofNat]
  omega

theorem glowStep_pos (c : Config) (g : Byte) (m : Bool) : 1 ≤ (glowStep c g m).toNat := by
  rw [glowStep_toNat]
  exact (stepOfScans_bounds _).1

@[simp] theorem readTable_deriveStep (c : Config) (m : Bool) (g : Table 8) {i : Nat} (h : i < 64) :
    readTable (deriveStep c m g) i = glowStep c (readTable g i) m := by
  simp [deriveStep, h]

@[simp] theorem readTable_deriveMaxsub (c : Config) (m : Bool) (b : Table 8) {i : Nat} (h : i < 64) :
    readTable (deriveMaxsub c m b) i = maxSub (readTable b i) (subCycles c m) := by
  simp [deriveMaxsub, h]

/-! ### One-hot masks -/

/-- R12: `index8` gives the column of a one-hot mask, and nothing for another. -/
theorem index8_eq_some_iff (m : Byte) (c : Nat) : index8 m = some c ↔ c < 8 ∧ m = 1#8 <<< c := by
  constructor
  · intro h
    have h1 := List.find?_some h
    have h2 := List.mem_of_find?_eq_some h
    simp only [List.mem_range] at h2
    exact ⟨h2, by simpa using h1⟩
  · rintro ⟨hc, rfl⟩
    have : c = 0 ∨ c = 1 ∨ c = 2 ∨ c = 3 ∨ c = 4 ∨ c = 5 ∨ c = 6 ∨ c = 7 := by omega
    rcases this with rfl | rfl | rfl | rfl | rfl | rfl | rfl | rfl <;> rfl

theorem onehot8_iff (m : Byte) : onehot8 m = true ↔ ∃ c, index8 m = some c := by
  constructor
  · intro h
    have h : m ∈ oneHotMasks := by simpa [onehot8] using h
    simp only [oneHotMasks, List.mem_cons, List.not_mem_nil, or_false] at h
    rcases h with rfl | rfl | rfl | rfl | rfl | rfl | rfl | rfl <;> exact ⟨_, rfl⟩
  · rintro ⟨c, h⟩
    obtain ⟨hc, rfl⟩ := (index8_eq_some_iff m c).1 h
    have : c = 0 ∨ c = 1 ∨ c = 2 ∨ c = 3 ∨ c = 4 ∨ c = 5 ∨ c = 6 ∨ c = 7 := by omega
    rcases this with rfl | rfl | rfl | rfl | rfl | rfl | rfl | rfl <;> rfl

end Sys2Proof.Machine
end

