-- ==== Sys2Proof/Laws/Clock.lean ====
section
/-! SUPPORT. What a clock cycle, and the cycles an event takes, can do. -/

namespace Sys2Proof.Machine

/-- What a clock cycle can change. -/
def clockFields : List Field :=
  [.tmodeMeta, .agMeta, .testMeta, .tselMeta, .tmodeSync, .agSync, .testSync, .tselSync, .timer,
   .tickPending, .overrunCnt, .errOverrun, .lastEc, .durCur, .wdtCnt, .trace]

/-- One clock cycle of a stopped block. -/
theorem clockCycle_stopped {s : State} (h : s.run = false) : clockCycle s = countCycle (syncCycle s) := by
  simp [clockCycle, timerCycle, countCycle, syncCycle, h]

/-- R182: no tick is drawn while one is pending or running, or where the environment draws none. -/
theorem tickDrawn_eq_false {s : State} (h : s.pins.tickNow = false ∨ s.tickPending = true ∨ s.phase ≠ .idle) :
    tickDrawn s = false := by
  rcases h with h | h | h <;> simp [tickDrawn, h]

theorem tickDrawn_eq_true {s : State} (h : tickDrawn s = true) :
    s.pins.tickNow = true ∧ s.tickPending = false ∧ s.phase = .idle := by
  simpa [tickDrawn] using h

/-- R171: a cycle inside the tick period, at whose end no tick is drawn. -/
theorem clockCycle_counts {s : State} (h : s.run = true) (ht : s.timer + 1 < tickPeriod s.cfg s.tmode)
    (hd : tickDrawn s = false) : clockCycle s = { countCycle (syncCycle s) with timer := s.timer + 1 } := by
  have h1 : ¬ tickPeriod s.cfg s.tmode ≤ s.timer + 1 := by omega
  have h2 : tickDrawn (countCycle (syncCycle s)) = false := hd
  simp only [clockCycle, timerCycle, h2]
  simp [countCycle, syncCycle, h, h1]

/-- R171: the cycle at whose end the timer expires, with no tick pending or running. -/
theorem clockCycle_expires {s : State} (h : s.run = true)
    (ht : tickPeriod s.cfg s.tmode ≤ s.timer + 1 ∨ tickDrawn s = true)
    (hp : s.tickPending = false) (hi : s.phase = .idle) :
    clockCycle s = { countCycle (syncCycle s) with timer := 0, tickPending := true } := by
  have h1 : tickPeriod (countCycle (syncCycle s)).cfg (countCycle (syncCycle s)).tmode
      ≤ (countCycle (syncCycle s)).timer + 1 ∨ tickDrawn (countCycle (syncCycle s)) = true := ht
  simp only [clockCycle, timerCycle, if_pos h1]
  simp [timerExpiry, countCycle, syncCycle, h, hp, hi]

/-- R172: the cycle at whose end the timer expires while a tick is pending or running. -/
theorem clockCycle_misses {s : State} (h : s.run = true) (ht : tickPeriod s.cfg s.tmode ≤ s.timer + 1)
    (hp : s.tickPending = true ∨ s.phase ≠ .idle) :
    clockCycle s = { countCycle (syncCycle s) with
      timer := 0
      overrunCnt := satInc16 s.overrunCnt
      errOverrun := true
      lastEc := .overrun
      trace := .event .tickMissed :: s.trace } := by
  have : (!s.tickPending && decide (s.phase = .idle)) = false := by
    rcases hp with hp | hp <;> simp [hp]
  simp [clockCycle, timerCycle, timerExpiry, tickMissed, countCycle, syncCycle, h, ht, this]

/-- A clock cycle is one of these four. -/
theorem clockCycle_cases (s : State) :
    clockCycle s = countCycle (syncCycle s)
    ∨ clockCycle s = { countCycle (syncCycle s) with timer := s.timer + 1 }
    ∨ clockCycle s = { countCycle (syncCycle s) with timer := 0, tickPending := true }
    ∨ clockCycle s = { countCycle (syncCycle s) with
        timer := 0
        overrunCnt := satInc16 s.overrunCnt
        errOverrun := true
        lastEc := .overrun
        trace := .event .tickMissed :: s.trace } := by
  cases h : s.run with
  | false => exact .inl (clockCycle_stopped h)
  | true =>
    rcases Nat.lt_or_ge (s.timer + 1) (tickPeriod s.cfg s.tmode) with ht | ht
    · rcases hd : tickDrawn s with _ | _
      · exact .inr (.inl (clockCycle_counts h ht hd))
      · exact .inr (.inr (.inl (clockCycle_expires h (.inr hd) (tickDrawn_eq_true hd).2.1 (tickDrawn_eq_true hd).2.2)))
    · by_cases hp : s.tickPending = false ∧ s.phase = .idle
      · exact .inr (.inr (.inl (clockCycle_expires h (.inl ht) hp.1 hp.2)))
      · refine .inr (.inr (.inr (clockCycle_misses h ht ?_)))
        rcases hb : s.tickPending with _ | _
        · exact .inr fun hi => hp ⟨hb, hi⟩
        · exact .inl rfl

/-- The frame of a clock cycle. -/
theorem clockCycle_frame (s : State) : s.sameExcept (clockCycle s) clockFields := by
  intro f hf
  rcases clockCycle_cases s with h | h | h | h <;> rw [h] <;>
    cases f <;> first | rfl | exact absurd (by decide) hf

/-- The frame of the cycles an event takes. -/
theorem elapse_frame (n : Nat) (s : State) : s.sameExcept (elapse n s) clockFields := by
  induction n generalizing s with
  | zero => exact sameExcept_refl s _
  | succ n ih => exact sameExcept_trans (clockCycle_frame s) (ih (clockCycle s))

section
variable (n : Nat) (s : State)

@[simp] theorem elapse_zero : elapse 0 s = s := rfl
theorem elapse_succ : elapse (n + 1) s = elapse n (clockCycle s) := rfl

@[simp] theorem elapse_cfg : (elapse n s).cfg = s.cfg := elapse_frame n s .cfg (by decide)
@[simp] theorem elapse_run : (elapse n s).run = s.run := elapse_frame n s .run (by decide)
@[simp] theorem elapse_tmode : (elapse n s).tmode = s.tmode := elapse_frame n s .tmode (by decide)
@[simp] theorem elapse_phase : (elapse n s).phase = s.phase := elapse_frame n s .phase (by decide)
@[simp] theorem elapse_agT : (elapse n s).agT = s.agT := elapse_frame n s .agT (by decide)
@[simp] theorem elapse_testT : (elapse n s).testT = s.testT := elapse_frame n s .testT (by decide)
@[simp] theorem elapse_tickCol : (elapse n s).tickCol = s.tickCol := elapse_frame n s .tickCol (by decide)
@[simp] theorem elapse_subIdx : (elapse n s).subIdx = s.subIdx := elapse_frame n s .subIdx (by decide)
@[simp] theorem elapse_matrix : (elapse n s).matrix = s.matrix := elapse_frame n s .matrix (by decide)
@[simp] theorem elapse_glowCode : (elapse n s).glowCode = s.glowCode := elapse_frame n s .glowCode (by decide)
@[simp] theorem elapse_brightCode : (elapse n s).brightCode = s.brightCode :=
  elapse_frame n s .brightCode (by decide)
@[simp] theorem elapse_cfgDirty : (elapse n s).cfgDirty = s.cfgDirty := elapse_frame n s .cfgDirty (by decide)
@[simp] theorem elapse_stepTab : (elapse n s).stepTab = s.stepTab := elapse_frame n s .stepTab (by decide)
@[simp] theorem elapse_maxsubTab : (elapse n s).maxsubTab = s.maxsubTab :=
  elapse_frame n s .maxsubTab (by decide)
@[simp] theorem elapse_rawPrev : (elapse n s).rawPrev = s.rawPrev := elapse_frame n s .rawPrev (by decide)
@[simp] theorem elapse_lastAcc : (elapse n s).lastAcc = s.lastAcc := elapse_frame n s .lastAcc (by decide)
@[simp] theorem elapse_cons : (elapse n s).cons = s.cons := elapse_frame n s .cons (by decide)
@[simp] theorem elapse_lastOut : (elapse n s).lastOut = s.lastOut := elapse_frame n s .lastOut (by decide)
@[simp] theorem elapse_out : (elapse n s).out = s.out := by
  have h := elapse_frame n s
  have h1 := h .soClk (by decide)
  have h2 := h .soData (by decide)
  have h3 := h .soLatch (by decide)
  have h4 := h .soOeN (by decide)
  have h5 := h .siClk (by decide)
  have h6 := h .siLoadN (by decide)
  have h7 := h .wdtReset (by decide)
  simp only [State.agreesOn] at h1 h2 h3 h4 h5 h6 h7
  cases ho : (elapse n s).out
  cases ho' : s.out
  simp_all
@[simp] theorem elapse_rstWdt : (elapse n s).rstWdt = s.rstWdt := elapse_frame n s .rstWdt (by decide)
@[simp] theorem elapse_errBusy : (elapse n s).errBusy = s.errBusy := elapse_frame n s .errBusy (by decide)
@[simp] theorem elapse_errIllegal : (elapse n s).errIllegal = s.errIllegal :=
  elapse_frame n s .errIllegal (by decide)
@[simp] theorem elapse_errRange : (elapse n s).errRange = s.errRange := elapse_frame n s .errRange (by decide)
@[simp] theorem elapse_badframeCnt : (elapse n s).badframeCnt = s.badframeCnt :=
  elapse_frame n s .badframeCnt (by decide)
@[simp] theorem elapse_durMax : (elapse n s).durMax = s.durMax := elapse_frame n s .durMax (by decide)
@[simp] theorem elapse_wdtEn : (elapse n s).wdtEn = s.wdtEn := elapse_frame n s .wdtEn (by decide)
@[simp] theorem elapse_rsp : (elapse n s).rsp = s.rsp := elapse_frame n s .rsp (by decide)
@[simp] theorem elapse_res : (elapse n s).res = s.res := elapse_frame n s .res (by decide)
@[simp] theorem elapse_inReset : (elapse n s).inReset = s.inReset := elapse_frame n s .inReset (by decide)
@[simp] theorem elapse_pins : (elapse n s).pins = s.pins := elapse_frame n s .pins (by decide)
@[simp] theorem elapse_agenda : (elapse n s).agenda = s.agenda := elapse_frame n s .agenda (by decide)

end

/-- R179: the watchdog counts every cycle while it is enabled. -/
@[simp] theorem clockCycle_wdtCnt (s : State) :
    (clockCycle s).wdtCnt = if s.wdtEn then s.wdtCnt + 1 else s.wdtCnt := by
  rcases clockCycle_cases s with h | h | h | h <;> rw [h] <;> rfl

/-- R42: the duration counter counts every cycle of a tick. -/
@[simp] theorem clockCycle_durCur (s : State) :
    (clockCycle s).durCur = if s.phase = .idle then s.durCur else satInc16 s.durCur := by
  rcases clockCycle_cases s with h | h | h | h <;> rw [h] <;> rfl

@[simp] theorem clockCycle_cfg (s : State) : (clockCycle s).cfg = s.cfg := clockCycle_frame s .cfg (by decide)
@[simp] theorem clockCycle_run (s : State) : (clockCycle s).run = s.run := clockCycle_frame s .run (by decide)
@[simp] theorem clockCycle_tmode (s : State) : (clockCycle s).tmode = s.tmode :=
  clockCycle_frame s .tmode (by decide)
@[simp] theorem clockCycle_phase (s : State) : (clockCycle s).phase = s.phase :=
  clockCycle_frame s .phase (by decide)
@[simp] theorem clockCycle_wdtEn (s : State) : (clockCycle s).wdtEn = s.wdtEn :=
  clockCycle_frame s .wdtEn (by decide)

theorem elapse_wdtCnt (n : Nat) (s : State) :
    (elapse n s).wdtCnt = if s.wdtEn then s.wdtCnt + n else s.wdtCnt := by
  induction n generalizing s with
  | zero => simp
  | succ n ih =>
    rw [elapse_succ, ih]
    cases h : s.wdtEn <;> simp [h]
    omega

/-- R177: the cycles of a tick, counted with saturation. -/
theorem elapse_durCur (n : Nat) (s : State) (h : s.phase ≠ .idle) :
    (elapse n s).durCur.toNat = min 65535 (s.durCur.toNat + n) := by
  induction n generalizing s with
  | zero => have := s.durCur.isLt; simp; omega
  | succ n ih =>
    rw [elapse_succ, ih _ (by simpa using h)]
    simp [h]
    omega

/-- The cycles an event takes add missed deadlines to the trace and nothing else. -/
theorem elapse_adds (n : Nat) (s : State) :
    ∃ new, s.adds (elapse n s) new ∧ ∀ o ∈ new, o = .event .tickMissed := by
  induction n generalizing s with
  | zero => exact ⟨[], rfl, by simp⟩
  | succ n ih =>
    obtain ⟨new, h, hn⟩ := ih (clockCycle s)
    have hc : ∃ new, s.adds (clockCycle s) new ∧ ∀ o ∈ new, o = .event .tickMissed := by
      rcases clockCycle_cases s with h | h | h | h <;> rw [h]
      · exact ⟨[], rfl, by simp⟩
      · exact ⟨[], rfl, by simp⟩
      · exact ⟨[], rfl, by simp⟩
      · exact ⟨[.event .tickMissed], rfl, by simp⟩
    obtain ⟨new', h', hn'⟩ := hc
    refine ⟨new ++ new', adds_trans h' h, ?_⟩
    intro o ho
    rcases List.mem_append.1 ho with ho | ho
    · exact hn o ho
    · exact hn' o ho

/-- A stopped block's timers stand still (R170). -/
theorem elapse_stopped (n : Nat) {s : State} (h : s.run = false) :
    (elapse n s).timer = s.timer ∧ (elapse n s).tickPending = s.tickPending
    ∧ (elapse n s).overrunCnt = s.overrunCnt ∧ (elapse n s).errOverrun = s.errOverrun
    ∧ (elapse n s).lastEc = s.lastEc ∧ (elapse n s).trace = s.trace := by
  induction n generalizing s with
  | zero => exact ⟨rfl, rfl, rfl, rfl, rfl, rfl⟩
  | succ n ih =>
    have hr : (clockCycle s).run = false := by simpa using h
    obtain ⟨h1, h2, h3, h4, h5, h6⟩ := ih hr
    rw [elapse_succ, h1, h2, h3, h4, h5, h6, clockCycle_stopped h]
    exact ⟨rfl, rfl, rfl, rfl, rfl, rfl⟩

/-- Cycles that end before the timer expires, with no tick drawn, only count. -/
theorem elapse_before_expiry (n : Nat) {s : State} (h : s.run = true)
    (ht : s.timer + n < tickPeriod s.cfg s.tmode)
    (hd : s.pins.tickNow = false ∨ s.tickPending = true ∨ s.phase ≠ .idle) :
    (elapse n s).timer = s.timer + n ∧ (elapse n s).tickPending = s.tickPending
    ∧ (elapse n s).overrunCnt = s.overrunCnt ∧ (elapse n s).errOverrun = s.errOverrun
    ∧ (elapse n s).lastEc = s.lastEc ∧ (elapse n s).trace = s.trace := by
  induction n generalizing s with
  | zero => exact ⟨rfl, rfl, rfl, rfl, rfl, rfl⟩
  | succ n ih =>
    have hc := clockCycle_counts h (by omega : s.timer + 1 < tickPeriod s.cfg s.tmode) (tickDrawn_eq_false hd)
    have hr : (clockCycle s).run = true := by simpa using h
    have htm : (clockCycle s).timer = s.timer + 1 := by rw [hc]
    have hd' : (clockCycle s).pins.tickNow = false ∨ (clockCycle s).tickPending = true
        ∨ (clockCycle s).phase ≠ .idle := by rw [hc]; exact hd
    obtain ⟨h1, h2, h3, h4, h5, h6⟩ := ih hr (by simp [htm]; omega) hd'
    rw [elapse_succ, h1, h2, h3, h4, h5, h6, hc]
    exact ⟨by simp only; omega, rfl, rfl, rfl, rfl, rfl⟩

/-- Fewer cycles than a period, with no tick pending or running, make the timer expire at most once, after
`j` of them and no later than its period, and the tick is then pending; no deadline is missed. -/
theorem elapse_idle (n : Nat) {s : State} (h : s.run = true) (hp : s.tickPending = false) (hi : s.phase = .idle)
    (ht : s.timer < tickPeriod s.cfg s.tmode) (hn : n < tickPeriod s.cfg s.tmode) :
    (((elapse n s).tickPending = false ∧ (elapse n s).timer = s.timer + n
        ∧ s.timer + n < tickPeriod s.cfg s.tmode)
      ∨ ∃ j, 1 ≤ j ∧ j ≤ n ∧ s.timer + j ≤ tickPeriod s.cfg s.tmode
        ∧ (elapse n s).tickPending = true ∧ (elapse n s).timer = n - j)
    ∧ (elapse n s).overrunCnt = s.overrunCnt ∧ (elapse n s).errOverrun = s.errOverrun
    ∧ (elapse n s).lastEc = s.lastEc ∧ (elapse n s).trace = s.trace := by
  induction n generalizing s with
  | zero => exact ⟨.inl ⟨hp, rfl, ht⟩, rfl, rfl, rfl, rfl⟩
  | succ n ih =>
    by_cases hx : tickPeriod s.cfg s.tmode ≤ s.timer + 1 ∨ tickDrawn s = true
    · have hc := clockCycle_expires h hx hp hi
      have htm : (clockCycle s).timer = 0 := by rw [hc]
      have hpm : (clockCycle s).tickPending = true := by rw [hc]
      obtain ⟨h1, h2, h3, h4, h5, h6⟩ := elapse_before_expiry n (s := clockCycle s) (by simpa using h)
        (by simp [htm]; omega) (.inr (.inl hpm))
      rw [elapse_succ, h1, h2, h3, h4, h5, h6, htm, hpm, hc]
      exact ⟨.inr ⟨1, by omega, by omega, by omega, rfl, by omega⟩, rfl, rfl, rfl, rfl⟩
    · have hlt : s.timer + 1 < tickPeriod s.cfg s.tmode := Nat.lt_of_not_le fun hle => hx (.inl hle)
      have hc := clockCycle_counts h hlt (Bool.eq_false_iff.2 fun hd => hx (.inr hd))
      have htm : (clockCycle s).timer = s.timer + 1 := by rw [hc]
      have hpm : (clockCycle s).tickPending = false := by rw [hc]; exact hp
      obtain ⟨ha, hb, hc', hd, he⟩ := ih (s := clockCycle s) (by simpa using h) hpm (by simpa using hi)
        (by simp [htm]; omega) (by simp; omega)
      simp only [clockCycle_cfg, clockCycle_tmode, htm] at ha
      rw [elapse_succ, hb, hc', hd, he, hc]
      rw [hc] at ha
      refine ⟨?_, rfl, rfl, rfl, rfl⟩
      rcases ha with ⟨a1, a2, a3⟩ | ⟨j, a1, a2, a3, a4, a5⟩
      · exact .inl ⟨a1, by omega, by omega⟩
      · exact .inr ⟨j + 1, by omega, by omega, by omega, a4, by omega⟩

end Sys2Proof.Machine
end

