-- ==== Sys2Proof/Laws/Commands.lean ====
section
/-! SUPPORT. What a host command can do: the three answers of `command`, each said once, and that every
command has a next state. -/

namespace Sys2Proof.Machine

/-! ### The refusals -/

/-- R191: everything a BUSY refusal does. -/
theorem busyRefused_refuse (s : State) : s.busyRefused (refuse .busy s) := by
  refine ⟨rfl, rfl, rfl, rfl, ?_⟩
  intro f hf
  cases f <;> first | rfl | exact absurd (by decide) hf

/-- R191: everything a RANGE refusal does. -/
theorem rangeRefused_refuse (s : State) : s.rangeRefused (refuse .range s) := by
  refine ⟨rfl, rfl, rfl, rfl, ?_⟩
  intro f hf
  cases f <;> first | rfl | exact absurd (by decide) hf

/-- R191, R207: everything an ILLEGAL refusal does. -/
theorem illegalRefused_refuse (s : State) : s.illegalRefused (refuse .illegal s) := by
  refine ⟨rfl, rfl, rfl, rfl, ?_⟩
  intro f hf
  cases f <;> first | rfl | exact absurd (by decide) hf

/-! ### The answer -/

/-- R190: an answer is the effect of the command and the response. -/
theorem answered_respond {s t : State} {v : Frame} {changed : List Field} (h : s.sameExcept t changed) :
    s.answered (respond .ok v t) v changed := by
  refine ⟨rfl, rfl, ?_⟩
  have h1 : t.sameExcept (respond .ok v t) [.rsp, .res] := by
    intro f hf
    cases f <;> first | rfl | exact absurd (by decide) hf
  exact sameExcept_trans (sameExcept_mono h fun _ hf => List.mem_append_right _ hf)
    (sameExcept_mono h1 fun _ hf => List.mem_append_left _ hf)

/-- A frame that names fewer pieces answers one that names more. -/
theorem answered_mono {s t : State} {v : Frame} {l l' : List Field} (h : s.answered t v l)
    (hl : ∀ f, f ∈ l → f ∈ l') : s.answered t v l' :=
  ⟨h.1, h.2.1, sameExcept_mono h.2.2 fun f hf => by
    rcases List.mem_append.1 hf with hf | hf
    · exact List.mem_append_left _ hf
    · exact List.mem_append_right _ (hl f hf)⟩

section
variable {stoppedOnly : Bool} {body : State → State} {value : State → Frame} {s : State} {sp : Space} {i : Nat}

/-- R191: a command allowed in this run state that uses no index is executed. -/
theorem command_plain (h : (stoppedOnly && s.run) = false) :
    command stoppedOnly none body value s = .next (respond .ok (value s) (body s)) := by
  simp [command, check, h]

/-- R191: so is one whose index is in its space. -/
theorem command_indexed (h : (stoppedOnly && s.run) = false) (hi : i < sp.size) :
    command stoppedOnly (some (sp, i)) body value s = .next (respond .ok (value s) (body s)) := by
  have : ¬ sp.size ≤ i := by omega
  simp [command, check, h, this]

/-- R191: a stopped-only command is refused while running, whatever its index. -/
theorem command_busy {operand : Option (Space × Nat)} (h : s.run = true) :
    command true operand body value s = .next (refuse .busy s) := by
  simp [command, check, h]

/-- R191: a command allowed in this run state is refused when its index is out of its space. -/
theorem command_range (h : (stoppedOnly && s.run) = false) (hi : sp.size ≤ i) :
    command stoppedOnly (some (sp, i)) body value s = .next (refuse .range s) := by
  simp [command, check, h, hi]

/-- R190, R191: everything `command` can do. -/
theorem command_cases (stoppedOnly : Bool) (operand : Option (Space × Nat)) (body : State → State)
    (value : State → Frame) (s : State) :
    (command stoppedOnly operand body value s = .next (respond .ok (value s) (body s))
        ∧ (stoppedOnly && s.run) = false ∧ ∀ sp i, operand = some (sp, i) → i < sp.size)
    ∨ (command stoppedOnly operand body value s = .next (refuse .busy s) ∧ stoppedOnly = true ∧ s.run = true)
    ∨ (command stoppedOnly operand body value s = .next (refuse .range s)
        ∧ (stoppedOnly && s.run) = false ∧ ∃ sp i, operand = some (sp, i) ∧ sp.size ≤ i) := by
  cases hb : stoppedOnly && s.run with
  | true =>
    have hb : stoppedOnly = true ∧ s.run = true := by simpa using hb
    obtain ⟨rfl, hr⟩ := hb
    exact .inr (.inl ⟨command_busy hr, rfl, hr⟩)
  | false =>
    rcases operand with _ | ⟨sp, i⟩
    · exact .inl ⟨command_plain hb, rfl, fun sp i h => by cases h⟩
    · rcases Nat.lt_or_ge i sp.size with hi | hi
      · exact .inl ⟨command_indexed hb hi, rfl, fun sp' i' h => by cases h; exact hi⟩
      · exact .inr (.inr ⟨command_range hb hi, rfl, sp, i, rfl, hi⟩)

end

/-! ### The effects -/

theorem stopEffect_frame (s : State) :
    s.sameExcept (stopEffect s) [.run, .timer, .tickPending, .wdtEn, .wdtCnt, .soOeN, .trace] := by
  rw [stopEffect_eq]
  intro f hf
  cases f <;> first | rfl | exact absurd (by decide) hf

/-- R194: START of a stopped block. -/
theorem startEffect_stopped {s : State} (h : s.run = false) :
    startEffect s = { s with
      run := true
      timer := 0
      tickPending := false
      wdtEn := true
      wdtCnt := 0
      cfgDirty := false
      stepTab := if s.cfgDirty then deriveStep s.cfg s.tmode s.glowCode else s.stepTab
      maxsubTab := if s.cfgDirty then deriveMaxsub s.cfg s.tmode s.brightCode else s.maxsubTab } := by
  cases hd : s.cfgDirty <;> simp [startEffect, h, hd]

/-- R194: START of a running block changes nothing. -/
theorem startEffect_running {s : State} (h : s.run = true) : startEffect s = s := by
  simp [startEffect, h]

theorem startEffect_frame (s : State) : s.sameExcept (startEffect s)
    [.run, .timer, .tickPending, .wdtEn, .wdtCnt, .cfgDirty, .stepTab, .maxsubTab] := by
  cases h : s.run with
  | true => rw [startEffect_running h]; exact sameExcept_refl s _
  | false =>
    rw [startEffect_stopped h]
    intro f hf
    cases f <;> first | rfl | exact absurd (by decide) hf

theorem clearStatus_frame (mask : Frame) (s : State) : s.sameExcept (clearStatus mask s)
    [.rstWdt, .errOverrun, .errBusy, .errIllegal, .errRange, .lastEc] := by
  intro f hf
  cases f <;> first | rfl | exact absurd (by decide) hf

theorem clearDiag_frame (mask : Frame) (s : State) :
    s.sameExcept (clearDiag mask s) [.badframeCnt, .overrunCnt, .durMax] := by
  intro f hf
  cases f <;> first | rfl | exact absurd (by decide) hf

theorem writeGlowCode_frame (idx : Nat) (code : Byte) (s : State) :
    s.sameExcept (writeGlowCode idx code s) [.glowCode, .cfgDirty] := by
  intro f hf
  cases f <;> first | rfl | exact absurd (by decide) hf

theorem writeBrightCode_frame (idx : Nat) (code : Byte) (s : State) :
    s.sameExcept (writeBrightCode idx code s) [.brightCode, .cfgDirty] := by
  intro f hf
  cases f <;> first | rfl | exact absurd (by decide) hf

theorem derive_frame (s : State) : s.sameExcept (derive s) [.stepTab, .maxsubTab, .cfgDirty] := by
  intro f hf
  cases f <;> first | rfl | exact absurd (by decide) hf

/-! ### Every command -/

/-- The answer of a read command. -/
theorem readCommand_answered {stoppedOnly : Bool} {sp : Space} {idx : Nat} {s : State}
    (h : (stoppedOnly && s.run) = false) (hi : idx < sp.size) :
    readCommand stoppedOnly sp idx s = .next (respond .ok (memRead sp idx s) s) :=
  command_indexed h hi

/-- `command` always has a next state. -/
theorem command_total (stoppedOnly : Bool) (operand : Option (Space × Nat)) (body : State → State)
    (value : State → Frame) (s : State) : ∃ t, command stoppedOnly operand body value s = .next t := by
  rcases command_cases stoppedOnly operand body value s with h | h | h <;> exact ⟨_, h.1⟩

/-- R79: the commands refused while running. -/
def stoppedOnlyOf : Instr → Bool
  | .wrGlowcode _ _ => true
  | .wrBrightcode _ _ => true
  | .apply => true
  | .rdLamp _ => true
  | .nop => false
  | .stop => false
  | .start => false
  | .rdStatus => false
  | .clrStatus _ => false
  | .rdGlowcode _ => false
  | .rdBrightcode _ => false
  | .rdStep _ => false
  | .rdMaxsub _ => false
  | .rdDiag _ => false
  | .clrDiag _ => false

/-- R191: the space and the index of the commands that use `IDX`. -/
def operandOf : Instr → Option (Space × Nat)
  | .wrGlowcode idx _ => some (.glow, idx)
  | .wrBrightcode idx _ => some (.bright, idx)
  | .rdGlowcode idx => some (.glow, idx)
  | .rdBrightcode idx => some (.bright, idx)
  | .rdStep idx => some (.step, idx)
  | .rdMaxsub idx => some (.maxsub, idx)
  | .rdLamp idx => some (.lamp, idx)
  | .rdDiag idx => some (.diag, idx)
  | .nop => none
  | .stop => none
  | .start => none
  | .rdStatus => none
  | .clrStatus _ => none
  | .apply => none
  | .clrDiag _ => none

/-- What a command does when its checks pass (R192 to R206). -/
def effectOf : Instr → State → State
  | .stop => stopEffect
  | .start => startEffect
  | .clrStatus mask => clearStatus mask
  | .wrGlowcode idx code => writeGlowCode idx code
  | .wrBrightcode idx code => writeBrightCode idx code
  | .apply => derive
  | .clrDiag mask => clearDiag mask
  | .nop => fun t => t
  | .rdStatus => fun t => t
  | .rdGlowcode _ => fun t => t
  | .rdBrightcode _ => fun t => t
  | .rdStep _ => fun t => t
  | .rdMaxsub _ => fun t => t
  | .rdLamp _ => fun t => t
  | .rdDiag _ => fun t => t

/-- What a command returns when its checks pass. -/
def valueOf : Instr → State → Frame
  | .rdStatus => State.status
  | .rdGlowcode idx => memRead .glow idx
  | .rdBrightcode idx => memRead .bright idx
  | .rdStep idx => memRead .step idx
  | .rdMaxsub idx => memRead .maxsub idx
  | .rdLamp idx => memRead .lamp idx
  | .rdDiag idx => memRead .diag idx
  | .nop => fun _ => 0
  | .stop => fun _ => 0
  | .start => fun _ => 0
  | .clrStatus _ => fun _ => 0
  | .wrGlowcode _ _ => fun _ => 0
  | .wrBrightcode _ _ => fun _ => 0
  | .apply => fun _ => 0
  | .clrDiag _ => fun _ => 0

/-- Every command is `command` with its own checks, effect and value. -/
theorem exec_eq (i : Instr) (s : State) :
    exec i s = command (stoppedOnlyOf i) (operandOf i) (effectOf i) (valueOf i) s := by
  cases i <;> rfl

/-- A command allowed in this run state, its index in its space, is executed. -/
theorem exec_ok {i : Instr} {s : State} (h : (stoppedOnlyOf i && s.run) = false)
    (hi : ∀ sp k, operandOf i = some (sp, k) → k < sp.size) :
    exec i s = .next (respond .ok (valueOf i s) (effectOf i s)) := by
  rw [exec_eq]
  cases ho : operandOf i with
  | none => exact command_plain h
  | some p => exact command_indexed h (hi p.1 p.2 ho)

/-- A stopped-only command is refused while running. -/
theorem exec_busy {i : Instr} {s : State} (h : stoppedOnlyOf i = true) (hr : s.run = true) :
    exec i s = .next (refuse .busy s) := by
  rw [exec_eq, h]
  exact command_busy hr

/-- A command allowed in this run state is refused when its index is out of its space. -/
theorem exec_range {i : Instr} {s : State} {sp : Space} {k : Nat} (h : (stoppedOnlyOf i && s.run) = false)
    (ho : operandOf i = some (sp, k)) (hk : sp.size ≤ k) : exec i s = .next (refuse .range s) := by
  rw [exec_eq, ho]
  exact command_range h hk

/-- Every command has a next state. -/
theorem exec_total (i : Instr) (s : State) : ∃ t, exec i s = .next t := by
  rw [exec_eq]; exact command_total _ _ _ _ _

/-- Every word has a next state. -/
theorem execWord_total (w : Word) (s : State) : ∃ t, execWord w s = .next t := by
  unfold execWord
  split
  · exact exec_total _ s
  · exact ⟨_, rfl⟩

/-- What the commands write, over all of them. -/
def commandFields : List Field :=
  [.run, .timer, .tickPending, .wdtEn, .wdtCnt, .soOeN, .trace, .glowCode, .brightCode, .cfgDirty, .stepTab,
   .maxsubTab, .rstWdt, .errOverrun, .errBusy, .errIllegal, .errRange, .lastEc, .badframeCnt, .overrunCnt,
   .durMax, .rsp, .res]

/-- The frame of `command`, from the frame of its effect. -/
theorem command_frame {stoppedOnly : Bool} {operand : Option (Space × Nat)} {body : State → State}
    {value : State → Frame} {s t : State} {l : List Field} (hb : s.sameExcept (body s) l)
    (h : command stoppedOnly operand body value s = .next t) :
    s.sameExcept t ([.rsp, .res, .errBusy, .errRange, .lastEc] ++ l) := by
  rcases command_cases stoppedOnly operand body value s with hc | hc | hc <;> rw [hc.1] at h <;> cases h
  · refine sameExcept_mono (answered_respond hb).2.2 fun f hf => ?_
    rcases List.mem_append.1 hf with hf | hf
    · exact List.mem_append_left _ (by revert hf; cases f <;> decide)
    · exact List.mem_append_right _ hf
  · exact sameExcept_mono (busyRefused_refuse s).2.2.2.2 fun f hf =>
      List.mem_append_left _ (by revert hf; cases f <;> decide)
  · exact sameExcept_mono (rangeRefused_refuse s).2.2.2.2 fun f hf =>
      List.mem_append_left _ (by revert hf; cases f <;> decide)

/-- The frame of an effect. -/
theorem effectOf_frame (i : Instr) (s : State) : s.sameExcept (effectOf i s) commandFields := by
  have widen : ∀ {t : State} {l : List Field}, s.sameExcept t l → (∀ f, f ∈ l → f ∈ commandFields) →
      s.sameExcept t commandFields := fun h hl => sameExcept_mono h hl
  cases i with
  | stop => exact widen (stopEffect_frame s) (by decide)
  | start => exact widen (startEffect_frame s) (by decide)
  | clrStatus mask => exact widen (clearStatus_frame mask s) (by decide)
  | wrGlowcode idx code => exact widen (writeGlowCode_frame idx code s) (by decide)
  | wrBrightcode idx code => exact widen (writeBrightCode_frame idx code s) (by decide)
  | apply => exact widen (derive_frame s) (by decide)
  | clrDiag mask => exact widen (clearDiag_frame mask s) (by decide)
  | nop => exact sameExcept_refl s _
  | rdStatus => exact sameExcept_refl s _
  | rdGlowcode idx => exact sameExcept_refl s _
  | rdBrightcode idx => exact sameExcept_refl s _
  | rdStep idx => exact sameExcept_refl s _
  | rdMaxsub idx => exact sameExcept_refl s _
  | rdLamp idx => exact sameExcept_refl s _
  | rdDiag idx => exact sameExcept_refl s _

/-- The frame of every command. -/
theorem exec_frame {i : Instr} {s t : State} (h : exec i s = .next t) : s.sameExcept t commandFields := by
  rw [exec_eq] at h
  refine sameExcept_mono (command_frame (effectOf_frame i s) h) fun f hf => ?_
  rcases List.mem_append.1 hf with hf | hf
  · revert hf; cases f <;> decide
  · exact hf

/-- The frame of every word. -/
theorem execWord_frame {w : Word} {s t : State} (h : execWord w s = .next t) : s.sameExcept t commandFields := by
  unfold execWord at h
  split at h
  · exact exec_frame h
  · cases h
    exact sameExcept_mono (illegalRefused_refuse s).2.2.2.2 fun f hf => by revert hf; cases f <;> decide

end Sys2Proof.Machine
end

