-- ==== Sys2Proof/Laws/Encoding.lean ====
section
/-! SUPPORT. The fields of a packed command word read back. -/

namespace Sys2Proof

/-- R77: a word as a number. -/
theorem packWord_toNat (opc : Byte) (idx : Nat) (data : Frame) :
    (packWord opc idx data).toNat = opc.toNat * 16777216 + idx % 256 * 65536 + data.toNat := by
  have h1 := data.isLt
  have h2 : idx % 256 < 256 := Nat.mod_lt _ (by omega)
  have h3 : (packWord opc idx data).toNat = (opc.toNat <<< 8 ||| idx % 256) <<< 16 ||| data.toNat := by
    simp only [packWord, BitVec.toNat_append, BitVec.toNat_ofNat]
  rw [h3, ← Nat.shiftLeft_add_eq_or_of_lt (i := 16) h1, ← Nat.shiftLeft_add_eq_or_of_lt (i := 8) h2,
    Nat.shiftLeft_eq, Nat.shiftLeft_eq]
  omega

@[simp] theorem opcField_packWord (opc : Byte) (idx : Nat) (data : Frame) :
    opcField (packWord opc idx data) = opc := by
  apply BitVec.eq_of_toNat_eq
  have h1 := data.isLt
  have h2 := opc.isLt
  have h3 : idx % 256 < 256 := Nat.mod_lt _ (by omega)
  simp only [opcField, BitVec.extractLsb'_toNat, packWord_toNat, Nat.shiftRight_eq_div_pow]
  omega

@[simp] theorem idxField_packWord (opc : Byte) (idx : Nat) (data : Frame) :
    idxField (packWord opc idx data) = idx % 256 := by
  have h1 := data.isLt
  have h2 := opc.isLt
  have h3 : idx % 256 < 256 := Nat.mod_lt _ (by omega)
  simp only [idxField, BitVec.extractLsb'_toNat, packWord_toNat, Nat.shiftRight_eq_div_pow]
  omega

@[simp] theorem dataField_packWord (opc : Byte) (idx : Nat) (data : Frame) :
    dataField (packWord opc idx data) = data := by
  apply BitVec.eq_of_toNat_eq
  have h1 := data.isLt
  simp only [dataField, BitVec.extractLsb'_toNat, packWord_toNat, Nat.shiftRight_eq_div_pow]
  omega

@[simp] theorem codeField_packWord (opc : Byte) (idx : Nat) (code : Byte) :
    codeField (packWord opc idx (code.setWidth 16)) = code := by
  apply BitVec.eq_of_toNat_eq
  have h1 := code.isLt
  simp only [codeField, BitVec.extractLsb'_toNat, packWord_toNat, Nat.shiftRight_eq_div_pow,
    BitVec.toNat_setWidth]
  omega

/-- A word is its three fields. -/
theorem packWord_fields (w : Word) : packWord (opcField w) (idxField w) (dataField w) = w := by
  apply BitVec.eq_of_toNat_eq
  have h := w.isLt
  simp only [packWord_toNat, opcField, idxField, dataField, BitVec.extractLsb'_toNat, Nat.shiftRight_eq_div_pow]
  omega

/-- R81: decoding looks only at the opcode and at the fields the command uses. -/
theorem decode_packWord (opc : Byte) (idx : Nat) (data : Frame) (i : Instr)
    (h : decode (packWord opc idx data) = .ok i) : i.opcode = opc := by
  unfold decode at h
  rw [opcField_packWord] at h
  split at h <;> cases h <;> (apply BitVec.eq_of_toNat_eq; simp_all [Instr.opcode])

end Sys2Proof
end

