-- ==== Sys2Proof/Laws/PerInstr.lean ====
section
/-! SUPPORT. What holds of every command as syntax, one lemma per constructor: the `OPC` field of its word
is its opcode, and its index is the `IDX` field where it has one (`spec/30_encoding.md` R77, R79, R87). -/

namespace Sys2Proof.Laws.OpcodeField

/-- The word of a command carries its opcode in `OPC` and, where it is well formed, its index in `IDX`. -/
def Statement (i : Instr) : Prop :=
  opcField (encode i) = i.opcode
  ∧ (i.wellFormed = true → ∀ idx, i.index? = some idx → idxField (encode i) = idx)

/-- The lemma every constructor cites. -/
theorem of_fields (i : Instr) : Statement i := by
  refine ⟨opcField_packWord _ _ _, fun hwf idx hidx => ?_⟩
  simp only [Instr.wellFormed, hidx, decide_eq_true_eq] at hwf
  simp only [encode, hidx, Option.getD_some]
  rw [idxField_packWord, Nat.mod_eq_of_lt hwf]

theorem nop : Statement .nop := of_fields _
theorem stop : Statement .stop := of_fields _
theorem start : Statement .start := of_fields _
theorem rdStatus : Statement .rdStatus := of_fields _
theorem clrStatus (mask : Frame) : Statement (.clrStatus mask) := of_fields _
theorem wrGlowcode (idx : Nat) (code : Byte) : Statement (.wrGlowcode idx code) := of_fields _
theorem wrBrightcode (idx : Nat) (code : Byte) : Statement (.wrBrightcode idx code) := of_fields _
theorem rdGlowcode (idx : Nat) : Statement (.rdGlowcode idx) := of_fields _
theorem rdBrightcode (idx : Nat) : Statement (.rdBrightcode idx) := of_fields _
theorem apply : Statement .apply := of_fields _
theorem rdStep (idx : Nat) : Statement (.rdStep idx) := of_fields _
theorem rdMaxsub (idx : Nat) : Statement (.rdMaxsub idx) := of_fields _
theorem rdLamp (idx : Nat) : Statement (.rdLamp idx) := of_fields _
theorem rdDiag (idx : Nat) : Statement (.rdDiag idx) := of_fields _
theorem clrDiag (mask : Frame) : Statement (.clrDiag mask) := of_fields _

end Sys2Proof.Laws.OpcodeField
end

