-- ==== Sys2Proof/Laws/Pipeline.lean ====
section
/-! SUPPORT. What the phases of a tick can do: INTEGRATE, VALIDATE, DRIVE, SAMPLE, ADVANCE, each said once. -/

namespace Sys2Proof.Machine

/-! ### INTEGRATE -/

/-- R131 to R133: one lane, as a number. -/
theorem integrateLane_toNat (rowOff : Bool) (v step : Frame) :
    (integrateLane rowOff v step).toNat
      = if rowOff then v.toNat - step.toNat else min 65535 (v.toNat + step.toNat) := by
  cases rowOff <;> simp [integrateLane]

/-- R134. -/
theorem integrate_out_of_range {c : Nat} (h : 8 ≤ c) (rm : Byte) (s : State) : integrate c rm s = s := by
  simp [integrate, h]

/-- R130: everything INTEGRATE does. -/
theorem integrate_eq {c : Nat} (h : c < 8) (rm : Byte) (s : State) :
    integrate c rm s = { s with
      phase := .integrate
      trace := .phase .integrate :: s.trace
      matrix := integrateColumn c rm s.stepTab s.matrix } := by
  have : ¬ 8 ≤ c := by omega
  simp only [integrate, this, if_false, enter_eq]

/-- R135: the lane of lamp (`c`, `r`). -/
theorem readTable_integrateColumn {c r : Nat} (hc : c < 8) (hr : r < 8) (rm : Byte) (st m : Table 16) :
    readTable (integrateColumn c rm st m) (8 * c + r)
      = integrateLane (rm.getLsbD r) (readTable m (8 * c + r)) (readTable st (8 * c + r)) := by
  have h1 : 8 * c + r < 64 := by omega
  have h2 : (8 * c + r) / 8 = c := by omega
  have h3 : (8 * c + r) % 8 = r := by omega
  simp only [integrateColumn, readTable_tabulate, h1, if_true, h2, h3]

/-- R135: the lamps of the other columns. -/
theorem readTable_integrateColumn_other {c i : Nat} (h : i / 8 ≠ c) (rm : Byte) (st m : Table 16) :
    readTable (integrateColumn c rm st m) i = readTable m i := by
  rcases Nat.lt_or_ge i 64 with hi | hi
  · simp only [integrateColumn, readTable_tabulate, hi, if_true, h, if_false]
  · rw [readTable_of_ge _ hi, readTable_of_ge _ hi]

/-- The frame of INTEGRATE. -/
theorem integrate_frame (c : Nat) (rm : Byte) (s : State) :
    s.sameExcept (integrate c rm s) [.matrix, .phase, .trace] := by
  rcases Nat.lt_or_ge c 8 with h | h
  · rw [integrate_eq h]
    intro f hf
    cases f <;> first | rfl | exact absurd (by decide) hf
  · rw [integrate_out_of_range h]
    exact sameExcept_refl s _

/-! ### VALIDATE -/

/-- R111, R114, R115: when a sample is accepted, and for which column. -/
theorem acceptedColumn_eq_some_iff (f : Frame) (s : State) (c : Nat) :
    acceptedColumn f s = some c ↔
      c < 8 ∧ colMask f = 1#8 <<< c ∧ colMask f ≠ s.lastAcc ∧ s.cfg.consThreshold ≤ (nextCons f s).toNat := by
  unfold acceptedColumn
  cases hi : index8 (colMask f) with
  | none =>
    simp only [reduceCtorEq, false_iff]
    rintro ⟨h1, h2, -, -⟩
    rw [(index8_eq_some_iff _ c).2 ⟨h1, h2⟩] at hi
    cases hi
  | some c' =>
    obtain ⟨h1, h2⟩ := (index8_eq_some_iff _ c').1 hi
    have huniq : ∀ k, k < 8 → colMask f = 1#8 <<< k → k = c' := fun k hk hm => by
      have := (index8_eq_some_iff _ k).2 ⟨hk, hm⟩
      rw [hi] at this
      cases this
      rfl
    by_cases hl : colMask f = s.lastAcc
    · simp [hl]
    · by_cases ht : s.cfg.consThreshold ≤ (nextCons f s).toNat
      · simp only []
        rw [if_neg hl, if_pos ht, Option.some.injEq]
        constructor
        · rintro rfl
          exact ⟨h1, h2, hl, ht⟩
        · rintro ⟨hk, hm, -, -⟩; exact (huniq c hk hm).symm
      · simp [hl, ht]

/-- R118: a sample that is not accepted. -/
theorem validate_drops {f : Frame} {s : State} (h : acceptedColumn f s = none) :
    validate f s = { s with
      phase := .validate
      trace := .phase .validate :: s.trace
      cons := nextCons f s
      badframeCnt := nextBadframe f s
      rawPrev := f } := by
  unfold validate
  rw [h]
  exact recordSample_eq f s

/-- R115, R130: a sample that is accepted. -/
theorem validate_accepts {f : Frame} {s : State} {c : Nat} (h : acceptedColumn f s = some c) :
    validate f s = { s with
      phase := .integrate
      trace := .phase .integrate :: .phase .validate :: s.trace
      cons := nextCons f s
      badframeCnt := nextBadframe f s
      rawPrev := f
      lastAcc := colMask f
      matrix := integrateColumn c (rowMask f) s.stepTab s.matrix } := by
  have hc := ((acceptedColumn_eq_some_iff f s c).1 h).1
  unfold validate
  rw [h]
  simp only [integrate_eq hc, recordSample_eq]

/-- The frame of VALIDATE. -/
theorem validate_frame (f : Frame) (s : State) :
    s.sameExcept (validate f s) [.rawPrev, .cons, .badframeCnt, .lastAcc, .matrix, .phase, .trace] := by
  cases h : acceptedColumn f s with
  | none =>
    rw [validate_drops h]
    intro f hf
    cases f <;> first | rfl | exact absurd (by decide) hf
  | some c =>
    rw [validate_accepts h]
    intro f hf
    cases f <;> first | rfl | exact absurd (by decide) hf

@[simp] theorem validate_rawPrev (f : Frame) (s : State) : (validate f s).rawPrev = f := by
  cases h : acceptedColumn f s with
  | none => rw [validate_drops h]
  | some c => rw [validate_accepts h]

@[simp] theorem validate_cons (f : Frame) (s : State) : (validate f s).cons = nextCons f s := by
  cases h : acceptedColumn f s with
  | none => rw [validate_drops h]
  | some c => rw [validate_accepts h]

@[simp] theorem validate_badframeCnt (f : Frame) (s : State) :
    (validate f s).badframeCnt = nextBadframe f s := by
  cases h : acceptedColumn f s with
  | none => rw [validate_drops h]
  | some c => rw [validate_accepts h]

@[simp] theorem validate_cfg (f : Frame) (s : State) : (validate f s).cfg = s.cfg :=
  validate_frame f s .cfg (by decide)

/-- What VALIDATE reads of the state. -/
theorem acceptedColumn_congr {s t : State} (f : Frame) (h1 : t.cfg = s.cfg) (h2 : t.rawPrev = s.rawPrev)
    (h3 : t.cons = s.cons) (h4 : t.lastAcc = s.lastAcc) : acceptedColumn f t = acceptedColumn f s := by
  simp only [acceptedColumn, nextCons, h1, h2, h3, h4]
  rfl

/-- R113: the consistency counter, as a number. -/
theorem nextCons_toNat {s : State} (h : s.cfg.consMax ≤ 255) (f : Frame) :
    (nextCons f s).toNat = if f = s.rawPrev then min s.cfg.consMax (s.cons.toNat + 1) else 0 := by
  unfold nextCons
  split
  · exact satInc8_toNat h s.cons
  · rfl

/-! ### DRIVE -/

/-- R73: bit `b` of the column byte of column `c`. -/
theorem columnMask_getLsbD {c b : Nat} (hc : c < 8) (hb : b < 8) :
    (columnMask c).getLsbD b = decide (b = c) := by
  have h : ∀ b c : Fin 8, (columnMask c).getLsbD b = decide (b.val = c.val) := by decide
  exact h ⟨b, hb⟩ ⟨c, hc⟩

/-- Setting chosen bits one after another. -/
theorem foldl_setBits_getLsbD (p : Nat → Bool) {r : Nat} (hr : r < 8) (n : Nat) :
    ((List.range n).foldl (fun (lit : Byte) k => if p k then lit ||| (1#8 <<< k) else lit) 0).getLsbD r
      = (decide (r < n) && p r) := by
  induction n with
  | zero => simp
  | succ n ih =>
    rw [List.range_succ, List.foldl_append]
    simp only [List.foldl_cons, List.foldl_nil]
    generalize (List.range n).foldl (fun (lit : Byte) k => if p k then lit ||| (1#8 <<< k) else lit) 0 = lit at ih
    rcases Nat.lt_trichotomy r n with h | h | h
    · split <;> simp [ih, h, show r < n + 1 by omega]
    · subst h
      have ih : lit[r] = false := by rw [← BitVec.getLsbD_eq_getElem hr, ih]; simp
      split <;> rename_i hp <;> simp [ih, hp, hr]
    · have h2 : r - n ≠ 0 := by omega
      split <;> simp [ih, show ¬ r < n by omega, show ¬ r < n + 1 by omega, h2]

/-- R153: row `r` of a column is lit when its lamp is on. -/
theorem litRows_getLsbD (n col sub : Nat) (matrix maxsub : Table 16) {r : Nat} (hr : r < 8) :
    (litRows n col sub matrix maxsub).getLsbD r
      = lampOn n (readTable matrix (lampIndex col r)) (readTable maxsub (lampIndex col r)) sub := by
  have h := foldl_setBits_getLsbD
    (fun r => lampOn n (readTable matrix (lampIndex col r)) (readTable maxsub (lampIndex col r)) sub) hr 8
  rw [litRows, h]
  simp [hr]

@[simp] theorem oeChange_self (b : Bool) : oeChange b b = [] := by simp [oeChange]

/-- R153: everything AGFRAME does. -/
theorem agframe_eq (s : State) :
    agframe s = { s with
      phase := .drive
      out := { s.out with soClk := false, soData := false, soLatch := false, soOeN := false }
      lastOut := afterglowFrame s
      trace := oeChange s.out.soOeN false ++ .emit (afterglowFrame s) :: .phase .drive :: s.trace } := by
  simp only [agframe, emit_eq, enter_eq]

/-- R152: everything BLANK does. -/
theorem blank_eq (s : State) :
    blank s = { s with
      phase := .blank
      out := { s.out with soClk := false, soData := false, soLatch := false, soOeN := false }
      lastOut := 0
      trace := oeChange s.out.soOeN false ++ .emit 0 :: .phase .blank :: s.trace } := by
  simp only [blank, emit_eq, enter_eq, blankFrame]

/-- The frame AGFRAME emits is a function of these pieces of the state. -/
theorem afterglowFrame_congr {s t : State} (h1 : t.cfg = s.cfg) (h2 : t.tmode = s.tmode)
    (h3 : t.tickCol = s.tickCol) (h4 : t.subIdx = s.subIdx) (h5 : t.matrix = s.matrix)
    (h6 : t.maxsubTab = s.maxsubTab) : afterglowFrame t = afterglowFrame s := by
  simp only [afterglowFrame, h1, h2, h3, h4, h5, h6]

/-- R151: DRIVE in afterglow mode. -/
theorem drive_afterglow {s : State} (h : s.agT = true) :
    drive s = { s with
      phase := .drive
      out := { s.out with soClk := false, soData := false, soLatch := false, soOeN := false }
      lastOut := afterglowFrame s
      trace := .emit (afterglowFrame s) :: .phase .drive
        :: (oeChange s.out.soOeN false ++ .emit 0 :: .phase .blank :: s.trace) } := by
  have hf : afterglowFrame (blank s) = afterglowFrame s := by
    rw [blank_eq]
    rfl
  have hd : drive s = agframe (blank s) := by simp only [drive, h, if_true]
  rw [hd, agframe_eq, hf]
  simp only [blank_eq, oeChange_self, List.nil_append]

/-- R157: DRIVE in pass-through mode when it emits. -/
theorem drive_passEmits {s : State} (h : s.agT = false) (he : passEmits s = true) :
    drive s = { s with
      phase := .drive
      out := { s.out with soClk := false, soData := false, soLatch := false, soOeN := false }
      lastOut := s.rawPrev
      trace := oeChange s.out.soOeN false ++ .emit s.rawPrev :: .phase .drive :: s.trace } := by
  simp only [drive, h, Bool.false_eq_true, if_false, pass, he, if_true, emit_eq, enter_eq]

/-- R157: DRIVE in pass-through mode when it does not. -/
theorem drive_passSkips {s : State} (h : s.agT = false) (he : passEmits s = false) :
    drive s = { s with phase := .drive, trace := .phase .drive :: s.trace } := by
  simp only [drive, h, Bool.false_eq_true, if_false, pass, he, enter_eq]

/-- R151: DRIVE is one of these three. -/
theorem drive_cases (s : State) :
    (s.agT = true ∧ drive s = { s with
      phase := .drive
      out := { s.out with soClk := false, soData := false, soLatch := false, soOeN := false }
      lastOut := afterglowFrame s
      trace := .emit (afterglowFrame s) :: .phase .drive
        :: (oeChange s.out.soOeN false ++ .emit 0 :: .phase .blank :: s.trace) })
    ∨ (s.agT = false ∧ passEmits s = true ∧ drive s = { s with
      phase := .drive
      out := { s.out with soClk := false, soData := false, soLatch := false, soOeN := false }
      lastOut := s.rawPrev
      trace := oeChange s.out.soOeN false ++ .emit s.rawPrev :: .phase .drive :: s.trace })
    ∨ (s.agT = false ∧ passEmits s = false
      ∧ drive s = { s with phase := .drive, trace := .phase .drive :: s.trace }) := by
  rcases Bool.eq_false_or_eq_true s.agT with h | h
  · exact .inl ⟨h, drive_afterglow h⟩
  · rcases Bool.eq_false_or_eq_true (passEmits s) with he | he
    · exact .inr (.inl ⟨h, he, drive_passEmits h he⟩)
    · exact .inr (.inr ⟨h, he, drive_passSkips h he⟩)

/-- The frame of DRIVE. -/
theorem drive_frame (s : State) :
    s.sameExcept (drive s) [.phase, .trace, .lastOut, .soOeN, .soClk, .soData, .soLatch] := by
  rcases drive_cases s with ⟨-, h⟩ | ⟨-, -, h⟩ | ⟨-, -, h⟩ <;> rw [h] <;> intro f hf <;>
    cases f <;> first | rfl | exact absurd (by decide) hf

/-- After DRIVE the outputs are enabled (R157: PASS emits when they are not). -/
theorem drive_soOeN (s : State) : (drive s).out.soOeN = false := by
  rcases drive_cases s with ⟨-, h⟩ | ⟨-, -, h⟩ | ⟨-, he, h⟩ <;> rw [h]
  have : s.out.soOeN = false := by
    simp only [passEmits, Bool.or_eq_false_iff] at he
    exact he.2
  exact this

/-! ### SAMPLE -/

/-- R101, R102: the transaction returns what the lines hold. -/
@[simp] theorem shiftInValue_eq (v : Frame) : shiftInValue v = v := by
  have step : ∀ (n : Nat) (chain acc : Frame), n ≤ 16 →
      ∀ i, i < 16 → (readBits n chain acc).getLsbD i
        = (acc.getLsbD i || (decide (i < n) && chain.getLsbD (16 - n + i))) := by
    intro n
    induction n with
    | zero => intro chain acc _ i _; simp [readBits]
    | succ n ih =>
      intro chain acc hn i hi
      rw [readBits, ih _ _ (by omega) i hi]
      simp only [BitVec.getLsbD_or, BitVec.getLsbD_shiftLeft, BitVec.getLsbD_setWidth, BitVec.msb_eq_getLsbD_last]
      rcases Nat.lt_trichotomy i n with h | h | h
      · have h1 : ¬ n ≤ i := by omega
        have h2 : 16 - n + i - 1 = 16 - (n + 1) + i := by omega
        have h3 : 16 - n + i < 16 := by omega
        have h4 : ¬ 16 - n + i < 1 := by omega
        have h5 : i < n + 1 := by omega
        simp [h, h2, h3, h4, h5]
      · subst h
        have h1 : 16 - (i + 1) + i = 15 := by omega
        rw [h1]
        simp [hi]
      · have h1 : ¬ i < n := by omega
        have h2 : ¬ i < n + 1 := by omega
        have h3 : i - n ≠ 0 := by omega
        simp [h1, h2, h3]
  apply BitVec.eq_of_getLsbD_eq
  intro i hi
  rw [shiftInValue, step 16 v 0 (by omega) i hi]
  simp [hi]

/-- R100, R103: the sample a tick takes. -/
theorem sampleValue_eq (s : State) :
    sampleValue s = if s.testT then s.pins.tsrcFrame else s.pins.siLines := by
  simp only [sampleValue, shiftInValue_eq]

/-- R105: everything SAMPLE does. -/
theorem sample_eq (s : State) :
    sample s = { s with
      phase := .sample
      out := if s.testT then s.out else { s.out with siClk := false, siLoadN := true }
      trace := (if s.testT then [] else [.shiftIn s.pins.siLines]) ++ .phase .sample :: s.trace } := by
  cases h : s.testT <;> simp [sample, h, shiftIn_eq]

/-- The frame of SAMPLE. -/
theorem sample_frame (s : State) : s.sameExcept (sample s) [.phase, .trace, .siLoadN, .siClk] := by
  rw [sample_eq]
  intro f hf
  rcases Bool.eq_false_or_eq_true s.testT with h | h <;> cases f <;>
    first | exact absurd (by decide) hf | simp only [State.agreesOn, h, if_true, if_false, Bool.false_eq_true]

/-! ### ADVANCE -/

/-- R175: the column after a tick. -/
theorem nextTickCol_toNat (col : BitVec 3) : (nextTickCol col).toNat = (col.toNat + 1) % 8 := by
  have h := col.isLt
  unfold nextTickCol
  split
  · next hc => rw [hc]; rfl
  · next hc => rw [BitVec.toNat_add]; rfl

/-- R175: the sub-cycle index after a tick. -/
theorem nextSubIdx_toNat {n : Nat} (h1 : 1 ≤ n) (h2 : n ≤ 256) (col : BitVec 3) (sub : Byte) :
    (nextSubIdx n col sub).toNat = if col = 7 then (sub.toNat + 1) % n else sub.toNat := by
  unfold nextSubIdx
  split
  · have : (sub.toNat + 1) % n < n := Nat.mod_lt _ (by omega)
    rw [BitVec.toNat_ofNat]
    omega
  · rfl

/-- The frame of ADVANCE. -/
theorem advance_frame (s : State) : s.sameExcept (advance s) [.tickCol, .subIdx, .phase, .trace] := by
  rw [advance_eq]
  intro f hf
  cases f <;> first | rfl | exact absurd (by decide) hf

end Sys2Proof.Machine
end

