-- ==== Sys2Proof/Laws/Tick.lean ====
section
/-! SUPPORT. What a whole tick can do: its phases up to ADVANCE, the cycles it takes, and CHECKIN. -/

namespace Sys2Proof.Machine

/-- R100, R183: the sample a tick from `s` takes. -/
def tickSample (s : State) : Frame := if s.testSync then s.pins.tsrcFrame else s.pins.siLines

theorem validate_matrix (f : Frame) (s : State) :
    (validate f s).matrix = match acceptedColumn f s with
      | none => s.matrix
      | some c => integrateColumn c (rowMask f) s.stepTab s.matrix := by
  cases h : acceptedColumn f s with
  | none => rw [validate_drops h]
  | some c => rw [validate_accepts h]

theorem validate_lastAcc (f : Frame) (s : State) :
    (validate f s).lastAcc = match acceptedColumn f s with
      | none => s.lastAcc
      | some _ => colMask f := by
  cases h : acceptedColumn f s with
  | none => rw [validate_drops h]
  | some c => rw [validate_accepts h]

theorem validate_trace (f : Frame) (s : State) :
    (validate f s).trace = (match acceptedColumn f s with
      | none => [.phase .validate]
      | some _ => [.phase .integrate, .phase .validate]) ++ s.trace := by
  cases h : acceptedColumn f s with
  | none => rw [validate_drops h]; rfl
  | some c => rw [validate_accepts h]; rfl

/-- What VALIDATE makes of a sample depends on these pieces of the state only. -/
theorem validate_congr {s t : State} (f : Frame) (h1 : t.cfg = s.cfg) (h2 : t.rawPrev = s.rawPrev)
    (h3 : t.cons = s.cons) (h4 : t.lastAcc = s.lastAcc) (h5 : t.matrix = s.matrix) (h6 : t.stepTab = s.stepTab)
    (h7 : t.badframeCnt = s.badframeCnt) :
    (validate f t).matrix = (validate f s).matrix ∧ (validate f t).lastAcc = (validate f s).lastAcc
    ∧ (validate f t).cons = (validate f s).cons ∧ (validate f t).badframeCnt = (validate f s).badframeCnt := by
  have ha := acceptedColumn_congr f h1 h2 h3 h4
  refine ⟨?_, ?_, ?_, ?_⟩
  · rw [validate_matrix, validate_matrix, ha, h5, h6]
  · rw [validate_lastAcc, validate_lastAcc, ha, h4]
  · rw [validate_cons, validate_cons, nextCons, nextCons, h1, h2, h3]
  · rw [validate_badframeCnt, validate_badframeCnt, nextBadframe, nextBadframe, h1, h7]

/-! ### The phases -/

/-- The state in which a tick drives, samples and validates. -/
def tickDriven (s : State) : State := drive (tickStart s)

/-- The phases, with the sample named. -/
theorem tickPhases_eq (s : State) : tickPhases s = advance (validate (tickSample s) (sample (tickDriven s))) := by
  have h : sampleValue (tickDriven s) = tickSample s := by
    rw [sampleValue_eq, tickSample, tickDriven, drive_frame (tickStart s) .testT (by decide),
      drive_frame (tickStart s) .pins (by decide)]
    rfl
  rw [tickPhases, ← h]
  rfl

/-- What the phases of a tick can change. -/
def tickPhaseFields : List Field :=
  [.phase, .trace, .tickPending, .durCur, .agT, .testT, .lastOut, .soOeN, .soClk, .soData, .soLatch, .siLoadN,
   .siClk, .rawPrev, .cons, .badframeCnt, .lastAcc, .matrix, .tickCol, .subIdx]

theorem tickStart_frame (s : State) :
    s.sameExcept (tickStart s) [.trace, .tickPending, .durCur, .agT, .testT] := by
  intro f hf
  cases f <;> first | rfl | exact absurd (by decide) hf

theorem tickDriven_frame (s : State) : s.sameExcept (tickDriven s) tickPhaseFields :=
  sameExcept_trans (sameExcept_mono (tickStart_frame s) (by decide))
    (sameExcept_mono (drive_frame (tickStart s)) (by decide))

/-- The frame of the state VALIDATE runs in. -/
theorem tickSampled_frame (s : State) : s.sameExcept (sample (tickDriven s))
    [.phase, .trace, .tickPending, .durCur, .agT, .testT, .lastOut, .soOeN, .soClk, .soData, .soLatch, .siLoadN,
     .siClk] :=
  sameExcept_trans (sameExcept_mono (tickStart_frame s) (by decide))
    (sameExcept_trans (sameExcept_mono (drive_frame (tickStart s)) (by decide))
      (sameExcept_mono (sample_frame (tickDriven s)) (by decide)))

/-- The frame of the phases of a tick. -/
theorem tickPhases_frame (s : State) : s.sameExcept (tickPhases s) tickPhaseFields := by
  rw [tickPhases_eq]
  exact sameExcept_trans (sameExcept_mono (tickSampled_frame s) (by decide))
    (sameExcept_trans (sameExcept_mono (validate_frame _ _) (by decide))
      (sameExcept_mono (advance_frame _) (by decide)))

/-- What the phases of a tick leave in the pieces they write. -/
theorem tickPhases_writes (s : State) :
    (tickPhases s).phase = .advance
    ∧ (tickPhases s).tickPending = false ∧ (tickPhases s).durCur = 0
    ∧ (tickPhases s).agT = s.agSync ∧ (tickPhases s).testT = s.testSync
    ∧ (tickPhases s).rawPrev = tickSample s
    ∧ (tickPhases s).matrix = (validate (tickSample s) s).matrix
    ∧ (tickPhases s).lastAcc = (validate (tickSample s) s).lastAcc
    ∧ (tickPhases s).cons = nextCons (tickSample s) s
    ∧ (tickPhases s).badframeCnt = nextBadframe (tickSample s) s
    ∧ (tickPhases s).tickCol = nextTickCol s.tickCol
    ∧ (tickPhases s).subIdx = nextSubIdx (subCycles s.cfg s.tmode) s.tickCol s.subIdx
    ∧ (tickPhases s).lastOut = (tickDriven s).lastOut
    ∧ (tickPhases s).out.soOeN = false := by
  have hs := tickSampled_frame s
  have hv := validate_frame (tickSample s) (sample (tickDriven s))
  have hd := drive_frame (tickStart s)
  have hm := sample_frame (tickDriven s)
  obtain ⟨c1, c2, c3, c4⟩ := validate_congr (tickSample s) (hs .cfg (by decide)) (hs .rawPrev (by decide))
    (hs .cons (by decide)) (hs .lastAcc (by decide)) (hs .matrix (by decide)) (hs .stepTab (by decide))
    (hs .badframeCnt (by decide))
  rw [validate_cons] at c3
  rw [validate_badframeCnt] at c4
  have keep : ∀ {f : Field}, f ∉ [Field.rawPrev, .cons, .badframeCnt, .lastAcc, .matrix, .phase, .trace] →
      f ∉ [Field.phase, .trace, .siLoadN, .siClk] →
      f ∉ [Field.phase, .trace, .lastOut, .soOeN, .soClk, .soData, .soLatch] →
      (tickStart s).agreesOn (validate (tickSample s) (sample (tickDriven s))) f :=
    fun h1 h2 h3 => agreesOn_trans (hd _ h3) (agreesOn_trans (hm _ h2) (hv _ h1))
  rw [tickPhases_eq, advance_eq]
  refine ⟨rfl, ?_, ?_, ?_, ?_, validate_rawPrev _ _, c1, c2, ?_, ?_, ?_, ?_, ?_, ?_⟩
  · exact keep (f := .tickPending) (by decide) (by decide) (by decide)
  · exact keep (f := .durCur) (by decide) (by decide) (by decide)
  · exact keep (f := .agT) (by decide) (by decide) (by decide)
  · exact keep (f := .testT) (by decide) (by decide) (by decide)
  · rw [validate_cons] at c3
    rw [validate_cons]
    exact c3
  · rw [validate_badframeCnt] at c4
    rw [validate_badframeCnt]
    exact c4
  · have h := keep (f := .tickCol) (by decide) (by decide) (by decide)
    exact congrArg nextTickCol h
  · have h1 := keep (f := .tickCol) (by decide) (by decide) (by decide)
    have h2 := keep (f := .subIdx) (by decide) (by decide) (by decide)
    have h3 := keep (f := .cfg) (by decide) (by decide) (by decide)
    have h4 := keep (f := .tmode) (by decide) (by decide) (by decide)
    simp only [State.agreesOn] at h1 h2 h3 h4
    simp only [h1, h2, h3, h4]
    rfl
  · exact Eq.trans (hv .lastOut (by decide)) (hm .lastOut (by decide))
  · exact Eq.trans (hv .soOeN (by decide)) (Eq.trans (hm .soOeN (by decide)) (drive_soOeN (tickStart s)))

/-! ### The time a tick takes -/

theorem tickTime_le (s : State) : tickTime s ≤ s.cfg.tickWcet := Nat.min_le_right _ _

/-- R8: the tick period exceeds a tick and a command. -/
theorem tickPeriod_gt {c : Config} (h : configValid c = true) (m : Bool) :
    c.tickWcet + c.cmdWcet < tickPeriod c m := by
  simp only [configValid, Bool.and_eq_true, decide_eq_true_eq] at h
  unfold tickPeriod
  cases m
  · simp only [Bool.false_eq_true, if_false]
    omega
  · simp only [if_true]
    omega

/-- R8: the watchdog timeout exceeds a period, a tick and a command. -/
theorem wdtCycles_gt {c : Config} (h : configValid c = true) (m : Bool) :
    tickPeriod c m + c.tickWcet + c.cmdWcet < c.wdtCycles := by
  simp only [configValid, Bool.and_eq_true, decide_eq_true_eq] at h
  unfold tickPeriod
  cases m
  · simp only [Bool.false_eq_true, if_false]
    omega
  · simp only [if_true]
    omega

/-- The state whose cycles a tick counts (R177). -/
def tickTimed (s : State) : State := elapse (tickTime s) ((tickPhases s).enter .checkin)

theorem tick_eq (s : State) :
    tick s = if wdtDue (tickTimed s) then wdtExpire (tickTimed s)
      else { checkin (tickTimed s) with phase := .idle } := rfl

/-- A tick in time: it misses no deadline, and the watchdog does not expire in it. -/
theorem tickTimed_inTime {s : State} (hc : configValid s.cfg = true) (ht : s.InTime) (hr : s.run = true)
    (hp : s.tickPending = true) :
    wdtDue (tickTimed s) = false
    ∧ (tickTimed s).timer = s.timer + tickTime s ∧ (tickTimed s).tickPending = false
    ∧ (tickTimed s).overrunCnt = s.overrunCnt ∧ (tickTimed s).errOverrun = s.errOverrun
    ∧ (tickTimed s).lastEc = s.lastEc ∧ (tickTimed s).trace = .phase .checkin :: (tickPhases s).trace := by
  have hf := tickPhases_frame s
  have h1 : (tickPhases s).run = s.run := hf .run (by decide)
  have h2 : (tickPhases s).cfg = s.cfg := hf .cfg (by decide)
  have h3 : (tickPhases s).tmode = s.tmode := hf .tmode (by decide)
  have h4 : (tickPhases s).timer = s.timer := hf .timer (by decide)
  have h5 : (tickPhases s).wdtCnt = s.wdtCnt := hf .wdtCnt (by decide)
  have h6 : (tickPhases s).overrunCnt = s.overrunCnt := hf .overrunCnt (by decide)
  have h7 : (tickPhases s).errOverrun = s.errOverrun := hf .errOverrun (by decide)
  have h8 : (tickPhases s).lastEc = s.lastEc := hf .lastEc (by decide)
  have h9 : (tickPhases s).tickPending = false := (tickPhases_writes s).2.1
  have g1 := tickPeriod_gt hc s.tmode
  have g2 := wdtCycles_gt hc s.tmode
  have g3 := tickTime_le s
  have g4 := ht.pending_le hr hp
  have g5 := ht.wdt_le hr
  rw [hp] at g5
  simp only [if_true] at g5
  have hb := elapse_before_expiry (tickTime s) (s := (tickPhases s).enter .checkin)
    (by simp only [enter_eq, h1, hr]) (by simp only [enter_eq, h2, h3, h4]; omega)
    (.inr (.inr (by simp [enter_eq])))
  obtain ⟨b1, b2, b3, b4, b5, b6⟩ := hb
  simp only [enter_eq] at b1 b2 b3 b4 b5 b6
  refine ⟨?_, ?_, ?_, ?_, ?_, ?_, ?_⟩
  · have hw : (tickTimed s).wdtCnt ≤ s.wdtCnt + tickTime s := by
      rw [tickTimed, elapse_wdtCnt]
      simp only [enter_eq, h5]
      split <;> omega
    have hcfg : (tickTimed s).cfg = s.cfg := by rw [tickTimed, elapse_cfg]; exact h2
    have : ¬ s.cfg.wdtCycles ≤ (tickTimed s).wdtCnt := by omega
    simp only [wdtDue, hcfg, this, decide_false, Bool.and_false]
  · rw [tickTimed, enter_eq, b1, h4]
  · rw [tickTimed, enter_eq, b2, h9]
  · rw [tickTimed, enter_eq, b3, h6]
  · rw [tickTimed, enter_eq, b4, h7]
  · rw [tickTimed, enter_eq, b5, h8]
  · rw [tickTimed, enter_eq, b6]

/-- R174: a tick in time ends with CHECKIN and returns to IDLE. -/
theorem tick_inTime {s : State} (hc : configValid s.cfg = true) (ht : s.InTime) (hr : s.run = true)
    (hp : s.tickPending = true) : tick s = { checkin (tickTimed s) with phase := .idle } := by
  rw [tick_eq, (tickTimed_inTime hc ht hr hp).1]
  rfl

/-- The frame of the state CHECKIN runs in. -/
theorem tickTimed_frame (s : State) : s.sameExcept (tickTimed s) (tickPhaseFields ++ clockFields) := by
  have h1 : (tickPhases s).sameExcept ((tickPhases s).enter .checkin) [.phase, .trace] := by
    intro f hf
    cases f <;> first | rfl | exact absurd (by decide) hf
  exact sameExcept_trans (sameExcept_mono (tickPhases_frame s) fun _ hf => List.mem_append_left _ hf)
    (sameExcept_trans (sameExcept_mono h1 (by decide))
      (sameExcept_mono (elapse_frame _ _) fun _ hf => List.mem_append_right _ hf))

end Sys2Proof.Machine
end

