-- ==== Sys2Proof/Laws/Step.lean ====
section
/-! SUPPORT. What a step can do: every case of it, with the condition under which it happens. -/

namespace Sys2Proof.Machine

/-! ### Which event comes next -/

theorem nextEvent_reset {s : State} (h : s.pins.resetN = false ∨ s.inReset = true) : s.nextEvent = .reset := by
  rcases h with h | h <;> simp [State.nextEvent, h]

/-- R227: everything that decides the next event. -/
theorem nextEvent_cases (s : State) :
    (s.nextEvent = .reset ∧ (s.pins.resetN = false ∨ s.inReset = true))
    ∨ ((s.pins.resetN = true ∧ s.inReset = false) ∧
      ((s.nextEvent = .wdtExpire ∧ (wdtDue s = true ∨ (s.pins.wdtFault = true ∧ s.wdtEn = true)))
      ∨ ((wdtDue s = false ∧ (s.pins.wdtFault = false ∨ s.wdtEn = false)) ∧
        ((s.nextEvent = .tick ∧ s.run = true ∧ s.tickPending = true ∧ s.phase = .idle)
        ∨ (s.nextEvent = .tmodeChange ∧ (s.tmodeSync ≠ s.tmode ∧ s.pins.tmodeLater = false)
            ∧ s.tickPending = false ∧ s.phase = .idle)
        ∨ (s.nextEvent = .hostCmd ∧ s.pins.cmdValid = true ∧ s.tickPending = false ∧ s.phase = .idle
            ∧ (s.tmodeSync = s.tmode ∨ s.pins.tmodeLater = true))
        ∨ (s.nextEvent = .clock
            ∧ (s.phase = .idle → s.tickPending = true → s.run = false)
            ∧ (s.phase = .idle → s.tickPending = false →
              (s.tmodeSync = s.tmode ∨ s.pins.tmodeLater = true) ∧ s.pins.cmdValid = false)))))) := by
  rcases Bool.eq_false_or_eq_true s.pins.resetN with h1 | h1
  case inr => exact .inl ⟨nextEvent_reset (.inl h1), .inl h1⟩
  rcases Bool.eq_false_or_eq_true s.inReset with h2 | h2
  · exact .inl ⟨nextEvent_reset (.inr h2), .inr h2⟩
  refine .inr ⟨⟨h1, h2⟩, ?_⟩
  by_cases h3 : wdtDue s = true ∨ (s.pins.wdtFault = true ∧ s.wdtEn = true)
  · refine .inl ⟨?_, h3⟩
    rcases h3 with h3 | ⟨h3, h4⟩ <;> simp [State.nextEvent, *]
  have h4 : wdtDue s = false ∧ (s.pins.wdtFault = false ∨ s.wdtEn = false) := by
    rcases Bool.eq_false_or_eq_true (wdtDue s) with h | h
    · exact absurd (.inl h) h3
    · refine ⟨h, ?_⟩
      rcases Bool.eq_false_or_eq_true s.pins.wdtFault with h | h
      · rcases Bool.eq_false_or_eq_true s.wdtEn with h' | h'
        · exact absurd (.inr ⟨h, h'⟩) h3
        · exact .inr h'
      · exact .inl h
  have h5 : (wdtDue s || (s.pins.wdtFault && s.wdtEn)) = false := by
    rcases h4 with ⟨h, h' | h'⟩ <;> simp [h, h']
  refine .inr ⟨h4, ?_⟩
  have hev : s.nextEvent
      = if s.run && s.tickPending && decide (s.phase = .idle) then Event.tick
        else if tmodeDue s then .tmodeChange
        else if s.pins.cmdValid && s.cmdReady then .hostCmd
        else .clock := by
    simp only [State.nextEvent, h1, h2, h5, Bool.not_true, Bool.or_self, Bool.false_eq_true, if_false]
  have hready : s.cmdReady = (!s.tickPending && decide (s.phase = .idle)) := by
    simp only [State.cmdReady, h1, h2, Bool.not_false, Bool.true_and]
  rw [hev, hready]
  by_cases hp : s.phase = .idle
  · rcases Bool.eq_false_or_eq_true s.tickPending with ht | ht
    · rcases Bool.eq_false_or_eq_true s.run with hr | hr
      · exact .inl ⟨by simp [hp, ht, hr], hr, ht, hp⟩
      · exact .inr (.inr (.inr ⟨by simp [tmodeDue, ht, hr], fun _ _ => hr, fun _ h => by rw [ht] at h; cases h⟩))
    · by_cases hm : s.tmodeSync = s.tmode ∨ s.pins.tmodeLater = true
      · have hn : tmodeDue s = false := by rcases hm with hm | hm <;> simp [tmodeDue, hm]
        rcases Bool.eq_false_or_eq_true s.pins.cmdValid with hv | hv
        · exact .inr (.inr (.inl ⟨by simp [hp, ht, hn, hv], hv, ht, hp, hm⟩))
        · exact .inr (.inr (.inr ⟨by simp [ht, hn, hv], fun _ h => (by rw [ht] at h; cases h),
            fun _ _ => ⟨hm, hv⟩⟩))
      · have hd : s.tmodeSync ≠ s.tmode ∧ s.pins.tmodeLater = false :=
          ⟨fun h => hm (.inl h), Bool.eq_false_iff.2 fun h => hm (.inr h)⟩
        exact .inr (.inl ⟨by simp [tmodeDue, hp, ht, hd], hd, ht, hp⟩)
  · exact .inr (.inr (.inr ⟨by simp [tmodeDue, hp], fun h => absurd h hp, fun h => absurd h hp⟩))

/-! ### The events -/

/-- R190: a host command ends in one of two ways. -/
theorem hostCmd_cases (s : State) :
    (wdtDue (commandState s) = true ∧ hostCmd s = .next (wdtExpire (commandState s)))
    ∨ (wdtDue (commandState s) = false ∧ ∃ v, execWord s.pins.cmd (commandState s) = .next v
      ∧ hostCmd s = .next (logCommand s.pins.cmd v)) := by
  rcases Bool.eq_false_or_eq_true (wdtDue (commandState s)) with h | h
  · exact .inl ⟨h, by simp only [hostCmd, h, if_true]⟩
  · obtain ⟨v, hv⟩ := execWord_total s.pins.cmd (commandState s)
    exact .inr ⟨h, v, hv, by simp only [hostCmd, h, Bool.false_eq_true, if_false, hv, mapNext]⟩

/-- A step from `s` to the state `u`, before the environment's next inputs. -/
inductive Steps (s : State) : State → Prop
  | reset (hev : s.nextEvent = .reset) (h : s.pins.resetN = false ∨ s.inReset = true) : Steps s (resetEvent s)
  | wdtExpire (hev : s.nextEvent = .wdtExpire)
      (h : wdtDue s = true ∨ (s.pins.wdtFault = true ∧ s.wdtEn = true)) : Steps s (wdtExpire s)
  | tick (hev : s.nextEvent = .tick) (hw : wdtDue s = false) (hr : s.run = true) (hp : s.tickPending = true)
      (hi : s.phase = .idle) : Steps s (tick s)
  | tmodeChange (hev : s.nextEvent = .tmodeChange) (hw : wdtDue s = false) (hm : s.tmodeSync ≠ s.tmode)
      (hl : s.pins.tmodeLater = false)
      (hp : s.tickPending = false) (hi : s.phase = .idle) : Steps s (tmodeChange s)
  | hostCmd (hev : s.nextEvent = .hostCmd) (hw : wdtDue s = false) (hp : s.tickPending = false)
      (hi : s.phase = .idle) (hd : wdtDue (commandState s) = false) (v : State)
      (hv : execWord s.pins.cmd (commandState s) = .next v) : Steps s (logCommand s.pins.cmd v)
  | hostCmdExpires (hev : s.nextEvent = .hostCmd) (hw : wdtDue s = false) (hp : s.tickPending = false)
      (hi : s.phase = .idle) (hd : wdtDue (commandState s) = true) : Steps s (Machine.wdtExpire (commandState s))
  | clock (hev : s.nextEvent = .clock) (hw : wdtDue s = false)
      (h : s.phase = .idle → s.tickPending = true → s.run = false) : Steps s (clockCycle s)

/-- Everything a step can do. -/
theorem step_cases {s t : State} (h : step s = .next t) :
    configValid s.cfg = true ∧ ∃ u, Steps s u ∧ t = nextInputs u := by
  unfold step stepEvent at h
  rcases Bool.eq_false_or_eq_true (configValid s.cfg) with hc | hc
  case inr => rw [hc] at h; cases h
  rw [hc] at h
  simp only [if_true] at h
  refine ⟨hc, ?_⟩
  have fin : ∀ {u}, runEvent s = .next u → Steps s u → ∃ u, Steps s u ∧ t = nextInputs u := by
    intro u hu hs
    rw [hu] at h
    cases h
    exact ⟨u, hs, rfl⟩
  rcases nextEvent_cases s with ⟨e, h1⟩ | ⟨-, ⟨e, h1⟩ | ⟨⟨hw, -⟩, ⟨e, h1, h2, h3⟩ | ⟨e, h1, h2, h3⟩ | ⟨e, h1, h2, h3, -⟩ | ⟨e, h1, -⟩⟩⟩
  · exact fin (by simp only [runEvent, e]) (.reset e h1)
  · exact fin (by simp only [runEvent, e]) (.wdtExpire e h1)
  · exact fin (by simp only [runEvent, e]) (.tick e hw h1 h2 h3)
  · exact fin (by simp only [runEvent, e]) (.tmodeChange e hw h1.1 h1.2 h2 h3)
  · rcases hostCmd_cases s with ⟨hd, hh⟩ | ⟨hd, v, hv, hh⟩
    · exact fin (by simp only [runEvent, e, hh]) (.hostCmdExpires e hw h2 h3 hd)
    · exact fin (by simp only [runEvent, e, hh]) (.hostCmd e hw h2 h3 hd v hv)
  · exact fin (by simp only [runEvent, e]) (.clock e hw h1)

/-- The environment's next inputs change nothing else. -/
theorem nextInputs_frame (s : State) : s.sameExcept (nextInputs s) [.pins, .agenda] := by
  unfold nextInputs
  split
  · exact sameExcept_refl s _
  · intro f hf
    cases f <;> first | rfl | exact absurd (by decide) hf

/-- Taking a command lowers `CMD_VALID` and starts its trace. -/
theorem takeCommand_frame (s : State) : s.sameExcept (takeCommand s) [.pins, .trace] := by
  intro f hf
  cases f <;> first | rfl | exact absurd (by decide) hf

/-- The frame of the cycles a command takes. -/
theorem commandState_frame (s : State) : s.sameExcept (commandState s) ([.pins, .trace] ++ clockFields) :=
  sameExcept_trans (sameExcept_mono (takeCommand_frame s) fun _ hf => List.mem_append_left _ hf)
    (sameExcept_mono (elapse_frame _ _) fun _ hf => List.mem_append_right _ hf)

theorem logCommand_frame (w : Word) (s : State) : s.sameExcept (logCommand w s) [.trace] := by
  intro f hf
  cases f <;> first | rfl | exact absurd (by decide) hf

/-- R240: what a reset step leaves, its bookkeeping apart. -/
theorem resetEvent_frame (s : State) :
    (State.afterReset s.cfg .pin s.pins).sameExcept (resetEvent s) [.inReset, .agenda, .trace] := by
  unfold resetEvent
  split <;> intro f hf <;> cases f <;> first | rfl | exact absurd (by decide) hf

/-- R180, R241: what a watchdog expiry leaves. -/
theorem wdtExpire_frame (s : State) :
    (State.afterReset s.cfg .wdt s.pins).sameExcept (wdtExpire s) [.agenda, .trace] := by
  intro f hf
  cases f <;> first | rfl | exact absurd (by decide) hf

/-- R180: the trace of a watchdog expiry. -/
theorem wdtExpire_trace (s : State) :
    (wdtExpire s).trace
      = .wdtReset false :: (oeChange s.out.soOeN true ++ .reset .wdt :: .wdtReset true :: .event .wdtExpire :: s.trace) :=
  rfl

/-- R171: between two commands' cycles no deadline is missed, under R8. -/
theorem cmdTime_le {s : State} (h : s.run = true) : cmdTime s ≤ s.cfg.cmdWcet := by
  simp only [cmdTime, h, if_true]
  exact Nat.min_le_right _ _

end Sys2Proof.Machine
end

