-- ==== Sys2Proof/Machine/Assembler.lean ====
section
/-! DEFINITION. The assembler text of `spec/30_encoding.md` R87 and the pseudo-instructions of R88.  It is
the bench's notation, no part of the block (`spec/92_eei_decisions.md` D39); the machine never
calls it.  Text is a list of characters. -/

namespace Sys2Proof

/-- R87: a strap a bench directive can set. -/
inductive Strap where
  | tmode
  | ag
  | test
  | tsel
  deriving DecidableEq, Repr

/-- R87: what one line stands for. -/
inductive Line where
  /-- a command -/
  | command (i : Instr)
  /-- `.word w`: a raw word -/
  | word (w : Word)
  /-- `.strap NAME=v, ...` -/
  | strap (levels : List (Strap × Bool))
  /-- `.reset` -/
  | reset
  /-- `.tick s` and `.ticks k, s` -/
  | ticks (k : Nat) (s : Frame)
  deriving DecidableEq, Repr

/-- R88: the pseudo-instructions. -/
inductive Pseudo where
  | lampcfg (idx : Nat) (glow bright : Byte)
  | fillglow (glow : Byte)
  | fillbright (bright : Byte)
  | clrerr
  | clrdiags
  | restart
  deriving DecidableEq, Repr

/-- R88: their expansions, plain sequences of commands. -/
def Pseudo.expand : Pseudo → List Instr
  | .lampcfg idx glow bright => [.wrGlowcode idx glow, .wrBrightcode idx bright]
  | .fillglow glow => (List.range 64).map fun i => .wrGlowcode i glow
  | .fillbright bright => (List.range 64).map fun i => .wrBrightcode i bright
  | .clrerr => [.clrStatus 0xFFFF]
  | .clrdiags => [.clrDiag 0x0007]
  | .restart => [.stop, .start]

/-- R87: an assembler refuses `IDX > 255`; codes and masks have their width. -/
def assemble (i : Instr) : Option Word := if i.wellFormed then some (encode i) else none

/-! ### Numbers and operands -/

/-- The value of a digit character. -/
def digitValue (c : Char) : Option Nat :=
  let n := c.toNat
  if 48 ≤ n ∧ n ≤ 57 then some (n - 48)
  else if 65 ≤ n ∧ n ≤ 70 then some (n - 55)
  else if 97 ≤ n ∧ n ≤ 102 then some (n - 87)
  else none

/-- The digits `cs` in base `base`, most significant first, after the value `acc`. -/
def digitsValue (base : Nat) : List Char → Nat → Option Nat
  | [], acc => some acc
  | c :: cs, acc =>
    match digitValue c with
    | none => none
    | some d => if d < base then digitsValue base cs (acc * base + d) else none

/-- R87: a decimal number, or a hexadecimal number after `0x`. -/
def parseNumber : List Char → Option Nat
  | [] => none
  | '0' :: 'x' :: c :: cs => digitsValue 16 (c :: cs) 0
  | c :: cs => digitsValue 10 (c :: cs) 0

/-- Drops blanks at both ends. -/
def trimBlanks (cs : List Char) : List Char :=
  ((cs.dropWhile fun c => c == ' ').reverse.dropWhile fun c => c == ' ').reverse

/-- The parts of `cs` between separators. -/
def splitAtChar (sep : Char) : List Char → List Char → List (List Char)
  | [], part => [part.reverse]
  | c :: cs, part => if c = sep then part.reverse :: splitAtChar sep cs [] else splitAtChar sep cs (c :: part)

/-- Every element of `l` read by `f`, if each can be. -/
def readAll {α β : Type} (f : α → Option β) : List α → Option (List β)
  | [] => some []
  | a :: as =>
    match f a, readAll f as with
    | some b, some bs => some (b :: bs)
    | _, _ => none

/-- The numeric operands of a line, separated by commas. -/
def parseOperands (cs : List Char) : Option (List Nat) :=
  if cs.isEmpty then some [] else readAll (fun p => parseNumber (trimBlanks p)) (splitAtChar ',' cs [])

/-! ### Lines -/

/-- A command as a line. -/
def commandLines (l : List Instr) : Option (List Line) := some (l.map Line.command)

/-- R87: `IDX > 255` is refused. -/
def withIdx (idx : Nat) (f : Nat → Instr) : Option (List Line) :=
  if idx < 256 then commandLines [f idx] else none

/-- R87: `v > 255` is refused for the two WR_ forms. -/
def withIdxCode (idx v : Nat) (f : Nat → Byte → Instr) : Option (List Line) :=
  if idx < 256 ∧ v < 256 then commandLines [f idx (BitVec.ofNat 8 v)] else none

/-- R87: `DATA > 65535` is refused. -/
def withMask (m : Nat) (f : Frame → Instr) : Option (List Line) :=
  if m < 65536 then commandLines [f (BitVec.ofNat 16 m)] else none

/-- R87, R88: a mnemonic with its numeric operands. -/
def assembleOperands (name : List Char) (ops : List Nat) : Option (List Line) :=
  if name = "NOP".toList ∧ ops = [] then commandLines [.nop]
  else if name = "STOP".toList ∧ ops = [] then commandLines [.stop]
  else if name = "START".toList ∧ ops = [] then commandLines [.start]
  else if name = "RD_STATUS".toList ∧ ops = [] then commandLines [.rdStatus]
  else if name = "APPLY".toList ∧ ops = [] then commandLines [.apply]
  else if name = "CLRERR".toList ∧ ops = [] then commandLines Pseudo.clrerr.expand
  else if name = "CLRDIAGS".toList ∧ ops = [] then commandLines Pseudo.clrdiags.expand
  else if name = "RESTART".toList ∧ ops = [] then commandLines Pseudo.restart.expand
  else if name = ".reset".toList ∧ ops = [] then some [.reset]
  else
    match ops with
    | [a] =>
      if name = "CLR_STATUS".toList then withMask a .clrStatus
      else if name = "CLR_DIAG".toList then withMask a .clrDiag
      else if name = "RD_GLOWCODE".toList then withIdx a .rdGlowcode
      else if name = "RD_BRIGHTCODE".toList then withIdx a .rdBrightcode
      else if name = "RD_STEP".toList then withIdx a .rdStep
      else if name = "RD_MAXSUB".toList then withIdx a .rdMaxsub
      else if name = "RD_LAMP".toList then withIdx a .rdLamp
      else if name = "RD_DIAG".toList then withIdx a .rdDiag
      else if name = "FILLGLOW".toList ∧ a < 256 then
        commandLines (Pseudo.fillglow (BitVec.ofNat 8 a)).expand
      else if name = "FILLBRIGHT".toList ∧ a < 256 then
        commandLines (Pseudo.fillbright (BitVec.ofNat 8 a)).expand
      else if name = ".tick".toList ∧ a < 65536 then some [.ticks 1 (BitVec.ofNat 16 a)]
      else if name = ".word".toList ∧ a < 4294967296 then some [.word (BitVec.ofNat 32 a)]
      else none
    | [a, b] =>
      if name = "WR_GLOWCODE".toList then withIdxCode a b .wrGlowcode
      else if name = "WR_BRIGHTCODE".toList then withIdxCode a b .wrBrightcode
      else if name = ".ticks".toList ∧ b < 65536 then some [.ticks a (BitVec.ofNat 16 b)]
      else none
    | [a, b, c] =>
      if name = "LAMPCFG".toList ∧ a < 256 ∧ b < 256 ∧ c < 256 then
        commandLines (Pseudo.lampcfg a (BitVec.ofNat 8 b) (BitVec.ofNat 8 c)).expand
      else none
    | _ => none

/-- R87: one `NAME=v` of a `.strap` directive. -/
def parseStrap (cs : List Char) : Option (Strap × Bool) :=
  match splitAtChar '=' cs [] with
  | [name, level] =>
    let strap :=
      if name = "TMODE".toList then some Strap.tmode
      else if name = "AG".toList then some Strap.ag
      else if name = "TEST".toList then some Strap.test
      else if name = "TSEL".toList then some Strap.tsel
      else none
    match strap, parseNumber level with
    | some s, some 0 => some (s, false)
    | some s, some 1 => some (s, true)
    | _, _ => none
  | _ => none

/-- R87: one line of text, its comment dropped: the lines it stands for, or none where it is refused. -/
def parseLine (text : List Char) : Option (List Line) :=
  let cs := trimBlanks (text.takeWhile fun c => c != ';')
  let name := cs.takeWhile fun c => c != ' '
  let rest := trimBlanks (cs.dropWhile fun c => c != ' ')
  if cs.isEmpty then some []
  else if name = ".strap".toList then
    match readAll (fun p => parseStrap (trimBlanks p)) (splitAtChar ',' rest []) with
    | some levels => some [.strap levels]
    | none => none
  else
    match parseOperands rest with
    | some ops => assembleOperands name ops
    | none => none

end Sys2Proof
end

