-- ==== Sys2Proof/Tests/Slice0.lean ====
section
/-! SUPPORT. Tests.  Every expected value is the spec's: the vectors of `spec/95_test_vectors.md` and the
examples of the rules, each named above its test.  The last part gives, for every obligation that has
hypotheses, a concrete state and operands that meet them, at the boundary of each clause's range. -/

open Sys2Proof Sys2Proof.Machine

namespace Sys2Proof.Tests

/-! ### Small states -/

/-- The state a machine goes on in, or the one it was in. -/
def after (s : State) : Host.Outcome State Fault Refusal → State
  | .next t => t
  | .fault _ => s
  | .refused _ => s

/-- The state after one command word. -/
def run (w : Word) (s : State) : State := after s (execWord w s)

/-- `RES`, `RSP` and `STATUS` after one command word. -/
def answer (w : Word) (s : State) : Result × Frame × Frame :=
  ((run w s).res, (run w s).rsp, (run w s).status)

/-- The B1 reset state with `AG_IN = 1` (95, 2.8 "stopped"). -/
def stopped : State := State.afterReset Config.binding1 .pin { Inputs.quiet with agIn := true }

/-- The same after START (95, 2.8 "running"). -/
def running : State := { stopped with run := true, wdtEn := true }

/-- The same with its first tick pending. -/
def ticking : State := { running with tickPending := true }

/-- A stopped block whose lamp 0 has been reconfigured and not applied. -/
def dirty : State := run 0x10000064#32 stopped

/-- A table with value `v` at index `i` and `w` elsewhere. -/
def one (i : Nat) (v w : Frame) : Table 16 := writeTable (constTable w) i v

/-- A table whose first elements are `vs`. -/
def firsts (vs : List Frame) : Table 16 := tabulate fun i => vs.getD i 0

/-- The first eight elements. -/
def eight (t : Table 16) : List Nat := (List.range 8).map fun i => (readTable t i).toNat

/-! ### Well-formedness: an index above 255 has no encoding (R77, R87) -/

theorem test_wf_wrGlowcode : (Instr.wrGlowcode 256 0).wellFormed = false := by decide
theorem test_wf_wrBrightcode : (Instr.wrBrightcode 256 0).wellFormed = false := by decide
theorem test_wf_rdGlowcode : (Instr.rdGlowcode 256).wellFormed = false := by decide
theorem test_wf_rdBrightcode : (Instr.rdBrightcode 256).wellFormed = false := by decide
theorem test_wf_rdStep : (Instr.rdStep 256).wellFormed = false := by decide
theorem test_wf_rdMaxsub : (Instr.rdMaxsub 256).wellFormed = false := by decide
theorem test_wf_rdLamp : (Instr.rdLamp 256).wellFormed = false := by decide
theorem test_wf_rdDiag : (Instr.rdDiag 256).wellFormed = false := by decide

/-! ### Decoding: one word of each row, written out from R77 and R79 (95, 2.2) -/

theorem test_decode_nop : decode 0x00FFFFFF#32 = .ok .nop := rfl
theorem test_decode_stop : decode 0b00000001000000000000000000000000#32 = .ok .stop := rfl
theorem test_decode_start : decode 0b00000010000000000000000000000000#32 = .ok .start := rfl
theorem test_decode_rdStatus : decode 0b00000011000000000000000000000000#32 = .ok .rdStatus := rfl
theorem test_decode_clrStatus :
    decode 0b00000100000000001111000001000000#32 = .ok (.clrStatus 0xF040) := rfl
theorem test_decode_wrGlowcode :
    decode 0b00010000001111111111111100000101#32 = .ok (.wrGlowcode 63 5) := rfl
theorem test_decode_wrBrightcode :
    decode 0b00010001000010010000000000000011#32 = .ok (.wrBrightcode 9 3) := rfl
theorem test_decode_rdGlowcode :
    decode 0b00010010111111110000000000000000#32 = .ok (.rdGlowcode 255) := rfl
theorem test_decode_rdBrightcode :
    decode 0b00010011000010010000000000000000#32 = .ok (.rdBrightcode 9) := rfl
theorem test_decode_apply : decode 0b00010100000000000000000000000000#32 = .ok .apply := rfl
theorem test_decode_rdStep : decode 0b00010101000000110000000000000000#32 = .ok (.rdStep 3) := rfl
theorem test_decode_rdMaxsub : decode 0b00010110000010010000000000000000#32 = .ok (.rdMaxsub 9) := rfl
theorem test_decode_rdLamp : decode 0b00100000010001100000000000000000#32 = .ok (.rdLamp 70) := rfl
theorem test_decode_rdDiag : decode 0b00100001000001111111111111111111#32 = .ok (.rdDiag 7) := rfl
theorem test_decode_clrDiag :
    decode 0b00100010000000000000000000000111#32 = .ok (.clrDiag 0x0007) := rfl

/-- 95, 2.2: undefined opcodes. -/
theorem test_decode_undefined :
    decode 0x05000000#32 = .error (.undefinedOpcode 0x05)
    ∧ decode 0x0F000000#32 = .error (.undefinedOpcode 0x0F)
    ∧ decode 0x17000000#32 = .error (.undefinedOpcode 0x17)
    ∧ decode 0x23000000#32 = .error (.undefinedOpcode 0x23)
    ∧ decode 0xFF000000#32 = .error (.undefinedOpcode 0xFF) := ⟨rfl, rfl, rfl, rfl, rfl⟩

theorem test_decodeTableWord :
    decodeTableWord 32 0x10030064 = some (.wrGlowcode 3 100) ∧ decodeTableWord 32 0x05000000 = none := by
  decide

/-! ### The assembler text (95, 2.2; R87, R88) -/

theorem test_assemble_line : parseLine "WR_GLOWCODE 3, 0x64 ; code 100".toList
    = some [.command (.wrGlowcode 3 100)] := by decide
theorem test_assemble_words : assemble (.wrGlowcode 3 0x64) = some 0x10030064
    ∧ assemble (.rdLamp 70) = some 0x20460000 ∧ assemble (.rdLamp 256) = none := by decide
theorem test_assemble_refuses_code : parseLine "WR_GLOWCODE 0, 256".toList = none := by decide
theorem test_assemble_directive : parseLine ".strap TMODE=1, AG=0".toList
    = some [.strap [(.tmode, true), (.ag, false)]] := by decide
theorem test_assemble_lampcfg : (Pseudo.lampcfg 9 0 3).expand.map encode = [0x10090000, 0x11090003] := by
  decide
theorem test_assemble_clears : Pseudo.clrerr.expand.map encode = [0x0400FFFF]
    ∧ Pseudo.clrdiags.expand.map encode = [0x22000007]
    ∧ Pseudo.restart.expand.map encode = [0x01000000, 0x02000000] := by decide

/-! ### Commands (95, 2.8) -/

theorem test_nop : answer 0x00000000#32 stopped = (.ok, 0x0000, 0x0004) := by decide
theorem test_start : answer 0x02000000#32 stopped = (.ok, 0x0000, 0x0005) := by decide
theorem test_start_running : answer 0x02000000#32 running = (.ok, 0x0000, 0x0005)
    ∧ (run 0x02000000#32 { running with timer := 3 }).timer = 3 := by decide
theorem test_stop : answer 0x01000000#32 running = (.ok, 0x0000, 0x0004) := by decide
/-- R193: the outputs are blanked and a pending tick is dropped. -/
theorem test_stop_drops : (run 0x01000000#32
      { ticking with out := { OutPins.idle with soOeN := false } }).out.soOeN = true
    ∧ (run 0x01000000#32 ticking).tickPending = false := by decide
theorem test_rdStatus :
    (answer 0x03000000#32 { running with out := { OutPins.idle with soOeN := false } }).2.1 = 0x0025 := by
  decide
/-- R196's example. -/
theorem test_clrStatus :
    answer 0x04000200#32 { State.reset with errBusy := true, errIllegal := true, lastEc := .illegal }
      = (.ok, 0x0000, 0x4400) := by decide
theorem test_clrStatus_cause :
    answer 0x0400F000#32 { State.reset with errIllegal := true, lastEc := .illegal }
      = (.ok, 0x0000, 0x0400) := by decide
theorem test_wrGlowcode : readTable dirty.glowCode 0 = 100 ∧ dirty.status = 0x0014
    ∧ readTable dirty.stepTab 0 = 0xFFFF := by decide
theorem test_wrGlowcode_running : answer 0x10000064#32 running = (.busy, 0x0000, 0x3205) := by decide
theorem test_wrBrightcode : answer 0x11090003#32 stopped = (.ok, 0x0000, 0x0014)
    ∧ readTable (run 0x11090003#32 stopped).brightCode 9 = 3 := by decide
theorem test_wrBrightcode_range : (answer 0x11400005#32 stopped).1 = .range := by decide
theorem test_rdGlowcode : (answer 0x12000000#32 dirty).2.1 = 0x0064 := by decide
theorem test_rdBrightcode : (answer 0x13090000#32 (run 0x11090003#32 stopped)).2.1 = 0x0003 := by decide
theorem test_apply : answer 0x14000000#32 dirty = (.ok, 0x0000, 0x0004) := by decide
theorem test_apply_running : answer 0x14000000#32 running = (.busy, 0x0000, 0x3205) := by decide
theorem test_rdStep : (answer 0x15000000#32 dirty).2.1 = 0xFFFF
    ∧ (answer 0x15000000#32 (run 0x14000000#32 dirty)).2.1 = 0x0290 := by decide
theorem test_rdMaxsub :
    (answer 0x16090000#32 (run 0x14000000#32 (run 0x11090003#32 stopped))).2.1 = 0x0007 := by decide
theorem test_rdLamp : (answer 0x20000000#32 { stopped with matrix := one 0 656 0 }).2.1 = 0x0290 := by decide
theorem test_rdLamp_checks : (answer 0x20460000#32 running).1 = .busy
    ∧ answer 0x20460000#32 stopped = (.range, 0x0000, 0x5804) := by decide
/-- R205's example after program 1. -/
theorem test_rdDiag :
    (answer 0x21040000#32 { running with cons := 2, lastAcc := 0x01 }).2.1 = 0x0201
    ∧ (answer 0x21050000#32 { running with tickCol := 3 }).2.1 = 0x0003 := by decide
theorem test_rdDiag_vstate :
    (answer 0x21070000#32 { running with rawPrev := 0x04F0, lastAcc := 0x04, cons := 2 }).2.1 = 0x0002
    ∧ (answer 0x21080000#32 stopped).1 = .range := by decide
theorem test_clrDiag : (run 0x22000001#32 { stopped with badframeCnt := 3 }).diagView 0 = 0x0000 := by decide
theorem test_clrDiag_overrun :
    (run 0x22000002#32 { stopped with overrunCnt := 1, errOverrun := true }).overrunCnt = 0
    ∧ (run 0x22000002#32 { stopped with overrunCnt := 1, errOverrun := true }).errOverrun = true := by
  decide
/-- 95, 2.9: the last error wins, and ILLEGAL goes before BUSY and RANGE. -/
theorem test_illegal : (run 0x21080000#32 (run 0x05000000#32 State.reset)).status = 0x5C00
    ∧ (answer 0xFF460000#32 running).1 = .illegal := by decide

/-! ### Arithmetic and the derived model (95, 1.1, 2.1, 2.5) -/

theorem test_saturation : satAdd16 64879 656 = 65535 ∧ satAdd16 64878 656 = 65534
    ∧ satSub16 500 656 = 0 ∧ satSub16 657 656 = 1 ∧ satInc8 255 254 = 255 ∧ satInc8 255 255 = 255
    ∧ satInc16 65535 = 65535 := by decide
theorem test_ceilDiv : ceilDiv 65535 100 = 656 ∧ ceilDiv 65535 256 = 256 ∧ ceilDiv 65535 65535 = 1
    ∧ ceilDiv 65535 70000 = 1 := by decide
theorem test_onehot : index8 0x01 = some 0 ∧ index8 0x80 = some 7 ∧ index8 0x00 = none
    ∧ index8 0x81 = none ∧ onehot8 0x7F = false := by decide
theorem test_glowStep : (glowStep Config.binding1 7 false).toNat = 9363
    ∧ (glowStep Config.binding1 255 false).toNat = 257 ∧ (glowStep Config.binding1 255 true).toNat = 129
    ∧ (glowStep Config.binding1 0 true).toNat = 65535 := by decide
theorem test_glowStep_scale :
    (glowStep { Config.binding1 with scanDen0 := 3 } 2 false).toNat = 65535
    ∧ (glowStep { Config.binding1 with scanDen0 := 3 } 100 false).toNat = 1986
    ∧ (glowStep { Config.binding1 with scanNum0 := 300 } 255 false).toNat = 1 := by decide
theorem test_maxSub : (maxSub 0 1).toNat = 0 ∧ (maxSub 5 3).toNat = 1 ∧ (maxSub 3 100).toNat = 49
    ∧ (maxSub 7 256).toNat = 255 ∧ (maxSub 255 256).toNat = 8191 := by decide

/-! ### Integrator and validator (95, 2.4, 2.5) -/

theorem test_integrate : eight (integrate 0 0x55 { State.reset with
      matrix := firsts [100, 200, 300, 400, 500, 600, 700, 800], stepTab := constTable 300 }).matrix
    = [0, 500, 0, 700, 200, 900, 400, 1100] := by decide
theorem test_integrate_saturates : eight (integrate 0 0xFE { State.reset with
      matrix := firsts [65000, 500], stepTab := constTable 656 }).matrix
    = [65535, 0, 0, 0, 0, 0, 0, 0] := by decide
theorem test_validate_accepts : (validate 0x01FE { State.reset with rawPrev := 0x01FE }).cons = 1
    ∧ (validate 0x01FE { State.reset with rawPrev := 0x01FE }).lastAcc = 0x01
    ∧ (validate 0x01FE { State.reset with rawPrev := 0x01FE }).vstate = .accepted := by decide
theorem test_validate_already :
    (validate 0x01FD { State.reset with rawPrev := 0x01FE, cons := 2, lastAcc := 0x01 }).cons = 0
    ∧ acceptedColumn 0x01FE { State.reset with rawPrev := 0x01FE, cons := 1, lastAcc := 0x01 } = none := by
  decide
theorem test_validate_badframe :
    (validate 0x0300 { State.reset with rawPrev := 0x0300, cons := 4, lastAcc := 0x01 }).badframeCnt = 1
    ∧ (validate 0x0000 { State.reset with cons := 255, lastAcc := 0x01 }).cons = 255
    ∧ (validate 0x0000 { State.reset with cons := 255, lastAcc := 0x01 }).vstate = .accumulating := by
  decide

/-! ### Sampler and driver (95, 2.3, 2.6) -/

theorem test_shiftIn : bitsMsbFirst 0x01FE
      = [false, false, false, false, false, false, false, true, true, true, true, true, true, true, true, false]
    ∧ shiftInValue 0x01FE = 0x01FE ∧ (shiftInWrites.filter (· == .siClk true)).length = 16 := by decide
theorem test_sample_testmode :
    sampleValue { State.reset with testT := true, pins := { Inputs.quiet with tsrcFrame := 0x01F7 } } = 0x01F7
    ∧ (sample { State.reset with testT := true }).out = OutPins.idle := by decide
theorem test_emit : (emitWrites 0x04FE).filterMap
      (fun w => match w with | .soData b => some b | _ => none)
    = [false, false, false, false, false, true, false, false, true, true, true, true, true, true, true, false,
       false] := by decide
theorem test_agframe :
    afterglowFrame { State.reset with tickCol := 2, matrix := one 16 1 0 } = 0x04FE
    ∧ afterglowFrame { State.reset with subIdx := 1, matrix := firsts [4095, 4096] } = 0x01FD := by decide
theorem test_agframe_polarity :
    afterglowFrame { State.reset with cfg := { Config.binding1 with outRowActiveLow := false },
                                      tickCol := 2, matrix := one 16 1 0 } = 0x0401
    ∧ afterglowFrame { State.reset with
        tickCol := 7, subIdx := 15, matrix := constTable 65535,
        maxsubTab := tabulate fun i => if i % 2 = 0 then 15 else 7 } = 0x80AA := by decide
theorem test_lampOn_window : ((List.range 16).filter (lampOn 16 40000 15)).length = 10
    ∧ ((List.range 16).filter (lampOn 16 0 15)).length = 0
    ∧ ((List.range 3).filter (lampOn 3 65535 2)).length = 3
    ∧ ((List.range 1).filter (lampOn 1 1 0)).length = 1 := by decide
theorem test_pass :
    passEmits { State.reset with rawPrev := 0x02F0, lastOut := 0x02F0 } = true
    ∧ passEmits { State.reset with rawPrev := 0x02F0, lastOut := 0x02F0,
                                   out := { OutPins.idle with soOeN := false } } = false
    ∧ (pass { State.reset with rawPrev := 0x0300, lastOut := 0x02F0 }).lastOut = 0x0300 := by decide

/-! ### Scheduler and reset (95, 2.7, 2.10) -/

theorem test_advance : (advance { State.reset with tickCol := 7, subIdx := 15 }).subIdx = 0
    ∧ (advance { State.reset with tickCol := 7, subIdx := 3 }).subIdx = 4
    ∧ (advance { State.reset with tickCol := 6, subIdx := 3 }).tickCol = 7 := by decide
/-- R174's example: the first tick after START emits the blank frame, then column 0. -/
theorem test_tick_first : framesOf (tick ticking).trace = [0x0000, 0x01FF]
    ∧ (tick ticking).tickCol = 1 ∧ (tick ticking).status = 0x0025 := by decide
/-- 95, 2.7: TMODE_CHANGE, running, with `GLOW_CODE[3] = 50`. -/
def changing : State :=
  { running with
    glowCode := writeTable (constTable 0) 3 50, tmodeSync := true, tickCol := 5, subIdx := 9 }
theorem test_tmodeChange : (tmodeChange changing).tickCol = 0 ∧ (tmodeChange changing).subIdx = 0
    ∧ readTable (tmodeChange changing).stepTab 3 = 656 ∧ readTable (tmodeChange changing).maxsubTab 3 = 7
    ∧ (tmodeChange changing).status.getLsbD 1 = true := by decide
theorem test_tickMissed :
    (tickMissed { running with out := { OutPins.idle with soOeN := false } }).status = 0x2125
    ∧ (tickMissed running).overrunCnt = 1 := by decide
theorem test_reset_status : State.reset.status = 0x0000
    ∧ (State.afterReset Config.binding1 .pin { Inputs.quiet with
        tmodeIn := true, agIn := true, testIn := true, tselIn := true }).status = 0x000E := by decide
/-- R241's example. -/
theorem test_wdtExpire_status :
    (wdtExpire { running with pins := { Inputs.quiet with tmodeIn := true, agIn := true } }).status = 0x6046
    ∧ readTable (wdtExpire { running with pins := { Inputs.quiet with tmodeIn := true } }).maxsubTab 5 = 7 := by
  decide
/-- R242: the block is ready for a command. -/
theorem test_reset_ready : State.reset.cmdReady = true ∧ State.reset.out = OutPins.idle := by decide

/-! ### The step -/

/-- The first step after reset runs the word placed by `withFetchWord`. -/
theorem test_step_fetchWord :
    readTable (after State.reset (step (State.reset.withFetchWord 32 0x10000064))).glowCode 0 = 100
    ∧ (after State.reset (step (State.reset.withFetchWord 32 0x05000000))).res = .illegal := by decide

/-- R182 (log entry 28): a drawn tick comes in the next step, whatever the timer has counted; a tick that
waits already is not missed by the draw. -/
theorem test_step_tickDrawn :
    (after running (step { running with pins := { running.pins with tickNow := true } })).tickPending = true
    ∧ (clockCycle { ticking with pins := { ticking.pins with tickNow := true } }).timer = 1
    ∧ (clockCycle { ticking with pins := { ticking.pins with tickNow := true } }).overrunCnt = 0 := by decide

/-- R8: a configuration that breaks a constraint is refused. -/
theorem test_step_refuses :
    step { State.reset with cfg := { Config.binding1 with n0 := 257 } } = .refused .configurationBreaksR8 := by
  rfl

/-! ### Witnesses: the hypotheses of every obligation are met -/

/-- The reset state is consistent and its timers are in time. -/
theorem stopped_consistent : stopped.Consistent where
  subIdx_lt := by decide
  cons_le := by decide
  phase_idle := rfl
  stopped := by decide
  running := by decide
  derived := by decide
  lastAcc_onehot := by decide
  step_pos := by decide

theorem stopped_inTime : stopped.InTime where
  stopped := by decide
  timer_lt := by decide
  pending_le := by decide
  wdt_le := by decide

theorem running_consistent : running.Consistent where
  subIdx_lt := by decide
  cons_le := by decide
  phase_idle := rfl
  stopped := by decide
  running := by decide
  derived := by decide
  lastAcc_onehot := by decide
  step_pos := by decide

theorem ticking_consistent : ticking.Consistent where
  subIdx_lt := by decide
  cons_le := by decide
  phase_idle := rfl
  stopped := by decide
  running := by decide
  derived := by decide
  lastAcc_onehot := by decide
  step_pos := by decide

theorem ticking_inTime : ticking.InTime where
  stopped := by decide
  timer_lt := by decide
  pending_le := by decide
  wdt_le := by decide

theorem running_inTime : running.InTime where
  stopped := by decide
  timer_lt := by decide
  pending_le := by decide
  wdt_le := by decide

/-- A running block whose host presents START while it runs. -/
def commanded : State := { running with pins := { running.pins with cmdValid := true, cmd := 0x02000000#32 } }

/-- A column about to be accepted. -/
def seen : State := { State.reset with rawPrev := 0x80FE }

theorem witness_DecodeUndoesEncode : (Instr.wrGlowcode 255 0xFF).wellFormed = true := by decide

/-- Every clause of the opcode map, with all ignored bits set. -/
theorem witness_DecodeFollowsTheOpcodeMap :
    ([0x00FFFFFF, 0x01FFFFFF, 0x02FFFFFF, 0x03FFFFFF, 0x04FFFFFF, 0x10FFFFFF, 0x11FFFFFF, 0x12FFFFFF,
      0x13FFFFFF, 0x14FFFFFF, 0x15FFFFFF, 0x16FFFFFF, 0x20FFFFFF, 0x21FFFFFF, 0x22FFFFFF] : List Word).map
        (fun w => (w.extractLsb' 24 8).toNat)
      = [0x00, 0x01, 0x02, 0x03, 0x04, 0x10, 0x11, 0x12, 0x13, 0x14, 0x15, 0x16, 0x20, 0x21, 0x22] := by
  decide

/-- Both ends of each undefined range. -/
theorem witness_UndefinedOpcodesAreRefused :
    ([0x05000000, 0x0F000000, 0x17000000, 0x1F000000, 0x23000000, 0xFF000000] : List Word).all
      (fun w => let n := (w.extractLsb' 24 8).toNat
        (decide (0x05 ≤ n) && decide (n ≤ 0x0F)) || (decide (0x17 ≤ n) && decide (n ≤ 0x1F)) || decide (0x23 ≤ n))
      = true := by decide

theorem witness_StopStopsTheScheduler : stopped.run = false ∧ stopped.Consistent ∧ stopped.InTime :=
  ⟨rfl, stopped_consistent, stopped_inTime⟩

/-- A running block whose host presents the undefined opcode 0x05. -/
def misaddressed : State := { running with pins := { running.pins with cmdValid := true, cmd := 0x05000000#32 } }

/-- Inputs under which a tick comes next, and inputs under which a command does (log entry 28). -/
def tickDraw : Inputs := { Inputs.quiet with tickNow := true, tmodeLater := true }
def commandDraw : Inputs :=
  { Inputs.quiet with cmdValid := true, cmd := 0x03000000#32, cmdCycles := 0, tmodeLater := true }

/-- Running; stopped and clean; stopped and dirty. -/
theorem witness_StartRunsTheScheduler : running.run = true ∧ stopped.run = false ∧ stopped.cfgDirty = false
    ∧ dirty.run = false ∧ dirty.cfgDirty = true ∧ configValid stopped.cfg = true ∧ stopped.phase = .idle
    ∧ stopped.pins.tickNow = false ∧ 15 < tickPeriod stopped.cfg stopped.tmode := by decide

theorem witness_ClearStatusClearsByMask : (0x0FFF#16).extractLsb' 12 4 = 0 ∧ (0x1000#16).extractLsb' 12 4 ≠ 0 := by
  decide

/-- The last index of the space and the first above it. -/
theorem witness_CodeWritesStoreOneCode : running.run = true ∧ stopped.run = false ∧ (63 : Nat) < 64
    ∧ (64 : Nat) ≤ 64 := by decide

theorem witness_ReadsReturnCodesAndTables : (63 : Nat) < 64 ∧ (64 : Nat) ≤ 64 := by decide

theorem witness_ApplyDerivesTheTables : running.run = true ∧ dirty.run = false := by decide

theorem witness_ReadLampOnlyWhileStopped : running.run = true ∧ stopped.run = false ∧ (64 : Nat) ≤ 64
    ∧ (63 : Nat) < 64 := by decide

theorem witness_ReadDiagReturnsEachView : (8 : Nat) ≤ 8 := by decide

/-- One word for each outcome of CHECK. -/
theorem witness_ChecksGoIllegalThenBusyThenRange :
    (run 0xFF460000#32 running).res = .illegal ∧ (run 0x20460000#32 running).res = .busy
    ∧ (run 0x12400000#32 running).res = .range ∧ (run 0x21070000#32 running).res = .ok := by decide

/-- A step that is no CLR_STATUS, and one that is and spares the bit. -/
theorem witness_RaiseErrorRecordsTheCause :
    (∃ t, step ({ running with errBusy := true } : State) = .next t)
    ∧ ({ running with errBusy := true } : State).nextEvent = .clock
    ∧ (after running (step (({ running with errBusy := true } : State).withFetchWord 32 0x04000100))).errBusy = true
    ∧ (0x0100#16).getLsbD 9 = false :=
  ⟨⟨_, rfl⟩, by decide, by decide, by decide⟩

theorem witness_WrittenCodesReadBack : stopped.run = false ∧ (63 : Nat) < 64 := by decide

/-- A read answered OK, the last view of its space. -/
theorem witness_ReadsAreIdempotent :
    (∃ idx, Instr.rdDiag 7 = .rdDiag idx) ∧ (after stopped (exec (.rdDiag 7) stopped)).res = .ok :=
  ⟨⟨7, rfl⟩, by decide⟩

theorem witness_CommandsLeaveMatrixAndHistory :
    (after running (exec .stop running)).run ≠ running.run
    ∧ (after stopped (exec .start stopped)).run ≠ stopped.run := by decide

theorem witness_IntegrateMovesOneColumn : (8 : Nat) ≤ 8 ∧ (7 : Nat) < 8 ∧ (0x7F#8).getLsbD 7 = false
    ∧ (0x80#8).getLsbD 7 = true ∧ 55 / 8 ≠ 7 := by decide

theorem witness_CountersSaturateAndStay : 1 ≤ (1#16).toNat ∧ (65535 + (1#16).toNat - 1) / (1#16).toNat ≤ 65535 := by
  decide

theorem witness_SaturatedLampsStay :
    (readTable ({ State.reset with matrix := constTable 65535 } : State).matrix (8 * 7 + 7) = 65535
      ∧ (0x7F#8).getLsbD 7 = false)
    ∧ (readTable State.reset.matrix (8 * 7 + 7) = 0 ∧ (0x80#8).getLsbD 7 = true) := by decide

/-- Instant by code 0, instant by rounding, and one scan. -/
theorem witness_GlowStepTraversesInItsScans : scansFor Config.binding1 0 false = 0
    ∧ scansFor { Config.binding1 with scanDen0 := 3 } 2 false = 0 ∧ scansFor Config.binding1 1 false = 1 := by
  decide

/-- 256 scans, the last the first clause covers; 257, which meets the second; 1000, which meets the third
alone (95, 2.5). -/
theorem witness_TraverseTakesExactlyItsScans :
    scansFor { Config.binding1 with scanNum0 := 256 } 1 false = 256
    ∧ (scansFor { Config.binding1 with scanNum0 := 257 } 1 false - 1)
        * (glowStep { Config.binding1 with scanNum0 := 257 } 1 false).toNat < 65535
    ∧ 65535 ≤ (scansFor { Config.binding1 with scanNum0 := 1000 } 1 false - 1)
        * (glowStep { Config.binding1 with scanNum0 := 1000 } 1 false).toNat := by decide

theorem witness_MaxSubFollowsTheCode : 1 ≤ 1 ∧ 256 ≤ 256 ∧ ((6#8).toNat + 1) * 1 < 8 ∧ 8 ≤ ((7#8).toNat + 1) * 1
    ∧ (7#8).toNat = 7 ∧ 7 ≤ (255#8).toNat := by decide

theorem witness_WindowLightsALampItsCount :
    subCycles State.reset.cfg State.reset.tmode = 16 ∧ (7 : Nat) < 8 ∧ State.reset.tickCol = 0
    ∧ State.reset.subIdx = 0 ∧ (15 : Nat) < 16 ∧ lampOn 16 61440 15 15 = true ∧ lampOn 16 61439 15 15 = false := by
  decide

/-- A chain at rest, and a prefix in which the outputs are enabled. -/
theorem witness_NoPartialFrameIsVisible :
    OutPins.idle.soOeN = true ∧ (OutPins.idle.writes ((emitWrites 0x04FE).take 52)).soOeN = false := by decide

theorem witness_DriveFollowsTheLatchedMode :
    ({ running with agT := true } : State).agT = true ∧ running.agT = false ∧ running.out.soOeN = true
    ∧ ({ running with out := { OutPins.idle with soOeN := false } } : State).rawPrev
        = ({ running with out := { OutPins.idle with soOeN := false } } : State).lastOut := by decide

theorem witness_SampleTakesLinesOrTestSource :
    State.reset.testT = false ∧ ({ State.reset with testT := true } : State).testT = true := by decide

/-- A sample that is accepted, in the last column, and one that is not. -/
theorem witness_ValidateAcceptsOrDrops : configValid seen.cfg = true
    ∧ acceptedColumn 0x80FE seen = some 7 ∧ acceptedColumn 0x40FE seen = none := by decide

theorem witness_NoMaskIsAcceptedTwiceRunning :
    acceptedMasks [0x01FE, 0x01FE, 0x02FE, 0x02FE, 0x01FE, 0x01FE] State.reset = [0x01, 0x02, 0x01] := by
  decide

theorem witness_NewSamplesAreAcceptedAtTheThreshold : configValid State.reset.cfg = true
    ∧ 0x80FE#16 ≠ State.reset.rawPrev ∧ 0 < State.reset.cfg.consThreshold
    ∧ onehot8 ((0x80FE#16).extractLsb' 8 8) = true ∧ (0x80FE#16).extractLsb' 8 8 ≠ State.reset.lastAcc := by
  decide

theorem witness_AdvanceMovesTheTickCounter : configValid running.cfg = true
    ∧ ({ running with tickCol := 7 } : State).tickCol = 7 ∧ running.tickCol ≠ 7 := by decide

theorem witness_TickCounterCountsTicks : configValid running.cfg = true ∧ running.tickCol = 0
    ∧ running.subIdx = 0 := by decide

theorem witness_TickRunsItsPhasesInOrder : configValid ticking.cfg = true ∧ ticking.Consistent
    ∧ ticking.InTime ∧ ticking.run = true ∧ ticking.tickPending = true :=
  ⟨by decide, ticking_consistent, ticking_inTime, rfl, rfl⟩

theorem witness_TickIsAFunctionOfStateAndSample : configValid ticking.cfg = true ∧ ticking.Consistent
    ∧ ticking.InTime ∧ ticking.run = true ∧ ticking.tickPending = true
    ∧ 0x0000#16 = (if ticking.testSync = true then ticking.pins.tsrcFrame else ticking.pins.siLines) :=
  ⟨by decide, ticking_consistent, ticking_inTime, rfl, rfl, by decide⟩

theorem witness_TickMeasuresItsDuration : configValid ticking.cfg = true ∧ ticking.Consistent
    ∧ ticking.InTime ∧ ticking.run = true ∧ ticking.tickPending = true ∧ 1 = min 65535 (tickTime ticking) :=
  ⟨by decide, ticking_consistent, ticking_inTime, rfl, rfl, by decide⟩

theorem witness_TimingModeChangeRestartsTheTick : changing.nextEvent = .tmodeChange := by decide

/-- One cycle before the expiry; the expiry, taken and missed, by a pending tick and by one in progress; the
drawn expiry; the timer stopped. -/
theorem witness_TickTimerExpiresOrMisses : running.timer + 1 < 16 ∧ running.pins.tickNow = false
    ∧ 16 = ({ running with timer := 15 } : State).timer + 1 ∧ running.tickPending = false
    ∧ running.phase = .idle ∧ ticking.tickPending = true ∧ stopped.run = false
    ∧ (clockCycle { running with pins := tickDraw }).tickPending = true
    ∧ (clockCycle { ticking with timer := 15 }).errOverrun = true
    ∧ (clockCycle { running with phase := .drive, timer := 15 }).errOverrun = true := by decide

/-- A state for each event of the order, and for each reason for the reset and the clock. -/
theorem witness_EventsAreTakenByPriority :
    ({ ticking with pins := { Inputs.quiet with resetN := false } } : State).nextEvent = .reset
    ∧ ({ ticking with inReset := true } : State).nextEvent = .reset
    ∧ ({ ticking with wdtCnt := 64 } : State).nextEvent = .wdtExpire
    ∧ ({ ticking with pins := { Inputs.quiet with wdtFault := true } } : State).nextEvent = .wdtExpire
    ∧ ({ ticking with phase := .sample } : State).nextEvent = .clock
    ∧ ({ commanded with tickPending := true, tmodeSync := true } : State).nextEvent = .tick
    ∧ ({ commanded with tmodeSync := true } : State).nextEvent = .tmodeChange
    ∧ ({ running with tmodeSync := true, pins := commandDraw } : State).nextEvent = .hostCmd
    ∧ ({ running with tmodeSync := true, pins := tickDraw } : State).nextEvent = .clock
    ∧ commanded.nextEvent = .hostCmd ∧ running.nextEvent = .clock
    ∧ nextInputs running = running ∧ (nextInputs { running with agenda := [tickDraw] }).pins = tickDraw := by
  decide

/-- R182's part: a running block at rest, and both draws. -/
theorem witness_EventsComeInAnyOrder : configValid running.cfg = true ∧ running.Consistent ∧ running.InTime
    ∧ running.run = true ∧ running.tickPending = false ∧ running.inReset = false ∧ running.agenda = []
    ∧ (tickDraw.resetN = true ∧ tickDraw.wdtFault = false ∧ tickDraw.tmodeLater = true
      ∧ tickDraw.cmdValid = false ∧ tickDraw.tickNow = true)
    ∧ (commandDraw.resetN = true ∧ commandDraw.wdtFault = false ∧ commandDraw.tmodeLater = true
      ∧ commandDraw.cmdValid = true ∧ commandDraw.cmdCycles = 0) :=
  ⟨by decide, running_consistent, running_inTime, rfl, rfl, rfl, rfl, by decide, by decide⟩

theorem witness_WatchdogExpiryResetsTheBlock :
    ({ running with pins := { running.pins with wdtFault := true } } : State).nextEvent = .wdtExpire := by decide

theorem witness_ResetPinHoldsTheBlock :
    ({ running with pins := { Inputs.quiet with resetN := false } } : State).pins.resetN = false
    ∧ ({ running with inReset := true } : State).inReset = true ∧ running.pins.resetN = true := by decide

theorem witness_BrokenConfigurationsAreRefused : configValid Config.binding1 = true
    ∧ configValid { Config.binding1 with tickCycles0 := 6 } = false
    ∧ configValid { Config.binding1 with wdtCycles := 22 } = false := by decide

/-- A defined opcode and an undefined one. -/
theorem witness_StepRunsTheDecodedCommand :
    (configValid commanded.cfg = true ∧ commanded.nextEvent = .hostCmd
      ∧ decode commanded.pins.cmd = .ok .start ∧ wdtDue (commandState commanded) = false)
    ∧ configValid misaddressed.cfg = true ∧ misaddressed.nextEvent = .hostCmd
    ∧ decode misaddressed.pins.cmd = .error (.undefinedOpcode 0x05)
    ∧ wdtDue (commandState misaddressed) = false :=
  ⟨⟨by decide, by decide, rfl, by decide⟩, by decide, by decide, rfl, by decide⟩

theorem witness_FetchWordIsRunNext : configValid running.cfg = true ∧ running.wdtEn = running.run
    ∧ 0x20460000 < 2 ^ 32 ∧ decode (BitVec.ofNat 32 0x20460000) = .ok (.rdLamp 70) :=
  ⟨by decide, by decide, by decide, rfl⟩

/-- A step that starts a tick, and a step that changes `RUN`. -/
theorem witness_OnlyStopStartAndResetChangeRun : (∃ t, step ticking = .next t) ∧ ticking.nextEvent = .tick
    ∧ (after stopped (step (stopped.withFetchWord 32 0x02000000))).run ≠ stopped.run :=
  ⟨⟨_, rfl⟩, by decide, by decide⟩

/-- A step that changes each table. -/
theorem witness_TablesAreWrittenOnlyByTheirOwners :
    (after seen (step { ticking with rawPrev := 0x80FE, pins := { Inputs.quiet with siLines := 0x80FE } })).matrix
        ≠ ticking.matrix
    ∧ (after stopped (step (stopped.withFetchWord 32 0x10000064))).glowCode ≠ stopped.glowCode
    ∧ (after stopped (step (stopped.withFetchWord 32 0x11000003))).brightCode ≠ stopped.brightCode
    ∧ (after dirty (step (dirty.withFetchWord 32 0x14000000))).stepTab ≠ dirty.stepTab := by decide

theorem witness_StepKeepsTheStateConsistent : ticking.Consistent ∧ ∃ t, step ticking = .next t :=
  ⟨ticking_consistent, _, rfl⟩

theorem witness_ResetStateIsConsistent : configValid Config.binding1 = true := by decide

theorem witness_StepKeepsTheTimersInTime : ticking.Consistent ∧ ticking.InTime ∧ ∃ t, step ticking = .next t :=
  ⟨ticking_consistent, ticking_inTime, _, rfl⟩

theorem witness_NoDeadlineIsMissed : ticking.Consistent ∧ ticking.InTime ∧ (∃ t, step ticking = .next t)
    ∧ ticking.pins.wdtFault = false :=
  ⟨ticking_consistent, ticking_inTime, ⟨_, rfl⟩, rfl⟩

theorem witness_PortPinsRestBetweenEvents : ticking.pinsIdle ∧ ∃ t, step ticking = .next t :=
  ⟨⟨rfl, rfl, rfl, rfl, rfl, rfl⟩, _, rfl⟩

theorem witness_RejectedUpdateChangesNoConfiguration : running.run = true ∧ running.Consistent :=
  ⟨rfl, running_consistent⟩

theorem witness_LiveWriteAndBootAgree : Inputs.quiet.tmodeIn = running.tmode ∧ (63 : Nat) < 64 := by decide

end Sys2Proof.Tests
end

section
/-! SUPPORT. Proofs about `spec/00_scope.md`: the one-hot masks of R12, the constraints of R8, and what they
promise of the timers: every step keeps them in time, misses no deadline, and never lets the watchdog expire
by itself. -/

namespace Sys2Proof.Machine

/-! ### Masks and configurations -/

/-- R12: `index8` has no value exactly off the one-hot masks. -/
theorem index8_eq_none_iff (m : Byte) : index8 m = none ↔ onehot8 m = false := by
  rw [← Bool.not_eq_true, onehot8_iff, ← Option.isSome_iff_exists, Option.not_isSome_iff_eq_none]

/-- Settles O21, from the laws of `index8`. -/
theorem oneHotMasksHaveTheirIndex : Obligations.OneHotMasksHaveTheirIndex := fun m =>
  ⟨List.contains_iff_mem, index8_eq_some_iff m, index8_eq_none_iff m⟩

/-- Every event has a next state. -/
theorem runEvent_total (s : State) : ∃ t, runEvent s = .next t := by
  unfold runEvent
  cases s.nextEvent with
  | hostCmd =>
    rcases hostCmd_cases s with ⟨-, h⟩ | ⟨-, v, -, h⟩
    · exact ⟨_, h⟩
    · exact ⟨_, h⟩
  | reset => exact ⟨_, rfl⟩
  | wdtExpire => exact ⟨_, rfl⟩
  | tick => exact ⟨_, rfl⟩
  | tmodeChange => exact ⟨_, rfl⟩
  | tickMissed => exact ⟨_, rfl⟩
  | clock => exact ⟨_, rfl⟩

/-- R8: a step refuses a configuration that breaks a constraint. -/
theorem step_of_not_configValid {s : State} (h : configValid s.cfg = false) :
    step s = .refused .configurationBreaksR8 := by
  simp only [step, stepEvent, h, Bool.false_eq_true, if_false]

/-- R8: a step from a state whose configuration is valid has a next state. -/
theorem step_total {s : State} (h : configValid s.cfg = true) : ∃ t, step s = .next t := by
  obtain ⟨u, hu⟩ := runEvent_total s
  exact ⟨nextInputs u, by simp only [step, stepEvent, h, if_true, hu, mapNext]⟩

/-- Settles O49. -/
theorem brokenConfigurationsAreRefused : Obligations.BrokenConfigurationsAreRefused :=
  ⟨fun c => by simp only [configValid, Bool.and_eq_true, decide_eq_true_eq],
    fun _ => ⟨step_of_not_configValid, step_total⟩⟩

/-! ### What a command word does -/

/-- R191: the frame of a refusal. -/
theorem refuse_frame (r : Result) (s : State) :
    s.sameExcept (refuse r s) [.rsp, .res, .errBusy, .errIllegal, .errRange, .lastEc] := by
  intro f hf
  cases r <;> cases f <;> first | rfl | exact absurd (by decide) hf

/-- R190: the frame of a response. -/
theorem respond_frame (r : Result) (v : Frame) (s : State) : s.sameExcept (respond r v s) [.rsp, .res] := by
  intro f hf
  cases f <;> first | rfl | exact absurd (by decide) hf

/-- R190, R191, R207: a word is refused, or the effect of its command is answered. -/
theorem execWord_cases {w : Word} {s t : State} (h : execWord w s = .next t) :
    (∃ r, t = refuse r s) ∨ ∃ i v, t = respond .ok v (effectOf i s) := by
  unfold execWord at h
  split at h
  · next i _ =>
    rw [exec_eq] at h
    rcases command_cases (stoppedOnlyOf i) (operandOf i) (effectOf i) (valueOf i) s
      with ⟨hc, -⟩ | ⟨hc, -⟩ | ⟨hc, -⟩ <;> rw [hc] at h <;> cases h
    · exact .inr ⟨i, _, rfl⟩
    · exact .inl ⟨.busy, rfl⟩
    · exact .inl ⟨.range, rfl⟩
  · cases h
    exact .inl ⟨.illegal, rfl⟩

/-- What the commands other than STOP and START write, their answers apart. -/
def quietCommandFields : List Field :=
  [.glowCode, .brightCode, .cfgDirty, .stepTab, .maxsubTab, .rstWdt, .errOverrun, .errBusy, .errIllegal, .errRange,
   .lastEc, .badframeCnt, .overrunCnt, .durMax]

/-- STOP and START alone reach the timers and the trace. -/
theorem effectOf_frame_quiet {i : Instr} (hstop : i ≠ .stop) (hstart : i ≠ .start) (s : State) :
    s.sameExcept (effectOf i s) quietCommandFields := by
  cases i with
  | stop => exact absurd rfl hstop
  | start => exact absurd rfl hstart
  | clrStatus mask => exact sameExcept_mono (clearStatus_frame mask s) (by decide)
  | wrGlowcode idx code => exact sameExcept_mono (writeGlowCode_frame idx code s) (by decide)
  | wrBrightcode idx code => exact sameExcept_mono (writeBrightCode_frame idx code s) (by decide)
  | apply => exact sameExcept_mono (derive_frame s) (by decide)
  | clrDiag mask => exact sameExcept_mono (clearDiag_frame mask s) (by decide)
  | nop | rdStatus | rdGlowcode | rdBrightcode | rdStep | rdMaxsub | rdLamp | rdDiag =>
    exact sameExcept_refl s _

/-! ### Timers in time -/

/-- The pieces of the state `InTime` speaks of. -/
def timingFields : List Field := [.cfg, .run, .tmode, .timer, .tickPending, .wdtCnt]

/-- What writes no timing piece keeps the timers in time. -/
theorem inTime_of_sameExcept {s t : State} {l : List Field} (h : s.sameExcept t l)
    (hl : ∀ f ∈ timingFields, f ∉ l) (hs : s.InTime) : t.InTime := by
  have hcfg : t.cfg = s.cfg := h .cfg (hl .cfg (by decide))
  have hrun : t.run = s.run := h .run (hl .run (by decide))
  have htmode : t.tmode = s.tmode := h .tmode (hl .tmode (by decide))
  have htimer : t.timer = s.timer := h .timer (hl .timer (by decide))
  have hpending : t.tickPending = s.tickPending := h .tickPending (hl .tickPending (by decide))
  have hwdt : t.wdtCnt = s.wdtCnt := h .wdtCnt (hl .wdtCnt (by decide))
  obtain ⟨h1, h2, h3, h4⟩ := hs
  constructor <;> simpa only [hcfg, hrun, htmode, htimer, hpending, hwdt]

/-- R170: a stopped block with both counters at 0 is in time. -/
theorem inTime_of_stopped {s : State} (hr : s.run = false) (ht : s.timer = 0) (hw : s.wdtCnt = 0) : s.InTime where
  stopped _ := ⟨ht, hw⟩
  timer_lt h := by simp [hr] at h
  pending_le h := by simp [hr] at h
  wdt_le h := by simp [hr] at h

/-- A running block with no tick pending is in time when its watchdog has counted no more than its timer. -/
theorem inTime_of_running {s : State} (hr : s.run = true) (hp : s.tickPending = false)
    (ht : s.timer < tickPeriod s.cfg s.tmode) (hw : s.wdtCnt ≤ s.timer) : s.InTime where
  stopped h := by simp [hr] at h
  timer_lt _ := ht
  pending_le _ h := by simp [hp] at h
  wdt_le _ := by omega

/-- A running block with a tick pending is in time when the tick has waited no longer than a command. -/
theorem inTime_of_pending {s : State} (hc : configValid s.cfg = true) (hr : s.run = true) (hp : s.tickPending = true)
    (ht : s.timer ≤ s.cfg.cmdWcet) (hw : s.wdtCnt ≤ s.timer + tickPeriod s.cfg s.tmode) : s.InTime where
  stopped h := by simp [hr] at h
  timer_lt _ := by have := tickPeriod_gt hc s.tmode; omega
  pending_le _ _ := ht
  wdt_le _ := by simpa [hp] using hw

/-- R48: after a reset the timers are in time. -/
theorem afterReset_inTime (c : Config) (cause : ResetCause) (pins : Inputs) :
    (State.afterReset c cause pins).InTime := inTime_of_stopped rfl rfl rfl

theorem resetEvent_inTime (s : State) : (resetEvent s).InTime :=
  inTime_of_sameExcept (resetEvent_frame s) (by decide) (afterReset_inTime _ _ _)

theorem wdtExpire_inTime (s : State) : (wdtExpire s).InTime :=
  inTime_of_sameExcept (wdtExpire_frame s) (by decide) (afterReset_inTime _ _ _)

/-- R8, R179: the watchdog of a block in time has not expired. -/
theorem wdtDue_of_inTime {s : State} (hc : configValid s.cfg = true) (ht : s.InTime) : wdtDue s = false := by
  have hlt : s.wdtCnt < s.cfg.wdtCycles := by
    have hwdt := wdtCycles_gt hc s.tmode
    rcases Bool.eq_false_or_eq_true s.run with hr | hr
    · have hle := ht.wdt_le hr
      have htimer := ht.timer_lt hr
      rcases Bool.eq_false_or_eq_true s.tickPending with hp | hp
      · have hwait := ht.pending_le hr hp
        simp only [hp, if_true] at hle
        omega
      · simp only [hp, Bool.false_eq_true, if_false] at hle
        omega
    · have h0 := (ht.stopped hr).2
      omega
  simp [wdtDue, hlt]

/-- R176: a tick in time leaves the timers in time, the watchdog checked in. -/
theorem tick_keeps_inTime {s : State} (hc : configValid s.cfg = true) (ht : s.InTime) (hr : s.run = true)
    (hp : s.tickPending = true) : (tick s).InTime := by
  obtain ⟨-, htimer, hpending, -⟩ := tickTimed_inTime hc ht hr hp
  have hrun : (tickTimed s).run = s.run := tickTimed_frame s .run (by decide)
  have hcfg : (tickTimed s).cfg = s.cfg := tickTimed_frame s .cfg (by decide)
  have htmode : (tickTimed s).tmode = s.tmode := tickTimed_frame s .tmode (by decide)
  have hwait := ht.pending_le hr hp
  have htick := tickTime_le s
  have hperiod := tickPeriod_gt hc s.tmode
  rw [tick_inTime hc ht hr hp, checkin_eq]
  refine inTime_of_running (hrun.trans hr) hpending ?_ (Nat.zero_le _)
  simp only [htimer, hcfg, htmode]
  omega

/-- R178: a timing-mode change starts both counters again. -/
theorem tmodeChange_keeps_inTime {s : State} (hc : configValid s.cfg = true) (ht : s.InTime) :
    (tmodeChange s).InTime := by
  rw [tmodeChange_eq]
  rcases Bool.eq_false_or_eq_true s.run with hr | hr
  · have hperiod := tickPeriod_gt hc s.tmodeSync
    exact inTime_of_running hr rfl (Nat.zero_lt_of_lt hperiod) (by simp [hr])
  · exact inTime_of_stopped hr rfl (by simpa [hr] using (ht.stopped hr).2)

/-! ### Cycles with no tick pending -/

/-- A cycle in which no tick is pending leaves the timers in time and traces nothing. -/
theorem clockCycle_of_inTime {s : State} (hc : configValid s.cfg = true) (hs : s.Consistent) (ht : s.InTime)
    (hp : s.tickPending = false) : (clockCycle s).InTime ∧ (clockCycle s).trace = s.trace := by
  rcases Bool.eq_false_or_eq_true s.run with hr | hr
  · have hen := (hs.running hr).2
    have hlt := ht.timer_lt hr
    have hle := ht.wdt_le hr
    simp only [hp, Bool.false_eq_true, if_false] at hle
    have hwdt : (countCycle (syncCycle s)).wdtCnt = s.wdtCnt + 1 := by simp [countCycle, syncCycle, hen]
    by_cases hx : tickPeriod s.cfg s.tmode ≤ s.timer + 1 ∨ tickDrawn s = true
    · rw [clockCycle_expires hr hx hp hs.phase_idle]
      refine ⟨inTime_of_pending hc hr rfl (Nat.zero_le _) ?_, rfl⟩
      simp only [hwdt]
      change _ ≤ 0 + tickPeriod s.cfg s.tmode
      omega
    · obtain ⟨hbefore, hdraw⟩ := not_or.1 hx
      rw [clockCycle_counts hr (by omega) (Bool.eq_false_iff.2 hdraw)]
      refine ⟨inTime_of_running hr hp (Nat.lt_of_not_le hbefore) ?_, rfl⟩
      simp only [hwdt]
      omega
  · obtain ⟨htimer, hwdt⟩ := ht.stopped hr
    rw [clockCycle_stopped hr]
    refine ⟨inTime_of_stopped hr htimer ?_, rfl⟩
    simp [countCycle, syncCycle, (hs.stopped hr).2.1, hwdt]

/-- R173, R190: so do the cycles of a command, in which a tick may become pending. -/
theorem commandState_of_inTime {s : State} (hc : configValid s.cfg = true) (hs : s.Consistent) (ht : s.InTime)
    (hp : s.tickPending = false) :
    (commandState s).InTime ∧ (commandState s).trace = (takeCommand s).trace := by
  have hcfg : (commandState s).cfg = s.cfg := commandState_frame s .cfg (by decide)
  have htmode : (commandState s).tmode = s.tmode := commandState_frame s .tmode (by decide)
  have hrun : (commandState s).run = s.run := commandState_frame s .run (by decide)
  have hwdt : (commandState s).wdtCnt = if s.wdtEn then s.wdtCnt + cmdTime s else s.wdtCnt :=
    elapse_wdtCnt (cmdTime s) (takeCommand s)
  rcases Bool.eq_false_or_eq_true s.run with hr | hr
  · have hle := ht.wdt_le hr
    have hcmd := cmdTime_le hr
    have hperiod := tickPeriod_gt hc s.tmode
    simp only [hp, Bool.false_eq_true, if_false] at hle
    simp only [(hs.running hr).2, if_true] at hwdt
    obtain ⟨hticks, -, -, -, htrace⟩ := elapse_idle (cmdTime s) (s := takeCommand s) hr hp hs.phase_idle
      (ht.timer_lt hr) (show cmdTime s < tickPeriod s.cfg s.tmode by omega)
    refine ⟨?_, htrace⟩
    rcases hticks with ⟨hpend, htimer, hlt⟩ | ⟨j, hj, hjn, hjp, hpend, htimer⟩
    · replace htimer : (commandState s).timer = s.timer + cmdTime s := htimer
      replace hlt : s.timer + cmdTime s < tickPeriod s.cfg s.tmode := hlt
      exact inTime_of_running (hrun.trans hr) hpend (by rw [htimer, hcfg, htmode]; exact hlt) (by omega)
    · replace htimer : (commandState s).timer = cmdTime s - j := htimer
      replace hjp : s.timer + j ≤ tickPeriod s.cfg s.tmode := hjp
      refine inTime_of_pending (by rw [hcfg]; exact hc) (hrun.trans hr) hpend ?_ ?_
      · rw [hcfg]; omega
      · rw [hcfg, htmode]; omega
  · obtain ⟨htimer, hcnt⟩ := ht.stopped hr
    obtain ⟨hstill, -, -, -, -, htrace⟩ := elapse_stopped (cmdTime s) (s := takeCommand s) hr
    refine ⟨inTime_of_stopped (hrun.trans hr) (hstill.trans htimer) ?_, htrace⟩
    simpa [(hs.stopped hr).2.1, hcnt] using hwdt

/-! ### Commands -/

/-- R193, R194: STOP and START set both counters to 0, and no other effect writes them. -/
theorem effectOf_keeps_inTime {s : State} (hc : configValid s.cfg = true) (ht : s.InTime) (i : Instr) :
    (effectOf i s).InTime := by
  by_cases hstop : i = .stop
  · subst hstop
    exact inTime_of_stopped (s := stopEffect s) rfl rfl rfl
  by_cases hstart : i = .start
  · subst hstart
    rcases Bool.eq_false_or_eq_true s.run with hr | hr
    · rwa [effectOf, startEffect_running hr]
    · have hperiod := tickPeriod_gt hc s.tmode
      rw [effectOf, startEffect_stopped hr]
      exact inTime_of_running rfl rfl (Nat.zero_lt_of_lt hperiod) (Nat.le_refl 0)
  · exact inTime_of_sameExcept (effectOf_frame_quiet hstop hstart s) (by decide) ht

theorem execWord_keeps_inTime {w : Word} {s t : State} (hc : configValid s.cfg = true) (ht : s.InTime)
    (h : execWord w s = .next t) : t.InTime := by
  rcases execWord_cases h with ⟨r, rfl⟩ | ⟨i, v, rfl⟩
  · exact inTime_of_sameExcept (refuse_frame r s) (by decide) ht
  · exact inTime_of_sameExcept (respond_frame .ok v _) (by decide) (effectOf_keeps_inTime hc ht i)

/-! ### Every step -/

/-- R173, R209: a cycle in which no event happens has no tick pending. -/
theorem tickPending_of_clock {s : State} (hs : s.Consistent)
    (h : s.phase = .idle → s.tickPending = true → s.run = false) : s.tickPending = false :=
  Bool.eq_false_iff.2 fun hp => by
    have := (hs.stopped (h hs.phase_idle hp)).2.2
    simp [hp] at this

theorem steps_keeps_inTime {s u : State} (hc : configValid s.cfg = true) (hs : s.Consistent) (ht : s.InTime)
    (h : Steps s u) : u.InTime := by
  cases h with
  | reset => exact resetEvent_inTime s
  | wdtExpire => exact wdtExpire_inTime s
  | tick _ _ hr hp _ => exact tick_keeps_inTime hc ht hr hp
  | tmodeChange => exact tmodeChange_keeps_inTime hc ht
  | hostCmd _ _ hp _ _ v hv =>
    have hcfg : (commandState s).cfg = s.cfg := commandState_frame s .cfg (by decide)
    have hv := execWord_keeps_inTime (by rw [hcfg]; exact hc) (commandState_of_inTime hc hs ht hp).1 hv
    exact inTime_of_sameExcept (logCommand_frame _ v) (by decide) hv
  | hostCmdExpires => exact wdtExpire_inTime _
  | clock _ _ h => exact (clockCycle_of_inTime hc hs ht (tickPending_of_clock hs h)).1

/-- Settles O56, case by case of what a step can do. -/
theorem stepKeepsTheTimersInTime : Obligations.StepKeepsTheTimersInTime := by
  intro s t hs ht h
  obtain ⟨hc, u, hu, rfl⟩ := step_cases h
  exact inTime_of_sameExcept (nextInputs_frame u) (by decide) (steps_keeps_inTime hc hs ht hu)

/-! ### Alarms in the trace -/

/-- The trace entries R8 rules out: a missed deadline, and the watchdog's expiry with its reset. -/
def alarms : List Obs := [.event .tickMissed, .event .wdtExpire, .reset .wdt]

/-- From `s` to `t` the trace gains no alarm. -/
def State.addsNoAlarm (s t : State) : Prop := ∃ new, s.adds t new ∧ ∀ o ∈ alarms, o ∉ new

theorem addsNoAlarm_of_trace_eq {s t : State} (h : t.trace = s.trace) : s.addsNoAlarm t :=
  ⟨[], h, fun _ _ => List.not_mem_nil⟩

theorem addsNoAlarm_trans {s t u : State} (h : s.addsNoAlarm t) (h' : t.addsNoAlarm u) : s.addsNoAlarm u := by
  obtain ⟨new, ha, hn⟩ := h
  obtain ⟨new', ha', hn'⟩ := h'
  refine ⟨new' ++ new, adds_trans ha ha', fun o ho hm => ?_⟩
  exact (List.mem_append.1 hm).elim (hn' o ho) (hn o ho)

@[simp] theorem mem_oeChange {o : Obs} {old new : Bool} : o ∈ oeChange old new ↔ old ≠ new ∧ o = .oeN new := by
  unfold oeChange
  split <;> simp [*]

/-! ### What the phases of a tick trace -/

theorem tickStart_addsNoAlarm (s : State) : s.addsNoAlarm (tickStart s) :=
  ⟨[.event .tick], rfl, by simp [alarms]⟩

theorem drive_addsNoAlarm (s : State) : s.addsNoAlarm (drive s) := by
  rcases drive_cases s with ⟨-, h⟩ | ⟨-, -, h⟩ | ⟨-, -, h⟩ <;> rw [h]
  · exact ⟨.emit (afterglowFrame s) :: .phase .drive
      :: (oeChange s.out.soOeN false ++ [.emit 0, .phase .blank]), by simp [State.adds], by simp [alarms]⟩
  · exact ⟨oeChange s.out.soOeN false ++ [.emit s.rawPrev, .phase .drive], by simp [State.adds],
      by simp [alarms]⟩
  · exact ⟨[.phase .drive], rfl, by simp [alarms]⟩

theorem sample_addsNoAlarm (s : State) : s.addsNoAlarm (sample s) := by
  rw [sample_eq]
  refine ⟨(if s.testT then [] else [.shiftIn s.pins.siLines]) ++ [.phase .sample], by simp [State.adds], ?_⟩
  cases s.testT <;> simp [alarms]

theorem validate_addsNoAlarm (f : Frame) (s : State) : s.addsNoAlarm (validate f s) := by
  refine ⟨_, validate_trace f s, ?_⟩
  cases acceptedColumn f s <;> simp [alarms]

theorem advance_addsNoAlarm (s : State) : s.addsNoAlarm (advance s) :=
  ⟨[.phase .advance], rfl, by simp [alarms]⟩

theorem tickPhases_addsNoAlarm (s : State) : s.addsNoAlarm (tickPhases s) := by
  rw [tickPhases_eq, tickDriven]
  exact addsNoAlarm_trans (tickStart_addsNoAlarm s) <| addsNoAlarm_trans (drive_addsNoAlarm _) <|
    addsNoAlarm_trans (sample_addsNoAlarm _) <| addsNoAlarm_trans (validate_addsNoAlarm _ _) (advance_addsNoAlarm _)

/-! ### What the events trace -/

/-- R172, R174: a tick in time traces its phases, and no missed deadline. -/
theorem tick_addsNoAlarm {s : State} (hc : configValid s.cfg = true) (ht : s.InTime) (hr : s.run = true)
    (hp : s.tickPending = true) : s.addsNoAlarm (tick s) := by
  obtain ⟨-, -, -, -, -, -, htrace⟩ := tickTimed_inTime hc ht hr hp
  rw [tick_inTime hc ht hr hp, checkin_eq]
  exact addsNoAlarm_trans (tickPhases_addsNoAlarm s) ⟨[.phase .checkin], htrace, by simp [alarms]⟩

theorem resetEvent_addsNoAlarm (s : State) : s.addsNoAlarm (resetEvent s) := by
  unfold resetEvent
  split
  · exact addsNoAlarm_of_trace_eq rfl
  · exact ⟨oeChange s.out.soOeN true ++ [.reset .pin, .event .reset], by simp [State.adds, resetAction],
      by simp [alarms]⟩

/-- Of the effects of the commands, STOP's alone is traced, where it blanks the outputs. -/
theorem effectOf_addsNoAlarm (i : Instr) (s : State) : s.addsNoAlarm (effectOf i s) := by
  by_cases hstop : i = .stop
  · subst hstop
    exact ⟨oeChange s.out.soOeN true, rfl, by simp [alarms]⟩
  by_cases hstart : i = .start
  · subst hstart
    exact addsNoAlarm_of_trace_eq (startEffect_frame s .trace (by decide))
  · exact addsNoAlarm_of_trace_eq (effectOf_frame_quiet hstop hstart s .trace (by decide))

theorem execWord_addsNoAlarm {w : Word} {s t : State} (h : execWord w s = .next t) : s.addsNoAlarm t := by
  rcases execWord_cases h with ⟨r, rfl⟩ | ⟨i, v, rfl⟩
  · exact addsNoAlarm_of_trace_eq (refuse_frame r s .trace (by decide))
  · exact addsNoAlarm_trans (effectOf_addsNoAlarm i s) (addsNoAlarm_of_trace_eq rfl)

/-- A command whose cycles trace nothing traces its event, its effect and its answer. -/
theorem logCommand_addsNoAlarm {w : Word} {s v : State} (htrace : (commandState s).trace = (takeCommand s).trace)
    (hv : execWord w (commandState s) = .next v) : s.addsNoAlarm (logCommand w v) :=
  addsNoAlarm_trans (t := commandState s) ⟨[.event .hostCmd], htrace, by simp [alarms]⟩ <|
    addsNoAlarm_trans (execWord_addsNoAlarm hv) ⟨[.command w v.rsp v.res], rfl, by simp [alarms]⟩

/-- R180: a watchdog expiry traces no missed deadline. -/
theorem wdtExpire_adds_noMiss (s : State) : ∃ new, s.adds (wdtExpire s) new ∧ .event .tickMissed ∉ new :=
  ⟨.wdtReset false :: (oeChange s.out.soOeN true ++ [.reset .wdt, .wdtReset true, .event .wdtExpire]),
    by simp [State.adds, wdtExpire_trace], by simp⟩

/-- R8: the event of a step traces no alarm, but for the watchdog expiry the environment draws. -/
theorem steps_addsNoAlarm {s u : State} (hc : configValid s.cfg = true) (hs : s.Consistent) (ht : s.InTime)
    (h : Steps s u) : s.addsNoAlarm u ∨ (s.pins.wdtFault = true ∧ u = wdtExpire s) := by
  cases h with
  | reset => exact .inl (resetEvent_addsNoAlarm s)
  | wdtExpire _ h =>
    rcases h with hw | ⟨hfault, -⟩
    · simp [wdtDue_of_inTime hc ht] at hw
    · exact .inr ⟨hfault, rfl⟩
  | tick _ _ hr hp _ => exact .inl (tick_addsNoAlarm hc ht hr hp)
  | tmodeChange => exact .inl ⟨[.event .tmodeChange], rfl, by simp [alarms]⟩
  | hostCmd _ _ hp _ _ v hv => exact .inl (logCommand_addsNoAlarm (commandState_of_inTime hc hs ht hp).2 hv)
  | hostCmdExpires _ _ hp _ hd =>
    have hcfg : (commandState s).cfg = s.cfg := commandState_frame s .cfg (by decide)
    simp [wdtDue_of_inTime (by rw [hcfg]; exact hc) (commandState_of_inTime hc hs ht hp).1] at hd
  | clock _ _ h =>
    exact .inl (addsNoAlarm_of_trace_eq (clockCycle_of_inTime hc hs ht (tickPending_of_clock hs h)).2)

/-- Settles O57, case by case of what a step can do. -/
theorem noDeadlineIsMissed : Obligations.NoDeadlineIsMissed := by
  intro s t hs ht h
  obtain ⟨hc, u, hu, rfl⟩ := step_cases h
  have hnext : (nextInputs u).trace = u.trace := nextInputs_frame u .trace (by decide)
  rcases steps_addsNoAlarm hc hs ht hu with ⟨new, hadds, hnew⟩ | ⟨hfault, rfl⟩
  · exact ⟨new, hnext.trans hadds, hnew _ (by decide), fun _ => ⟨hnew _ (by decide), hnew _ (by decide)⟩⟩
  · obtain ⟨new, hadds, hmiss⟩ := wdtExpire_adds_noMiss s
    exact ⟨new, hnext.trans hadds, hmiss, fun hno => by simp [hfault] at hno⟩

end Sys2Proof.Machine
end

section
/-! SUPPORT. Proofs about `spec/10_state.md`: every step keeps the invariants of R49 and the idle port pins,
RUN changes only where R22 says, a reset gives every register its value of R48, one clock cycle (R24, R26), and
the tick counter of R25. -/

namespace Sys2Proof.Machine

/-! ### What a command word does, with its guard -/

/-- `execWord_cases` with the guard of R191: a word is refused, or its command, one allowed in this run state, is
answered. -/
theorem execWord_answers {w : Word} {s t : State} (h : execWord w s = .next t) :
    (∃ r, t = refuse r s)
    ∨ ∃ i v, decode w = .ok i ∧ (stoppedOnlyOf i && s.run) = false ∧ t = respond .ok v (effectOf i s) := by
  unfold execWord at h
  split at h
  · next i hi =>
    rw [exec_eq] at h
    rcases command_cases (stoppedOnlyOf i) (operandOf i) (effectOf i) (valueOf i) s
      with ⟨hc, hrun, -⟩ | ⟨hc, -⟩ | ⟨hc, -⟩ <;> rw [hc] at h <;> cases h
    · exact .inr ⟨i, _, hi, hrun, rfl⟩
    · exact .inl ⟨.busy, rfl⟩
    · exact .inl ⟨.range, rfl⟩
  · cases h
    exact .inl ⟨.illegal, rfl⟩

/-! ### The invariants of R49 -/

/-- The pieces of the state `Consistent` speaks of, `TICK_PENDING` apart, which a cycle of a running block sets. -/
def invariantFields : List Field :=
  [.cfg, .run, .tmode, .phase, .subIdx, .glowCode, .brightCode, .cfgDirty, .stepTab, .maxsubTab, .lastAcc, .cons,
   .soOeN, .wdtEn]

/-- What writes none of these pieces, and leaves no tick pending in a stopped block, keeps the invariants. -/
theorem consistent_of_sameExcept {s t : State} {l : List Field} (h : s.sameExcept t l)
    (hl : ∀ f ∈ invariantFields, f ∉ l) (hp : s.run = false → t.tickPending = false) (hs : s.Consistent) :
    t.Consistent := by
  have keep : ∀ f ∈ invariantFields, s.agreesOn t f := fun f hf => h f (hl f hf)
  have hcfg : t.cfg = s.cfg := keep .cfg (by decide)
  have hrun : t.run = s.run := keep .run (by decide)
  have htmode : t.tmode = s.tmode := keep .tmode (by decide)
  have hphase : t.phase = s.phase := keep .phase (by decide)
  have hsub : t.subIdx = s.subIdx := keep .subIdx (by decide)
  have hglow : t.glowCode = s.glowCode := keep .glowCode (by decide)
  have hbright : t.brightCode = s.brightCode := keep .brightCode (by decide)
  have hdirty : t.cfgDirty = s.cfgDirty := keep .cfgDirty (by decide)
  have hstep : t.stepTab = s.stepTab := keep .stepTab (by decide)
  have hmax : t.maxsubTab = s.maxsubTab := keep .maxsubTab (by decide)
  have hacc : t.lastAcc = s.lastAcc := keep .lastAcc (by decide)
  have hcons : t.cons = s.cons := keep .cons (by decide)
  have hoe : t.out.soOeN = s.out.soOeN := keep .soOeN (by decide)
  have hen : t.wdtEn = s.wdtEn := keep .wdtEn (by decide)
  have hstopped : t.run = false → t.out.soOeN = true ∧ t.wdtEn = false ∧ t.tickPending = false := fun hr => by
    have hr : s.run = false := hrun.symm.trans hr
    obtain ⟨hblank, hoff, -⟩ := hs.stopped hr
    exact ⟨hoe.trans hblank, hen.trans hoff, hp hr⟩
  obtain ⟨h1, h2, h3, -, h5, h6, h7, h8⟩ := hs
  exact {
    subIdx_lt := by simpa only [hsub, hcfg, htmode]
    cons_le := by simpa only [hcons, hcfg]
    phase_idle := hphase.trans h3
    stopped := hstopped
    running := by simpa only [hrun, hdirty, hen]
    derived := by simpa only [hdirty, hstep, hmax, hcfg, htmode, hglow, hbright]
    lastAcc_onehot := by simpa only [hacc]
    step_pos := by simpa only [hstep] }

/-- The same, where `TICK_PENDING` is not written either. -/
theorem consistent_of_sameExcept_pending {s t : State} {l : List Field} (h : s.sameExcept t l)
    (hl : ∀ f ∈ .tickPending :: invariantFields, f ∉ l) (hs : s.Consistent) : t.Consistent :=
  consistent_of_sameExcept h (fun f hf => hl f (List.mem_cons_of_mem _ hf))
    (fun hr => (h .tickPending (hl _ List.mem_cons_self)).trans (hs.stopped hr).2.2) hs

/-- R138: every step DERIVE makes is at least 1. -/
theorem deriveStep_pos (c : Config) (m : Bool) (g : Table 8) (i : Nat) (hi : i < 64) :
    1 ≤ (readTable (deriveStep c m g) i).toNat := by
  rw [readTable_deriveStep c m g hi]
  exact glowStep_pos c _ m

/-- R8: a window has 1 to 256 sub-cycles. -/
theorem subCycles_bounds {c : Config} (h : configValid c = true) (m : Bool) :
    1 ≤ subCycles c m ∧ subCycles c m ≤ 256 := by
  simp only [configValid, Bool.and_eq_true, decide_eq_true_eq] at h
  obtain ⟨h0, h0', h1, h1', -⟩ := h
  cases m
  · exact ⟨h0, h0'⟩
  · exact ⟨h1, h1'⟩

theorem consMax_le {c : Config} (h : configValid c = true) : c.consMax ≤ 255 := by
  simp only [configValid, Bool.and_eq_true, decide_eq_true_eq] at h
  omega

/-! ### Resets -/

/-- R48: the state after a reset meets the invariants. -/
theorem afterReset_consistent {c : Config} (hc : configValid c = true) (cause : ResetCause) (pins : Inputs) :
    (State.afterReset c cause pins).Consistent where
  subIdx_lt := (subCycles_bounds hc pins.tmodeIn).1
  cons_le := Nat.zero_le _
  phase_idle := rfl
  stopped _ := ⟨rfl, rfl, rfl⟩
  running h := by cases h
  derived _ := ⟨rfl, rfl⟩
  lastAcc_onehot := .inl rfl
  step_pos := deriveStep_pos c pins.tmodeIn _

theorem resetEvent_consistent {s : State} (hc : configValid s.cfg = true) : (resetEvent s).Consistent :=
  consistent_of_sameExcept_pending (resetEvent_frame s) (by decide) (afterReset_consistent hc _ _)

theorem wdtExpire_consistent {s : State} (hc : configValid s.cfg = true) : (wdtExpire s).Consistent :=
  consistent_of_sameExcept_pending (wdtExpire_frame s) (by decide) (afterReset_consistent hc _ _)

/-! ### The tick -/

/-- R113: the consistency counter stays at or below its saturation value. -/
theorem nextCons_le {s : State} (h : s.cfg.consMax ≤ 255) (f : Frame) : (nextCons f s).toNat ≤ s.cfg.consMax := by
  rw [nextCons_toNat h]
  split <;> omega

/-- R175: the sub-cycle index stays below `N`. -/
theorem nextSubIdx_lt {n : Nat} (h1 : 1 ≤ n) (h2 : n ≤ 256) (col : BitVec 3) {sub : Byte} (h : sub.toNat < n) :
    (nextSubIdx n col sub).toNat < n := by
  rw [nextSubIdx_toNat h1 h2]
  split
  · exact Nat.mod_lt _ h1
  · exact h

/-- R111, R115: VALIDATE accepts one-hot masks only. -/
theorem validate_lastAcc_onehot (f : Frame) {s : State} (h : s.lastAcc = 0 ∨ onehot8 s.lastAcc = true) :
    (validate f s).lastAcc = 0 ∨ onehot8 (validate f s).lastAcc = true := by
  cases hacc : acceptedColumn f s with
  | none => rwa [validate_drops hacc]
  | some c =>
    obtain ⟨hc, hmask, -⟩ := (acceptedColumn_eq_some_iff f s c).1 hacc
    rw [validate_accepts hacc]
    exact .inr ((onehot8_iff _).2 ⟨c, (index8_eq_some_iff _ c).2 ⟨hc, hmask⟩⟩)

/-- R174, R176: a tick that CHECKIN ends meets the invariants again. -/
theorem checkin_tickTimed_consistent {s : State} (hc : configValid s.cfg = true) (hs : s.Consistent)
    (hr : s.run = true) : ({ checkin (tickTimed s) with phase := .idle } : State).Consistent := by
  have hf := tickTimed_frame s
  have hcfg : (tickTimed s).cfg = s.cfg := hf .cfg (by decide)
  have hrun : (tickTimed s).run = s.run := hf .run (by decide)
  have htmode : (tickTimed s).tmode = s.tmode := hf .tmode (by decide)
  have hglow : (tickTimed s).glowCode = s.glowCode := hf .glowCode (by decide)
  have hbright : (tickTimed s).brightCode = s.brightCode := hf .brightCode (by decide)
  have hdirty : (tickTimed s).cfgDirty = s.cfgDirty := hf .cfgDirty (by decide)
  have hstep : (tickTimed s).stepTab = s.stepTab := hf .stepTab (by decide)
  have hmax : (tickTimed s).maxsubTab = s.maxsubTab := hf .maxsubTab (by decide)
  have hen : (tickTimed s).wdtEn = s.wdtEn := hf .wdtEn (by decide)
  obtain ⟨-, -, -, -, -, -, -, hacc, hcons, -, -, hsub, -⟩ := tickPhases_writes s
  have hacc : (tickTimed s).lastAcc = (validate (tickSample s) s).lastAcc := (elapse_lastAcc _ _).trans hacc
  have hcons : (tickTimed s).cons = nextCons (tickSample s) s := (elapse_cons _ _).trans hcons
  have hsub : (tickTimed s).subIdx = nextSubIdx (subCycles s.cfg s.tmode) s.tickCol s.subIdx :=
    (elapse_subIdx _ _).trans hsub
  obtain ⟨hn, hn'⟩ := subCycles_bounds hc s.tmode
  rw [checkin_eq]
  exact {
    subIdx_lt := by simpa only [hsub, hcfg, htmode] using nextSubIdx_lt hn hn' s.tickCol hs.subIdx_lt
    cons_le := by simpa only [hcons, hcfg] using nextCons_le (consMax_le hc) (tickSample s)
    phase_idle := rfl
    stopped := fun h => by simp [hrun, hr] at h
    running := by simpa only [hrun, hdirty, hen] using hs.running
    derived := by simpa only [hdirty, hstep, hmax, hcfg, htmode, hglow, hbright] using hs.derived
    lastAcc_onehot := by simpa only [hacc] using validate_lastAcc_onehot (tickSample s) hs.lastAcc_onehot
    step_pos := by simpa only [hstep] using hs.step_pos }

theorem tickTimed_cfg (s : State) : (tickTimed s).cfg = s.cfg := tickTimed_frame s .cfg (by decide)

theorem tick_keeps_consistent {s : State} (hc : configValid s.cfg = true) (hs : s.Consistent)
    (hr : s.run = true) : (tick s).Consistent := by
  rw [tick_eq]
  split
  · exact wdtExpire_consistent (by rwa [tickTimed_cfg])
  · exact checkin_tickTimed_consistent hc hs hr

/-! ### The other events -/

/-- R178: a timing-mode change derives the tables for the new mode. -/
theorem tmodeChange_keeps_consistent {s : State} (hc : configValid s.cfg = true) (hs : s.Consistent) :
    (tmodeChange s).Consistent := by
  rw [tmodeChange_eq]
  exact { hs with
    subIdx_lt := (subCycles_bounds hc s.tmodeSync).1
    stopped := fun hr => ⟨(hs.stopped hr).1, (hs.stopped hr).2.1, rfl⟩
    running := fun hr => ⟨rfl, (hs.running hr).2⟩
    derived := fun _ => ⟨rfl, rfl⟩
    step_pos := deriveStep_pos s.cfg s.tmodeSync s.glowCode }

/-- R170: cycles make no tick pending in a stopped block. -/
theorem elapse_keeps_consistent (n : Nat) {s : State} (hs : s.Consistent) : (elapse n s).Consistent :=
  consistent_of_sameExcept (elapse_frame n s) (by decide)
    (fun hr => (elapse_stopped n hr).2.1.trans (hs.stopped hr).2.2) hs

theorem commandState_consistent {s : State} (hs : s.Consistent) : (commandState s).Consistent :=
  elapse_keeps_consistent _ (consistent_of_sameExcept_pending (takeCommand_frame s) (by decide) hs)

theorem commandState_cfg (s : State) : (commandState s).cfg = s.cfg := commandState_frame s .cfg (by decide)

theorem commandState_run (s : State) : (commandState s).run = s.run := commandState_frame s .run (by decide)

/-- R193: STOP blanks the outputs and turns the watchdog off. -/
theorem stopEffect_keeps_consistent {s : State} (hs : s.Consistent) : (stopEffect s).Consistent := by
  rw [stopEffect_eq]
  exact { hs with
    stopped := fun _ => ⟨rfl, rfl, rfl⟩
    running := fun h => by cases h }

/-- R201: APPLY derives the tables of a stopped block. -/
theorem derive_keeps_consistent {s : State} (hs : s.Consistent) : (derive s).Consistent := by
  rw [derive_eq]
  exact { hs with
    running := fun hr => ⟨rfl, (hs.running hr).2⟩
    derived := fun _ => ⟨rfl, rfl⟩
    step_pos := deriveStep_pos s.cfg s.tmode s.glowCode }

/-- R194: a block with clean tables starts with its watchdog on. -/
theorem started_consistent {s : State} (hs : s.Consistent) (hd : s.cfgDirty = false) :
    ({ s with timer := 0, tickPending := false, wdtCnt := 0, wdtEn := true, run := true } : State).Consistent :=
  { hs with
    stopped := fun h => by cases h
    running := fun _ => ⟨hd, rfl⟩ }

/-- R194: START derives the tables where they are not clean. -/
theorem startEffect_keeps_consistent {s : State} (hs : s.Consistent) : (startEffect s).Consistent := by
  rcases Bool.eq_false_or_eq_true s.run with hr | hr
  · rwa [startEffect_running hr]
  · simp only [startEffect, hr, Bool.false_eq_true, if_false]
    split
    · exact started_consistent (derive_keeps_consistent hs) rfl
    · next hd => exact started_consistent hs (Bool.eq_false_iff.2 hd)

/-- R197, R198: a code write leaves a stopped block with unclean tables, of which `derived` says nothing. -/
theorem writeCode_keeps_consistent {s : State} (hs : s.Consistent) (hr : s.run = false) (glow bright : Table 8) :
    ({ s with glowCode := glow, brightCode := bright, cfgDirty := true } : State).Consistent :=
  { hs with
    running := fun h => by simp [hr] at h
    derived := fun h => by cases h }

theorem effectOf_keeps_consistent {i : Instr} {s : State} (hs : s.Consistent)
    (h : (stoppedOnlyOf i && s.run) = false) : (effectOf i s).Consistent := by
  cases i with
  | stop => exact stopEffect_keeps_consistent hs
  | start => exact startEffect_keeps_consistent hs
  | clrStatus mask => exact consistent_of_sameExcept_pending (clearStatus_frame mask s) (by decide) hs
  | wrGlowcode idx code => exact writeCode_keeps_consistent hs h (writeTable s.glowCode idx code) s.brightCode
  | wrBrightcode idx code => exact writeCode_keeps_consistent hs h s.glowCode (writeTable s.brightCode idx code)
  | apply => exact derive_keeps_consistent hs
  | clrDiag mask => exact consistent_of_sameExcept_pending (clearDiag_frame mask s) (by decide) hs
  | nop | rdStatus | rdGlowcode | rdBrightcode | rdStep | rdMaxsub | rdLamp | rdDiag => exact hs

theorem execWord_keeps_consistent {w : Word} {s t : State} (hs : s.Consistent) (h : execWord w s = .next t) :
    t.Consistent := by
  rcases execWord_answers h with ⟨r, rfl⟩ | ⟨i, v, -, hi, rfl⟩
  · exact consistent_of_sameExcept_pending (refuse_frame r s) (by decide) hs
  · exact consistent_of_sameExcept_pending (respond_frame .ok v _) (by decide) (effectOf_keeps_consistent hs hi)

theorem clockCycle_keeps_consistent {s : State} (hs : s.Consistent) : (clockCycle s).Consistent :=
  elapse_keeps_consistent 1 hs

theorem steps_keeps_consistent {s u : State} (hc : configValid s.cfg = true) (hs : s.Consistent)
    (h : Steps s u) : u.Consistent := by
  cases h with
  | reset => exact resetEvent_consistent hc
  | wdtExpire => exact wdtExpire_consistent hc
  | tick _ _ hr _ _ => exact tick_keeps_consistent hc hs hr
  | tmodeChange => exact tmodeChange_keeps_consistent hc hs
  | hostCmd _ _ _ _ _ v hv =>
    exact consistent_of_sameExcept_pending (logCommand_frame _ v) (by decide)
      (execWord_keeps_consistent (commandState_consistent hs) hv)
  | hostCmdExpires => exact wdtExpire_consistent (by rwa [commandState_cfg])
  | clock => exact clockCycle_keeps_consistent hs

/-- Settles O54, case by case of what a step can do. -/
theorem stepKeepsTheStateConsistent : Obligations.StepKeepsTheStateConsistent := by
  intro s t hs h
  obtain ⟨hc, u, hu, rfl⟩ := step_cases h
  exact consistent_of_sameExcept_pending (nextInputs_frame u) (by decide) (steps_keeps_consistent hc hs hu)

/-! ### Idle port pins -/

/-- The pieces of the state `pinsIdle` speaks of. -/
def portFields : List Field := [.soClk, .soData, .soLatch, .siClk, .siLoadN, .wdtReset]

/-- What writes no port pin keeps the pins idle. -/
theorem pinsIdle_of_sameExcept {s t : State} {l : List Field} (h : s.sameExcept t l)
    (hl : ∀ f ∈ portFields, f ∉ l) (hs : s.pinsIdle) : t.pinsIdle := by
  obtain ⟨h1, h2, h3, h4, h5, h6⟩ := hs
  exact ⟨(h .soClk (hl _ (by decide))).trans h1, (h .soData (hl _ (by decide))).trans h2,
    (h .soLatch (hl _ (by decide))).trans h3, (h .siClk (hl _ (by decide))).trans h4,
    (h .siLoadN (hl _ (by decide))).trans h5, (h .wdtReset (hl _ (by decide))).trans h6⟩

/-- R36, R48: a reset idles the pins. -/
theorem afterReset_pinsIdle (c : Config) (cause : ResetCause) (pins : Inputs) :
    (State.afterReset c cause pins).pinsIdle := ⟨rfl, rfl, rfl, rfl, rfl, rfl⟩

theorem resetEvent_pinsIdle (s : State) : (resetEvent s).pinsIdle :=
  pinsIdle_of_sameExcept (resetEvent_frame s) (by decide) (afterReset_pinsIdle _ _ _)

theorem wdtExpire_pinsIdle (s : State) : (wdtExpire s).pinsIdle :=
  pinsIdle_of_sameExcept (wdtExpire_frame s) (by decide) (afterReset_pinsIdle _ _ _)

/-- R150: an emission ends with the output port at rest. -/
theorem drive_keeps_pinsIdle {s : State} (hs : s.pinsIdle) : (drive s).pinsIdle := by
  obtain ⟨-, -, -, hclk, hload, hwdt⟩ := id hs
  rcases drive_cases s with ⟨-, h⟩ | ⟨-, -, h⟩ | ⟨-, -, h⟩ <;> rw [h]
  · exact ⟨rfl, rfl, rfl, hclk, hload, hwdt⟩
  · exact ⟨rfl, rfl, rfl, hclk, hload, hwdt⟩
  · exact hs

/-- R101: a shift-in ends with the input port at rest. -/
theorem sample_keeps_pinsIdle {s : State} (hs : s.pinsIdle) : (sample s).pinsIdle := by
  obtain ⟨hclk, hdata, hlatch, -, -, hwdt⟩ := id hs
  rw [sample_eq]
  cases s.testT
  · exact ⟨hclk, hdata, hlatch, rfl, rfl, hwdt⟩
  · exact hs

theorem tickPhases_keeps_pinsIdle {s : State} (hs : s.pinsIdle) : (tickPhases s).pinsIdle := by
  have hstart : (tickStart s).pinsIdle := pinsIdle_of_sameExcept (tickStart_frame s) (by decide) hs
  have hsampled : (sample (tickDriven s)).pinsIdle := sample_keeps_pinsIdle (drive_keeps_pinsIdle hstart)
  rw [tickPhases_eq]
  exact pinsIdle_of_sameExcept (advance_frame _) (by decide)
    (pinsIdle_of_sameExcept (validate_frame _ _) (by decide) hsampled)

theorem elapse_keeps_pinsIdle (n : Nat) {s : State} (hs : s.pinsIdle) : (elapse n s).pinsIdle :=
  pinsIdle_of_sameExcept (elapse_frame n s) (by decide) hs

theorem tick_keeps_pinsIdle {s : State} (hs : s.pinsIdle) : (tick s).pinsIdle := by
  rw [tick_eq]
  split
  · exact wdtExpire_pinsIdle _
  · exact elapse_keeps_pinsIdle (tickTime s) (s := (tickPhases s).enter .checkin) (tickPhases_keeps_pinsIdle hs)

theorem commandState_keeps_pinsIdle {s : State} (hs : s.pinsIdle) : (commandState s).pinsIdle :=
  pinsIdle_of_sameExcept (commandState_frame s) (by decide) hs

theorem steps_keeps_pinsIdle {s u : State} (hs : s.pinsIdle) (h : Steps s u) : u.pinsIdle := by
  cases h with
  | reset => exact resetEvent_pinsIdle s
  | wdtExpire => exact wdtExpire_pinsIdle s
  | tick => exact tick_keeps_pinsIdle hs
  | tmodeChange => exact hs
  | hostCmd _ _ _ _ _ v hv =>
    exact pinsIdle_of_sameExcept (logCommand_frame _ v) (by decide)
      (pinsIdle_of_sameExcept (execWord_frame hv) (by decide) (commandState_keeps_pinsIdle hs))
  | hostCmdExpires => exact wdtExpire_pinsIdle _
  | clock => exact pinsIdle_of_sameExcept (clockCycle_frame s) (by decide) hs

/-- Settles O58, case by case of what a step can do. -/
theorem portPinsRestBetweenEvents : Obligations.PortPinsRestBetweenEvents := by
  intro s t hs h
  obtain ⟨-, u, hu, rfl⟩ := step_cases h
  exact pinsIdle_of_sameExcept (nextInputs_frame u) (by decide) (steps_keeps_pinsIdle hs hu)

/-! ### Reset values -/

/-- Settles O55. -/
theorem resetStateIsConsistent : Obligations.ResetStateIsConsistent := fun c cause pins hc =>
  ⟨afterReset_consistent hc cause pins, afterReset_inTime c cause pins, afterReset_pinsIdle c cause pins⟩

/-- R48: the elements of every table after a reset. -/
theorem resetAction_tables (cause : ResetCause) (s : State) {i : Nat} (hi : i < 64) :
    readTable (resetAction cause s).matrix i = 0
    ∧ readTable (resetAction cause s).glowCode i = s.cfg.defaultGlowCode
    ∧ readTable (resetAction cause s).brightCode i = s.cfg.defaultBrightCode
    ∧ readTable (resetAction cause s).stepTab i = glowStep s.cfg s.cfg.defaultGlowCode s.pins.tmodeIn
    ∧ readTable (resetAction cause s).maxsubTab i
        = maxSub s.cfg.defaultBrightCode (subCycles s.cfg s.pins.tmodeIn) := by
  simp [resetAction, State.afterReset, hi]

/-- R240: the block is ready for a command after a reset with `RESET_N` high. -/
theorem resetAction_cmdReady {s : State} (cause : ResetCause) (h : s.pins.resetN = true) :
    (resetAction cause s).cmdReady = true := by
  simp [State.cmdReady, resetAction, State.afterReset, h]

/-- Settles O46: the tables by their elements, each register as RESET writes it. -/
theorem resetSetsEveryRegister : Obligations.ResetSetsEveryRegister := by
  rintro s _ cause rfl
  refine ⟨fun i hi => resetAction_tables cause s hi, ?_⟩
  have hwdt : cause = .wdt → (resetAction cause s).rstWdt = true ∧ (resetAction cause s).lastEc = .wdt := by
    rintro rfl
    exact ⟨rfl, rfl⟩
  have hpin : cause = .pin → (resetAction cause s).rstWdt = false ∧ (resetAction cause s).lastEc = .none := by
    rintro rfl
    exact ⟨rfl, rfl⟩
  exact ⟨rfl, rfl, rfl, rfl, rfl, rfl, rfl, rfl, rfl, rfl, rfl, rfl, rfl, rfl, rfl, rfl, rfl, rfl, rfl, rfl, rfl,
    rfl, rfl, rfl, rfl, rfl, rfl, hwdt, hpin, rfl, rfl, rfl, rfl, rfl, rfl, resetAction_cmdReady cause, rfl, rfl,
    rfl, rfl⟩

/-! ### One clock cycle -/

/-- R24: a strap takes one cycle per stage of its synchroniser. -/
theorem clockCycle_straps (s : State) :
    (clockCycle s).tmodeMeta = s.pins.tmodeIn ∧ (clockCycle s).tmodeSync = s.tmodeMeta
    ∧ (clockCycle s).agMeta = s.pins.agIn ∧ (clockCycle s).agSync = s.agMeta
    ∧ (clockCycle s).testMeta = s.pins.testIn ∧ (clockCycle s).testSync = s.testMeta
    ∧ (clockCycle s).tselMeta = s.pins.tselIn ∧ (clockCycle s).tselSync = s.tselMeta := by
  rcases clockCycle_cases s with h | h | h | h <;> rw [h] <;> exact ⟨rfl, rfl, rfl, rfl, rfl, rfl, rfl, rfl⟩

/-- R42: the duration counter, as a number. -/
theorem clockCycle_durCur_toNat (s : State) : (clockCycle s).durCur.toNat
    = if s.phase = .idle then s.durCur.toNat else min 65535 (s.durCur.toNat + 1) := by
  rw [clockCycle_durCur]
  split
  · rfl
  · exact satInc16_toNat _

/-- Settles O44, by the cases of a clock cycle: it stands, counts, expires or misses. -/
theorem tickTimerExpiresOrMisses : Obligations.TickTimerExpiresOrMisses := by
  rintro s period rfl
  refine ⟨fun hr => ?_, fun hr ht hd => ?_, fun hr ht hp hi => ?_, fun hr ht hp => ?_, clockCycle_straps s,
    clockCycle_wdtCnt s, clockCycle_durCur_toNat s, clockCycle_frame s⟩
  · rw [clockCycle_stopped hr]
    exact ⟨rfl, rfl, rfl⟩
  · rw [clockCycle_counts hr ht (tickDrawn_eq_false hd)]
    exact ⟨rfl, rfl, rfl⟩
  · have hx : tickPeriod s.cfg s.tmode ≤ s.timer + 1 ∨ tickDrawn s = true :=
      ht.imp_right fun hnow => by simp [tickDrawn, hnow, hp, hi]
    rw [clockCycle_expires hr hx hp hi]
    exact ⟨rfl, rfl, rfl⟩
  · rw [clockCycle_misses hr ht hp]
    exact ⟨rfl, rfl, satInc16_toNat _, rfl, rfl, rfl⟩

/-! ### The tick counter -/

/-- R25: `TICK_COL` and `SUB_IDX` stand for the tick count `k`. -/
def State.countsTo (s : State) (k : Nat) : Prop :=
  s.tickCol.toNat = k % 8 ∧ s.subIdx.toNat = k / 8 % subCycles s.cfg s.tmode

/-- R175: ADVANCE counts one tick. -/
theorem advance_countsTo {s : State} {k : Nat} (hc : configValid s.cfg = true) (h : s.countsTo k) :
    (advance s).countsTo (k + 1) := by
  obtain ⟨hcol, hsub⟩ := h
  obtain ⟨hn, hn'⟩ := subCycles_bounds hc s.tmode
  rw [advance_eq]
  refine ⟨?_, ?_⟩
  · calc (nextTickCol s.tickCol).toNat = (k % 8 + 1) % 8 := by rw [nextTickCol_toNat, hcol]
      _ = (k + 1) % 8 := Nat.mod_add_mod k 8 1
  · change (nextSubIdx (subCycles s.cfg s.tmode) s.tickCol s.subIdx).toNat = (k + 1) / 8 % subCycles s.cfg s.tmode
    rw [nextSubIdx_toNat hn hn']
    have hlast : s.tickCol = 7 ↔ k % 8 = 7 := by rw [← hcol, ← BitVec.toNat_inj]; rfl
    split
    · next h7 =>
      have hk : (k + 1) / 8 = k / 8 + 1 := by have := hlast.1 h7; omega
      rw [hsub, hk, Nat.mod_add_mod]
    · next h7 =>
      have hk : (k + 1) / 8 = k / 8 := by have := mt hlast.2 h7; omega
      rw [hsub, hk]

/-- R25: `n` ADVANCEs count `n` ticks, in the same configuration and timing mode. -/
theorem advances_countsTo (n : Nat) {s : State} {k : Nat} (hc : configValid s.cfg = true) (h : s.countsTo k) :
    (advances n s).countsTo (k + n) ∧ (advances n s).cfg = s.cfg ∧ (advances n s).tmode = s.tmode := by
  induction n generalizing s k with
  | zero => exact ⟨h, rfl, rfl⟩
  | succ n ih =>
    obtain ⟨hcount, hcfg, htmode⟩ := ih (s := advance s) hc (advance_countsTo hc h)
    rw [Nat.add_right_comm] at hcount
    exact ⟨hcount, hcfg, htmode⟩

/-- Settles O39, by induction on the number of ADVANCEs from the count 0. -/
theorem tickCounterCountsTicks : Obligations.TickCounterCountsTicks := by
  intro s n hc hcol hsub
  have h0 : s.countsTo 0 := by simp [State.countsTo, hcol, hsub]
  obtain ⟨⟨hcol', hsub'⟩, hcfg, htmode⟩ := advances_countsTo n hc h0
  rw [Nat.zero_add] at hcol' hsub'
  exact ⟨hcol', by rw [hsub', hcfg, htmode]⟩

/-! ### RUN -/

/-- R173: a tick is the next event only while `RUN = 1`. -/
theorem run_of_nextEvent_tick {s : State} (h : s.nextEvent = .tick) : s.run = true := by
  rcases nextEvent_cases s with ⟨e, -⟩ | ⟨-, ⟨e, -⟩ | ⟨-, ⟨-, hr, -⟩ | ⟨e, -⟩ | ⟨e, -⟩ | ⟨e, -⟩⟩⟩
  case inr.inr.inl => exact hr
  all_goals rw [e] at h; cases h

/-- From `s` to `t` the trace gains entries that tell of a watchdog reset. -/
def State.addsWdtReset (s t : State) : Prop := ∃ new, s.adds t new ∧ .reset .wdt ∈ new

/-- R180: a watchdog expiry is traced as a reset, whatever was traced before it. -/
theorem wdtExpire_addsWdtReset {s t : State} {new : List Obs} (h : s.adds t new) :
    s.addsWdtReset (wdtExpire t) := by
  refine ⟨_, adds_trans h (new' := .wdtReset false :: (oeChange t.out.soOeN true
    ++ [.reset .wdt, .wdtReset true, .event .wdtExpire])) ?_, by simp⟩
  simp [State.adds, wdtExpire_trace]

theorem tickTimed_adds (s : State) : ∃ new, s.adds (tickTimed s) new := by
  obtain ⟨phases, hphases, -⟩ := tickPhases_addsNoAlarm s
  obtain ⟨missed, hmissed, -⟩ := elapse_adds (tickTime s) ((tickPhases s).enter .checkin)
  exact ⟨_, adds_trans (adds_trans hphases (u := (tickPhases s).enter .checkin) (new' := [.phase .checkin]) rfl)
    hmissed⟩

theorem commandState_adds (s : State) : ∃ new, s.adds (commandState s) new := by
  obtain ⟨missed, hmissed, -⟩ := elapse_adds (cmdTime s) (takeCommand s)
  exact ⟨_, adds_trans (t := takeCommand s) (new := [.event .hostCmd]) rfl hmissed⟩

/-- A tick keeps `RUN`, or the watchdog expires in it. -/
theorem tick_run (s : State) : (tick s).run = s.run ∨ s.addsWdtReset (tick s) := by
  rw [tick_eq]
  split
  · obtain ⟨new, h⟩ := tickTimed_adds s
    exact .inr (wdtExpire_addsWdtReset h)
  · exact .inl (tickTimed_frame s .run (by decide))

theorem startEffect_run (s : State) : (startEffect s).run = true := by
  rcases Bool.eq_false_or_eq_true s.run with hr | hr
  · rwa [startEffect_running hr]
  · rw [startEffect_stopped hr]

/-- R209: of the commands STOP clears `RUN`, START sets it, and every other one keeps it. -/
theorem execWord_run {w : Word} {s t : State} (h : execWord w s = .next t) :
    t.run = s.run ∨ (decode w = .ok .stop ∧ t.run = false) ∨ (decode w = .ok .start ∧ t.run = true) := by
  rcases execWord_answers h with ⟨r, rfl⟩ | ⟨i, v, hi, -, rfl⟩
  · exact .inl (refuse_frame r s .run (by decide))
  by_cases hstop : i = .stop
  · subst hstop
    exact .inr (.inl ⟨hi, rfl⟩)
  by_cases hstart : i = .start
  · subst hstart
    exact .inr (.inr ⟨hi, startEffect_run s⟩)
  · exact .inl (effectOf_frame_quiet hstop hstart s .run (by decide))

/-- R22: everything that can change `RUN`. -/
theorem steps_run {s u : State} (h : Steps s u) :
    u.run = s.run ∨ s.nextEvent = .reset ∨ s.addsWdtReset u
    ∨ (s.nextEvent = .hostCmd ∧ decode s.pins.cmd = .ok .stop ∧ u.run = false)
    ∨ (s.nextEvent = .hostCmd ∧ decode s.pins.cmd = .ok .start ∧ u.run = true) := by
  cases h with
  | reset hev => exact .inr (.inl hev)
  | wdtExpire => exact .inr (.inr (.inl (wdtExpire_addsWdtReset (new := []) rfl)))
  | tick => exact (tick_run s).imp_right fun h => .inr (.inl h)
  | tmodeChange => exact .inl rfl
  | hostCmd hev _ _ _ _ v hv =>
    exact (execWord_run hv).imp (fun h => h.trans (commandState_run s))
      fun h => .inr (.inr (h.imp (.intro hev) (.intro hev)))
  | hostCmdExpires =>
    obtain ⟨new, h⟩ := commandState_adds s
    exact .inr (.inr (.inl (wdtExpire_addsWdtReset h)))
  | clock => exact .inl (clockCycle_run s)

/-- Settles O52, case by case of what a step can do. -/
theorem onlyStopStartAndResetChangeRun : Obligations.OnlyStopStartAndResetChangeRun := by
  intro s t h
  obtain ⟨-, u, hu, rfl⟩ := step_cases h
  have hrun : (nextInputs u).run = u.run := nextInputs_frame u .run (by decide)
  have htrace : (nextInputs u).trace = u.trace := nextInputs_frame u .trace (by decide)
  have hcases := steps_run hu
  simp only [State.addsWdtReset, State.adds, ← hrun, ← htrace] at hcases
  exact ⟨run_of_nextEvent_tick, hcases.resolve_left⟩

end Sys2Proof.Machine
end

section
/-! SUPPORT. Proofs about `spec/20_memory.md`: reads answer twice the same (R57), each table is written only by
its owner (R58), and a tick is a function of the state before it and the sample (R62). -/

namespace Sys2Proof.Machine

/-! ### What a command does, with its guards -/

/-- R190, R191: a command is refused, or its checks pass and its effect is answered. -/
theorem exec_cases {i : Instr} {s t : State} (h : exec i s = .next t) :
    (∃ r, r ≠ .ok ∧ t = refuse r s)
    ∨ (stoppedOnlyOf i && s.run) = false ∧ (∀ sp k, operandOf i = some (sp, k) → k < sp.size)
      ∧ t = respond .ok (valueOf i s) (effectOf i s) := by
  rw [exec_eq] at h
  rcases command_cases (stoppedOnlyOf i) (operandOf i) (effectOf i) (valueOf i) s
    with ⟨hc, hrun, hidx⟩ | ⟨hc, -⟩ | ⟨hc, -⟩ <;> rw [hc] at h <;> cases h
  · exact .inr ⟨hrun, hidx, rfl⟩
  · exact .inl ⟨.busy, by decide, rfl⟩
  · exact .inl ⟨.range, by decide, rfl⟩

/-! ### Reads -/

/-- No value a command returns depends on the response before it. -/
theorem valueOf_respond (i : Instr) (r : Result) (v : Frame) (s : State) :
    valueOf i (respond r v s) = valueOf i s := by
  cases i <;> rfl

/-- R57: a command without an effect, answered `OK`, changes only the response, and is answered the same again. -/
theorem exec_idempotent {i : Instr} {s t u : State} (hread : effectOf i = fun x => x) (ht : exec i s = .next t)
    (hu : exec i t = .next u) (hok : t.res = .ok) :
    s.sameExcept t [.rsp, .res] ∧ u.rsp = t.rsp ∧ u.res = t.res := by
  rcases exec_cases ht with ⟨r, hr, rfl⟩ | ⟨hrun, hidx, rfl⟩
  · exact absurd hok hr
  rw [hread] at hu ⊢
  have hagain := exec_ok (s := respond .ok (valueOf i s) s) hrun hidx
  rw [hu, hread, valueOf_respond] at hagain
  cases hagain
  exact ⟨respond_frame _ _ s, rfl, rfl⟩

/-- Settles O19: the seven reads are the commands without an effect, NOP apart. -/
theorem readsAreIdempotent : Obligations.ReadsAreIdempotent := by
  intro i s hi
  obtain ⟨t, ht⟩ := exec_total i s
  obtain ⟨u, hu⟩ := exec_total i t
  have hread : effectOf i = fun x => x := by
    rcases hi with rfl | ⟨idx, rfl | rfl | rfl | rfl | rfl | rfl⟩ <;> rfl
  exact ⟨t, u, ht, hu, exec_idempotent hread ht hu⟩

/-! ### What the commands write -/

/-- R209: STOP clears `RUN`, START sets it, and every other command keeps it. -/
theorem exec_run {i : Instr} {s t : State} (h : exec i s = .next t) :
    t.run = s.run ∨ (i = .stop ∧ t.run = false) ∨ (i = .start ∧ t.run = true) := by
  rcases exec_cases h with ⟨r, -, rfl⟩ | ⟨-, -, rfl⟩
  · exact .inl (refuse_frame r s .run (by decide))
  by_cases hstop : i = .stop
  · subst hstop
    exact .inr (.inl ⟨rfl, rfl⟩)
  by_cases hstart : i = .start
  · subst hstart
    exact .inr (.inr ⟨rfl, startEffect_run s⟩)
  · exact .inl (effectOf_frame_quiet hstop hstart s .run (by decide))

/-- Settles O20, from the frame of every command and what changes `RUN`. -/
theorem commandsLeaveMatrixAndHistory : Obligations.CommandsLeaveMatrixAndHistory := by
  intro i s
  obtain ⟨t, ht⟩ := exec_total i s
  have hf := exec_frame ht
  exact ⟨t, ht, hf .matrix (by decide), hf .rawPrev (by decide), hf .lastAcc (by decide), hf .cons (by decide),
    hf .lastOut (by decide), hf .tickCol (by decide), hf .subIdx (by decide), hf .tmode (by decide),
    hf .phase (by decide), hf .cfg (by decide), (exec_run ht).resolve_left⟩

/-- R197: WR_GLOWCODE alone writes glow codes. -/
theorem eq_wrGlowcode_of_effectOf {i : Instr} {s : State} (h : (effectOf i s).glowCode ≠ s.glowCode) :
    ∃ idx code, i = .wrGlowcode idx code := by
  cases i with
  | wrGlowcode idx code => exact ⟨idx, code, rfl⟩
  | start => exact absurd (startEffect_frame s .glowCode (by decide)) h
  | _ => exact absurd rfl h

/-- R198: WR_BRIGHTCODE alone writes brightness codes. -/
theorem eq_wrBrightcode_of_effectOf {i : Instr} {s : State} (h : (effectOf i s).brightCode ≠ s.brightCode) :
    ∃ idx code, i = .wrBrightcode idx code := by
  cases i with
  | wrBrightcode idx code => exact ⟨idx, code, rfl⟩
  | start => exact absurd (startEffect_frame s .brightCode (by decide)) h
  | _ => exact absurd rfl h

/-- R194, R201: APPLY, and START of a stopped block, alone write the derived tables. -/
theorem eq_apply_or_start_of_effectOf {i : Instr} {s : State}
    (h : (effectOf i s).stepTab ≠ s.stepTab ∨ (effectOf i s).maxsubTab ≠ s.maxsubTab) :
    i = .apply ∨ (i = .start ∧ s.run = false) := by
  cases i with
  | apply => exact .inl rfl
  | start =>
    refine .inr ⟨rfl, Bool.eq_false_iff.2 fun hrun => ?_⟩
    simp [effectOf, startEffect_running hrun] at h
  | _ => exact h.elim (absurd rfl) (absurd rfl)

/-! ### Owners -/

/-- R58: from `s` to `t` each table keeps its value, or is written by the event that owns it. -/
structure State.tablesOwned (s t : State) : Prop where
  matrix : t.matrix ≠ s.matrix → s.nextEvent = .tick
  glowCode : t.glowCode ≠ s.glowCode → s.nextEvent = .hostCmd ∧ s.run = false
    ∧ ∃ idx code, decode s.pins.cmd = .ok (.wrGlowcode idx code) ∧ idx < 64
  brightCode : t.brightCode ≠ s.brightCode → s.nextEvent = .hostCmd ∧ s.run = false
    ∧ ∃ idx code, decode s.pins.cmd = .ok (.wrBrightcode idx code) ∧ idx < 64
  derived : t.stepTab ≠ s.stepTab ∨ t.maxsubTab ≠ s.maxsubTab → s.nextEvent = .tmodeChange
    ∨ (s.nextEvent = .hostCmd ∧ s.run = false
      ∧ (decode s.pins.cmd = .ok .apply ∨ decode s.pins.cmd = .ok .start))

/-- The five tables of R58. -/
def tableFields : List Field := [.matrix, .glowCode, .brightCode, .stepTab, .maxsubTab]

/-- What writes no table keeps their ownership. -/
theorem tablesOwned_of_sameExcept {s t u : State} {l : List Field} (hs : s.tablesOwned t) (h : t.sameExcept u l)
    (hl : ∀ f ∈ tableFields, f ∉ l) : s.tablesOwned u := by
  have hmatrix : u.matrix = t.matrix := h .matrix (hl .matrix (by decide))
  have hglow : u.glowCode = t.glowCode := h .glowCode (hl .glowCode (by decide))
  have hbright : u.brightCode = t.brightCode := h .brightCode (hl .brightCode (by decide))
  have hstep : u.stepTab = t.stepTab := h .stepTab (hl .stepTab (by decide))
  have hmax : u.maxsubTab = t.maxsubTab := h .maxsubTab (hl .maxsubTab (by decide))
  obtain ⟨h1, h2, h3, h4⟩ := hs
  constructor <;> simpa only [hmatrix, hglow, hbright, hstep, hmax]

theorem tablesOwned_refl (s : State) : s.tablesOwned s where
  matrix := absurd rfl
  glowCode := absurd rfl
  brightCode := absurd rfl
  derived h := h.elim (absurd rfl) (absurd rfl)

/-- The cycles of a command write no table. -/
theorem commandState_tablesOwned (s : State) : s.tablesOwned (commandState s) :=
  tablesOwned_of_sameExcept (tablesOwned_refl s) (commandState_frame s) (by decide)

/-- R197, R198, R201: a command whose checks pass writes only the tables it owns. -/
theorem effectOf_tablesOwned {i : Instr} {s : State} (hev : s.nextEvent = .hostCmd)
    (hi : decode s.pins.cmd = .ok i) (hrun : (stoppedOnlyOf i && s.run) = false)
    (hidx : ∀ sp k, operandOf i = some (sp, k) → k < sp.size) : s.tablesOwned (effectOf i (commandState s)) where
  matrix := absurd ((effectOf_frame i _ .matrix (by decide)).trans (commandState_frame s .matrix (by decide)))
  glowCode h := by
    rw [← commandState_frame s .glowCode (by decide)] at h
    obtain ⟨idx, code, rfl⟩ := eq_wrGlowcode_of_effectOf h
    exact ⟨hev, hrun, idx, code, hi, hidx .glow idx rfl⟩
  brightCode h := by
    rw [← commandState_frame s .brightCode (by decide)] at h
    obtain ⟨idx, code, rfl⟩ := eq_wrBrightcode_of_effectOf h
    exact ⟨hev, hrun, idx, code, hi, hidx .bright idx rfl⟩
  derived h := by
    rw [← commandState_frame s .stepTab (by decide), ← commandState_frame s .maxsubTab (by decide)] at h
    rcases eq_apply_or_start_of_effectOf h with rfl | ⟨rfl, hstopped⟩
    · exact .inr ⟨hev, hrun, .inl hi⟩
    · exact .inr ⟨hev, (commandState_run s).symm.trans hstopped, .inr hi⟩

theorem execWord_tablesOwned {s v : State} (hev : s.nextEvent = .hostCmd)
    (hv : execWord s.pins.cmd (commandState s) = .next v) : s.tablesOwned v := by
  unfold execWord at hv
  split at hv
  · next i hi =>
    rcases exec_cases hv with ⟨r, -, rfl⟩ | ⟨hrun, hidx, rfl⟩
    · exact tablesOwned_of_sameExcept (commandState_tablesOwned s) (refuse_frame r _) (by decide)
    · rw [commandState_run] at hrun
      exact tablesOwned_of_sameExcept (effectOf_tablesOwned hev hi hrun hidx) (respond_frame _ _ _) (by decide)
  · cases hv
    exact tablesOwned_of_sameExcept (commandState_tablesOwned s) (refuse_frame .illegal _) (by decide)

/-- A tick writes `MATRIX` alone, or the watchdog expires in it. -/
theorem tick_tablesOwned {s : State} (hev : s.nextEvent = .tick) :
    s.tablesOwned (tick s) ∨ s.addsWdtReset (tick s) := by
  rw [tick_eq]
  split
  · obtain ⟨new, h⟩ := tickTimed_adds s
    exact .inr (wdtExpire_addsWdtReset h)
  · have hf := tickTimed_frame s
    exact .inl {
      matrix := fun _ => hev
      glowCode := absurd (hf .glowCode (by decide))
      brightCode := absurd (hf .brightCode (by decide))
      derived := (Or.elim · (absurd (hf .stepTab (by decide))) (absurd (hf .maxsubTab (by decide)))) }

/-- R178: a timing-mode change writes the derived tables alone. -/
theorem tmodeChange_tablesOwned {s : State} (hev : s.nextEvent = .tmodeChange) : s.tablesOwned (tmodeChange s) where
  matrix := absurd rfl
  glowCode := absurd rfl
  brightCode := absurd rfl
  derived _ := .inl hev

/-- R58: every event but a reset writes only the tables it owns. -/
theorem steps_tablesOwned {s u : State} (h : Steps s u) :
    s.nextEvent = .reset ∨ s.addsWdtReset u ∨ s.tablesOwned u := by
  cases h with
  | reset hev => exact .inl hev
  | wdtExpire => exact .inr (.inl (wdtExpire_addsWdtReset (new := []) rfl))
  | tick hev => exact .inr (tick_tablesOwned hev).symm
  | tmodeChange hev => exact .inr (.inr (tmodeChange_tablesOwned hev))
  | hostCmd hev _ _ _ _ v hv =>
    exact .inr (.inr (tablesOwned_of_sameExcept (execWord_tablesOwned hev hv) (logCommand_frame _ v) (by decide)))
  | hostCmdExpires =>
    obtain ⟨new, h⟩ := commandState_adds s
    exact .inr (.inl (wdtExpire_addsWdtReset h))
  | clock => exact .inr (.inr (tablesOwned_of_sameExcept (tablesOwned_refl s) (clockCycle_frame s) (by decide)))

/-- Settles O53, case by case of what a step can do. -/
theorem tablesAreWrittenOnlyByTheirOwners : Obligations.TablesAreWrittenOnlyByTheirOwners := by
  intro s t h
  obtain ⟨-, u, hu, rfl⟩ := step_cases h
  have htrace : (nextInputs u).trace = u.trace := nextInputs_frame u .trace (by decide)
  rcases steps_tablesOwned hu with hev | ⟨new, hadds, hnew⟩ | howned
  · exact .inl hev
  · exact .inr (.inl ⟨new, htrace.trans hadds, hnew⟩)
  · obtain ⟨hmatrix, hglow, hbright, hderived⟩ :=
      tablesOwned_of_sameExcept howned (nextInputs_frame u) (by decide)
    exact .inr (.inr ⟨hmatrix, hglow, hbright, hderived⟩)


/-! ### What a tick sends and receives -/

/-- From `s` to `t` the trace gains the frames emitted and the values shifted in, oldest first. -/
def State.addsPorts (s t : State) (frames shifts : List Frame) : Prop :=
  ∃ new, s.adds t new ∧ framesOf new = frames ∧ shiftsOf new = shifts

theorem framesOf_append (new old : List Obs) : framesOf (new ++ old) = framesOf old ++ framesOf new := by
  simp [framesOf]

theorem shiftsOf_append (new old : List Obs) : shiftsOf (new ++ old) = shiftsOf old ++ shiftsOf new := by
  simp [shiftsOf]

theorem addsPorts_trans {s t u : State} {f f' v v' : List Frame} (h : s.addsPorts t f v) (h' : t.addsPorts u f' v') :
    s.addsPorts u (f ++ f') (v ++ v') := by
  obtain ⟨new, ha, rfl, rfl⟩ := h
  obtain ⟨new', ha', rfl, rfl⟩ := h'
  exact ⟨new' ++ new, adds_trans ha ha', framesOf_append _ _, shiftsOf_append _ _⟩

/-- A change of `SO_OE_N` is neither a frame nor a value shifted in. -/
@[simp] theorem framesOf_oeChange (old new : Bool) : framesOf (oeChange old new) = [] := by
  cases old <;> cases new <;> rfl

@[simp] theorem shiftsOf_oeChange (old new : Bool) : shiftsOf (oeChange old new) = [] := by
  cases old <;> cases new <;> rfl

/-- R157: when PASS emits. -/
theorem passEmits_iff (s : State) : passEmits s = true ↔ s.rawPrev ≠ s.lastOut ∨ s.out.soOeN = true := by
  simp [passEmits]

/-- R151, R152, R157: the frames DRIVE emits. -/
def drivenFrames (s : State) : List Frame :=
  if s.agT = true then [0x0000, afterglowFrame s]
  else if s.rawPrev ≠ s.lastOut ∨ s.out.soOeN = true then [s.rawPrev] else []

theorem drive_addsPorts (s : State) : s.addsPorts (drive s) (drivenFrames s) [] := by
  rcases drive_cases s with ⟨hag, h⟩ | ⟨hag, he, h⟩ | ⟨hag, he, h⟩ <;> rw [h]
  · refine ⟨[.emit (afterglowFrame s), .phase .drive] ++ (oeChange s.out.soOeN false ++ [.emit 0, .phase .blank]),
      by simp [State.adds], ?_, ?_⟩
    · rw [framesOf_append, framesOf_append, framesOf_oeChange, drivenFrames, if_pos hag]
      rfl
    · rw [shiftsOf_append, shiftsOf_append, shiftsOf_oeChange]
      rfl
  · refine ⟨oeChange s.out.soOeN false ++ [.emit s.rawPrev, .phase .drive], by simp [State.adds], ?_, ?_⟩
    · rw [framesOf_append, framesOf_oeChange, drivenFrames, if_neg (by simp [hag]), if_pos ((passEmits_iff s).1 he)]
      rfl
    · rw [shiftsOf_append, shiftsOf_oeChange]
      rfl
  · refine ⟨[.phase .drive], rfl, ?_, rfl⟩
    rw [drivenFrames, if_neg (by simp [hag]), if_neg (by simp [← passEmits_iff, he])]
    rfl

/-- R35: `LAST_OUT` is the last frame emitted. -/
theorem drive_lastOut (s : State) : (drive s).lastOut
    = if s.agT = true then afterglowFrame s
      else if s.rawPrev ≠ s.lastOut ∨ s.out.soOeN = true then s.rawPrev else s.lastOut := by
  rcases drive_cases s with ⟨hag, h⟩ | ⟨hag, he, h⟩ | ⟨hag, he, h⟩ <;> rw [h]
  · rw [if_pos hag]
  · rw [if_neg (by simp [hag]), if_pos ((passEmits_iff s).1 he)]
  · rw [if_neg (by simp [hag]), if_neg (by simp [← passEmits_iff, he])]

/-- R100, R103: SAMPLE shifts the lines in, but not in test mode. -/
theorem sample_addsPorts (s : State) :
    s.addsPorts (sample s) [] (if s.testT = true then [] else [s.pins.siLines]) := by
  rw [sample_eq]
  refine ⟨(if s.testT then [] else [.shiftIn s.pins.siLines]) ++ [.phase .sample], by simp [State.adds], ?_⟩
  cases s.testT <;> exact ⟨rfl, rfl⟩

theorem validate_addsPorts (f : Frame) (s : State) : s.addsPorts (validate f s) [] [] := by
  refine ⟨_, validate_trace f s, ?_⟩
  cases acceptedColumn f s <;> exact ⟨rfl, rfl⟩

/-- R174: the phases of a tick emit the frames DRIVE takes from the state before, and shift in what SAMPLE does. -/
theorem tickPhases_addsPorts (s : State) : s.addsPorts (tickPhases s) (drivenFrames (tickStart s))
    (if s.testSync = true then [] else [s.pins.siLines]) := by
  have hstart : s.addsPorts (tickStart s) [] [] := ⟨[.event .tick], rfl, rfl, rfl⟩
  have hsample : (tickDriven s).addsPorts (sample (tickDriven s)) []
      (if s.testSync = true then [] else [s.pins.siLines]) := by
    have h := sample_addsPorts (tickDriven s)
    have htest : (tickDriven s).testT = s.testSync := drive_frame (tickStart s) .testT (by decide)
    have hpins : (tickDriven s).pins = s.pins := drive_frame (tickStart s) .pins (by decide)
    rwa [htest, hpins] at h
  have hadvance : ∀ t : State, t.addsPorts (advance t) [] [] := fun t => ⟨[.phase .advance], rfl, rfl, rfl⟩
  rw [tickPhases_eq]
  simpa using addsPorts_trans hstart <| addsPorts_trans (drive_addsPorts (tickStart s)) <| addsPorts_trans hsample <|
    addsPorts_trans (validate_addsPorts (tickSample s) _) (hadvance _)

/-! ### A whole tick -/

/-- A frame need not name a piece that kept its value. -/
theorem sameExcept_of_cons {s t : State} {f : Field} {l : List Field} (h : s.sameExcept t (f :: l))
    (hf : s.agreesOn t f) : s.sameExcept t l := fun g hg => by
  by_cases hgf : g = f
  · exact hgf ▸ hf
  · exact h g fun hm => (List.mem_cons.1 hm).elim hgf hg

/-- What a tick in time can change. -/
def tickFields : List Field :=
  [.tmodeMeta, .agMeta, .testMeta, .tselMeta, .tmodeSync, .agSync, .testSync, .tselSync, .agT, .testT,
   .tickCol, .subIdx, .timer, .tickPending, .matrix, .rawPrev, .lastAcc, .cons, .lastOut,
   .soClk, .soData, .soLatch, .soOeN, .siClk, .siLoadN, .badframeCnt, .durMax, .durCur, .wdtCnt, .trace]

section
variable {s : State} (hc : configValid s.cfg = true) (ht : s.InTime) (hr : s.run = true) (hp : s.tickPending = true)
include hc ht hr hp

/-- R174, R176: after its phases a tick in time only counts its cycles, checks in and returns to IDLE. -/
theorem tickPhases_sameExcept_tick :
    (tickPhases s).sameExcept (tick s) (.phase :: .trace :: .wdtCnt :: .durMax :: clockFields) := by
  have hcheckin : (tickTimed s).sameExcept { checkin (tickTimed s) with phase := .idle }
      [.wdtCnt, .durMax, .phase] := by
    intro f hf
    cases f <;> first | rfl | exact absurd (by decide) hf
  have henter : (tickPhases s).sameExcept ((tickPhases s).enter .checkin) [.phase, .trace] := by
    intro f hf
    cases f <;> first | rfl | exact absurd (by decide) hf
  rw [tick_inTime hc ht hr hp]
  exact sameExcept_trans (sameExcept_mono henter (by decide)) <|
    sameExcept_trans (sameExcept_mono (elapse_frame _ _) (by decide)) (sameExcept_mono hcheckin (by decide))

/-- The frame of a tick in time: it returns to IDLE, and records no missed deadline. -/
theorem tick_frame (hi : s.phase = .idle) : s.sameExcept (tick s) tickFields := by
  have hall : s.sameExcept (tick s) (.phase :: .overrunCnt :: .errOverrun :: .lastEc :: tickFields) :=
    sameExcept_trans (sameExcept_mono (tickPhases_frame s) (by decide))
      (sameExcept_mono (tickPhases_sameExcept_tick hc ht hr hp) (by decide))
  obtain ⟨-, -, -, hcnt, herr, hec, -⟩ := tickTimed_inTime hc ht hr hp
  rw [tick_inTime hc ht hr hp] at hall ⊢
  exact sameExcept_of_cons (sameExcept_of_cons (sameExcept_of_cons (sameExcept_of_cons hall hi.symm) hcnt) herr) hec

/-- The cycles of a tick and its CHECKIN emit nothing and shift nothing in. -/
theorem tick_addsPorts : s.addsPorts (tick s) (drivenFrames (tickStart s))
    (if s.testSync = true then [] else [s.pins.siLines]) := by
  obtain ⟨-, -, -, -, -, -, htrace⟩ := tickTimed_inTime hc ht hr hp
  have hcheckin : (tickPhases s).addsPorts (tick s) [] [] := by
    rw [tick_inTime hc ht hr hp]
    exact ⟨[.phase .checkin], htrace, rfl, rfl⟩
  simpa using addsPorts_trans (tickPhases_addsPorts s) hcheckin

end

/-- Settles O41, from what the phases write and the frame of the rest of the tick. -/
theorem tickIsAFunctionOfStateAndSample : Obligations.TickIsAFunctionOfStateAndSample := by
  rintro s _ hc hs ht hr hp rfl
  obtain ⟨-, -, -, hag, htest, hraw, hmatrix, hacc, hcons, hbad, hcol, hsub, hout, hoe⟩ := tickPhases_writes s
  have hf := tickPhases_sameExcept_tick hc ht hr hp
  exact ⟨(hf .matrix (by decide)).trans hmatrix, (hf .rawPrev (by decide)).trans hraw,
    (hf .cons (by decide)).trans (hcons.trans (validate_cons _ s).symm),
    (hf .lastAcc (by decide)).trans hacc,
    (hf .badframeCnt (by decide)).trans (hbad.trans (validate_badframeCnt _ s).symm),
    (hf .tickCol (by decide)).trans hcol, (hf .subIdx (by decide)).trans hsub,
    (hf .agT (by decide)).trans hag, (hf .testT (by decide)).trans htest,
    (hf .lastOut (by decide)).trans (hout.trans (drive_lastOut (tickStart s))),
    (hf .soOeN (by decide)).trans hoe, tick_addsPorts hc ht hr hp, tick_frame hc ht hr hp hs.phase_idle⟩

end Sys2Proof.Machine
end

section
/-! SUPPORT. Proofs about `spec/30_encoding.md`: the decoder and the encoder (R77 to R82), the ILLEGAL answer of an
undefined opcode (R207), and the pin sequence of `Emit` (`spec/43_pwm_driver.md` R150). -/

namespace Sys2Proof

/-! ### What a word decodes to -/

/-- R80, R81: the fields of `w` hold the operands of a command, where it uses them. -/
def Instr.operandsIn (w : Word) : Instr → Prop
  | .nop | .stop | .start | .rdStatus | .apply => True
  | .clrStatus mask | .clrDiag mask => dataField w = mask
  | .wrGlowcode idx code | .wrBrightcode idx code => idxField w = idx ∧ codeField w = code
  | .rdGlowcode idx | .rdBrightcode idx | .rdStep idx | .rdMaxsub idx | .rdLamp idx | .rdDiag idx => idxField w = idx

/-- R79, R81: the opcode and the fields a command uses decide what a word decodes to. -/
theorem decode_of_fields {w : Word} {i : Instr} (hopc : opcField w = i.opcode) (hops : i.operandsIn w) :
    decode w = .ok i := by
  unfold decode
  rw [hopc]
  cases i with
  | nop | stop | start | rdStatus | apply => rfl
  | clrStatus mask | clrDiag mask =>
    obtain rfl := hops
    rfl
  | wrGlowcode idx code | wrBrightcode idx code =>
    obtain ⟨rfl, rfl⟩ := hops
    rfl
  | rdGlowcode idx | rdBrightcode idx | rdStep idx | rdMaxsub idx | rdLamp idx | rdDiag idx =>
    obtain rfl := hops
    rfl

/-- R77, R87: the word of a well-formed command holds its operands. -/
theorem operandsIn_encode {i : Instr} (hwf : i.wellFormed = true) : i.operandsIn (encode i) := by
  have hidx := (Laws.OpcodeField.of_fields i).2 hwf
  cases i with
  | nop | stop | start | rdStatus | apply => trivial
  | clrStatus mask | clrDiag mask => exact dataField_packWord _ _ _
  | wrGlowcode idx code | wrBrightcode idx code => exact ⟨hidx idx rfl, codeField_packWord _ _ _⟩
  | rdGlowcode idx | rdBrightcode idx | rdStep idx | rdMaxsub idx | rdLamp idx | rdDiag idx => exact hidx idx rfl

/-- Settles O1: the word of a command holds its opcode and its operands. -/
theorem decodeUndoesEncode : Obligations.DecodeUndoesEncode := fun i hwf =>
  decode_of_fields (Laws.OpcodeField.of_fields i).1 (operandsIn_encode hwf)

/-- Settles O2: each opcode with the operands the word holds, whatever its other bits. -/
theorem decodeFollowsTheOpcodeMap : Obligations.DecodeFollowsTheOpcodeMap := fun _ =>
  ⟨(decode_of_fields · trivial), (decode_of_fields · trivial), (decode_of_fields · trivial),
    (decode_of_fields · trivial), (decode_of_fields · rfl), (decode_of_fields · ⟨rfl, rfl⟩),
    (decode_of_fields · ⟨rfl, rfl⟩), (decode_of_fields · rfl), (decode_of_fields · rfl),
    (decode_of_fields · trivial), (decode_of_fields · rfl), (decode_of_fields · rfl), (decode_of_fields · rfl),
    (decode_of_fields · rfl), (decode_of_fields · rfl)⟩

/-- Settles O4: each word's opcode and operands are read off its digits. -/
theorem decodesWordsWrittenOut : Obligations.DecodesWordsWrittenOut :=
  ⟨decode_of_fields rfl trivial, decode_of_fields rfl rfl, decode_of_fields rfl ⟨rfl, rfl⟩,
    decode_of_fields rfl ⟨rfl, rfl⟩, decode_of_fields rfl rfl, decode_of_fields rfl trivial,
    decode_of_fields rfl rfl, decode_of_fields rfl rfl⟩

/-! ### Undefined opcodes -/

/-- R81: a word decodes to a command of its own opcode. -/
theorem opcode_of_decode {w : Word} {i : Instr} (h : decode w = .ok i) : i.opcode = opcField w :=
  decode_packWord (opcField w) (idxField w) (dataField w) i (by rwa [packWord_fields])

/-- R82: a word is rejected by its opcode. -/
theorem eq_undefinedOpcode_of_decode {w : Word} {r : Reject} (h : decode w = .error r) :
    r = .undefinedOpcode (opcField w) := by
  unfold decode at h
  split at h <;> cases h
  rfl

/-- R82: a word whose opcode is no command's is rejected. -/
theorem decode_of_opcode_ne {w : Word} (h : ∀ i : Instr, i.opcode ≠ opcField w) :
    decode w = .error (.undefinedOpcode (opcField w)) := by
  cases hd : decode w with
  | ok i => exact absurd (opcode_of_decode hd) (h i)
  | error r => rw [eq_undefinedOpcode_of_decode hd]

/-- R82: the three ranges outside the opcode map. -/
def OutsideOpcodeMap (n : Nat) : Prop := (0x05 ≤ n ∧ n ≤ 0x0F) ∨ (0x17 ≤ n ∧ n ≤ 0x1F) ∨ 0x23 ≤ n

/-- R79, R82: no command's opcode is outside the map. -/
theorem not_outsideOpcodeMap_opcode (i : Instr) : ¬ OutsideOpcodeMap i.opcode.toNat := by
  cases i <;> simp [OutsideOpcodeMap, Instr.opcode]

theorem decode_of_outsideOpcodeMap {w : Word} (h : OutsideOpcodeMap (opcField w).toNat) :
    decode w = .error (.undefinedOpcode (opcField w)) :=
  decode_of_opcode_ne fun i hi => not_outsideOpcodeMap_opcode i (hi ▸ h)

end Sys2Proof

namespace Sys2Proof.Machine

/-- R207: a word that is no command is refused with `ILLEGAL`. -/
theorem execWord_of_error {w : Word} {r : Reject} (h : decode w = .error r) (s : State) :
    execWord w s = .next (refuse .illegal s) := by
  simp only [execWord, h, illegalCommand]

/-- A predicate that holds from `m` on is counted below `m` alone. -/
theorem length_filter_range_add {p : Nat → Bool} {m : Nat} (h : ∀ n, m ≤ n → p n = true) (k : Nat) :
    ((List.range (m + k)).filter p).length = ((List.range m).filter p).length + k := by
  have hrest : ((List.range k).map (m + ·)).filter p = (List.range k).map (m + ·) := by
    rw [List.filter_eq_self]
    intro n hn
    obtain ⟨j, -, rfl⟩ := List.mem_map.1 hn
    exact h _ (Nat.le_add_right m j)
  rw [List.range_add, List.filter_append, List.length_append, hrest, List.length_map, List.length_range]

/-- Settles O3: every opcode from 0x23 on is outside the map, and a word outside it is rejected and refused. -/
theorem undefinedOpcodesAreRefused : Obligations.UndefinedOpcodesAreRefused := by
  refine ⟨length_filter_range_add (m := 0x23) (fun n hn => by simp [hn]) 221, ?_⟩
  rintro w _ rfl hout
  have hdec := decode_of_outsideOpcodeMap (w := w) hout
  exact ⟨hdec, fun s => ⟨_, execWord_of_error hdec s, illegalRefused_refuse s⟩⟩

/-! ### The pin sequence of Emit -/

/-- R150: the writes that shift bits out. -/
def shiftOutWrites (bs : List Bool) : List PinWrite := bs.flatMap fun b => [.soData b, .soClk true, .soClk false]

theorem length_shiftOutWrites (bs : List Bool) : (shiftOutWrites bs).length = 3 * bs.length := by
  induction bs with
  | nil => rfl
  | cons b bs ih =>
    have hcons : (shiftOutWrites (b :: bs)).length = (shiftOutWrites bs).length + 3 := rfl
    rw [hcons, ih, List.length_cons, Nat.mul_succ]

/-- R150: the three writes of bit `k`, whatever follows the shifting. -/
theorem getElem?_shiftOutWrites (bs : List Bool) (ws : List PinWrite) (k : Nat) (hk : k < bs.length) :
    (shiftOutWrites bs ++ ws)[3 * k]? = some (.soData bs[k])
    ∧ (shiftOutWrites bs ++ ws)[3 * k + 1]? = some (.soClk true)
    ∧ (shiftOutWrites bs ++ ws)[3 * k + 2]? = some (.soClk false) := by
  induction bs generalizing k with
  | nil => exact absurd hk (Nat.not_lt_zero k)
  | cons b bs ih =>
    cases k with
    | zero => exact ⟨rfl, rfl, rfl⟩
    | succ k => exact ih k (Nat.lt_of_succ_lt_succ hk)

/-- R150: after the shifting come the latch and the output enable. -/
def latchWrites : List PinWrite := [.soData false, .soLatch true, .soLatch false, .soOeN false]

theorem emitWrites_eq (f : Frame) : emitWrites f = shiftOutWrites (bitsMsbFirst f) ++ latchWrites := rfl

@[simp] theorem length_bitsMsbFirst (f : Frame) : (bitsMsbFirst f).length = 16 := by simp [bitsMsbFirst]

/-- R76: bits leave most significant first. -/
@[simp] theorem getElem_bitsMsbFirst (f : Frame) (k : Nat) (hk : k < (bitsMsbFirst f).length) :
    (bitsMsbFirst f)[k] = f.getLsbD (15 - k) := by simp [bitsMsbFirst]

theorem length_emitWrites (f : Frame) : (emitWrites f).length = 52 := by
  simp [emitWrites_eq, length_shiftOutWrites, latchWrites]

theorem getElem?_emitWrites (f : Frame) (k : Nat) (hk : k < 16) :
    (emitWrites f)[3 * k]? = some (.soData (f.getLsbD (15 - k)))
    ∧ (emitWrites f)[3 * k + 1]? = some (.soClk true)
    ∧ (emitWrites f)[3 * k + 2]? = some (.soClk false) := by
  have hlen : k < (bitsMsbFirst f).length := by simpa using hk
  rw [emitWrites_eq, ← getElem_bitsMsbFirst f k hlen]
  exact getElem?_shiftOutWrites (bitsMsbFirst f) latchWrites k hlen

theorem drop_emitWrites (f : Frame) : (emitWrites f).drop 48 = latchWrites := by
  rw [emitWrites_eq]
  exact List.drop_left' (by simp [length_shiftOutWrites])

/-- The trace of an emission: the frame, and the enabling of the outputs where they were blanked. -/
theorem emit_adds (f : Frame) (s : State) :
    s.adds (emit f s) ((if s.out.soOeN = true then [.oeN false] else []) ++ [.emit f]) := by
  rw [State.adds, emit_eq]
  cases s.out.soOeN <;> rfl

/-- The frame of an emission. -/
theorem emit_frame (f : Frame) (s : State) :
    s.sameExcept (emit f s) [.soClk, .soData, .soLatch, .soOeN, .lastOut, .trace] := by
  rw [emit_eq]
  intro field hfield
  cases field <;> simp_all [State.agreesOn]

/-- Settles O30: the writes bit by bit, and what they leave on the pins. -/
theorem emitShiftsLatchesEnables : Obligations.EmitShiftsLatchesEnables := by
  intro f s
  have hout := congrArg State.out (emit_eq f s)
  exact ⟨length_emitWrites f, getElem?_emitWrites f, drop_emitWrites f, rfl, congrArg OutPins.soClk hout,
    congrArg OutPins.soData hout, congrArg OutPins.soLatch hout, congrArg OutPins.soOeN hout, rfl, emit_adds f s,
    emit_frame f s⟩

end Sys2Proof.Machine
end

section
/-! SUPPORT. Proofs about `spec/40_sampler.md`: the pin sequence and the result of ShiftIn (R101, R102), and the
sample from the lines or from the test source (R100, R103, R105). -/

namespace Sys2Proof.Machine

/-! ### The pin sequence of ShiftIn -/

theorem length_flatMap_clockPulse {α : Type} (l : List α) :
    (l.flatMap fun _ => [PinWrite.siClk true, .siClk false]).length = 2 * l.length := by
  induction l with
  | nil => rfl
  | cons a l ih =>
    rw [List.flatMap_cons, List.length_append, ih, List.length_cons (as := l), Nat.mul_succ]
    exact Nat.add_comm 2 (2 * l.length)

/-- R101: the two writes of clock pulse `k`. -/
theorem getElem?_flatMap_clockPulse {α : Type} (l : List α) (k : Nat) (hk : k < l.length) :
    (l.flatMap fun _ => [PinWrite.siClk true, .siClk false])[2 * k]? = some (.siClk true)
    ∧ (l.flatMap fun _ => [PinWrite.siClk true, .siClk false])[2 * k + 1]? = some (.siClk false) := by
  induction l generalizing k with
  | nil => exact absurd hk (Nat.not_lt_zero k)
  | cons a l ih =>
    cases k with
    | zero => exact ⟨rfl, rfl⟩
    | succ k => exact ih k (Nat.lt_of_succ_lt_succ hk)

theorem length_shiftInWrites : shiftInWrites.length = 34 := by
  rw [shiftInWrites, List.length_append, length_flatMap_clockPulse, List.length_range]
  rfl

/-- R101: the clock pulses follow the two writes of the load pulse. -/
theorem getElem?_shiftInWrites (k : Nat) (hk : k < 16) :
    shiftInWrites[2 + 2 * k]? = some (.siClk true) ∧ shiftInWrites[3 + 2 * k]? = some (.siClk false) := by
  have hlen : k < (List.range 16).length := by simpa using hk
  rw [Nat.add_comm 2, Nat.add_comm 3]
  exact getElem?_flatMap_clockPulse (List.range 16) k hlen

/-- The frame of a shift-in. -/
theorem shiftIn_frame (s : State) : s.sameExcept (shiftIn s) [.siLoadN, .siClk, .trace] := by
  rw [shiftIn_eq]
  intro field hfield
  cases field <;> simp_all [State.agreesOn]

/-- Settles O33: the value read bit by bit, the writes pulse by pulse, and what they leave on the pins. -/
theorem shiftInReturnsTheLines : Obligations.ShiftInReturnsTheLines := by
  refine ⟨shiftInValue_eq, length_shiftInWrites, rfl, getElem?_shiftInWrites, fun s => ?_⟩
  have hout := congrArg State.out (shiftIn_eq s)
  exact ⟨congrArg OutPins.siLoadN hout, congrArg OutPins.siClk hout, rfl, shiftIn_frame s⟩

/-! ### The two sources of a sample -/

/-- R103: in test mode SAMPLE only enters its phase. -/
theorem sample_of_testT {s : State} (h : s.testT = true) : sample s = s.enter .sample := by
  simp [sample, h]

/-- The frame of entering a phase. -/
theorem enter_frame (s : State) (p : Phase) : s.sameExcept (s.enter p) [.phase, .trace] := by
  intro field hfield
  cases field <;> simp_all [State.agreesOn, State.enter]

/-- R103: in test mode SAMPLE leaves the input pins idle. -/
theorem sample_frame_of_testT {s : State} (h : s.testT = true) : s.sameExcept (sample s) [.phase, .trace] := by
  rw [sample_of_testT h]
  exact enter_frame s .sample

/-- Settles O34: one case for each mode, from what SAMPLE shifts in (`sample_addsPorts`) and its frame there. -/
theorem sampleTakesLinesOrTestSource : Obligations.SampleTakesLinesOrTestSource := by
  intro s
  obtain ⟨new, hadds, -, hshifts⟩ := sample_addsPorts s
  refine ⟨new, hadds, fun hlines => ?_, fun htest => ?_⟩
  · rw [sampleValue_eq, hshifts, hlines]
    exact ⟨rfl, rfl, sample_frame s⟩
  · rw [sampleValue_eq, hshifts, htest]
    exact ⟨rfl, rfl, sample_frame_of_testT htest⟩

end Sys2Proof.Machine
end

section
/-! SUPPORT. Proofs about `spec/41_validator.md`: what VALIDATE records and accepts (R110 to R118), the masks
accepted in a run of samples (R119), and the tick at which a new sample is accepted (R120, R121). -/

namespace Sys2Proof.Machine

/-! ### One sample -/

/-- R115: the three conditions of acceptance. -/
theorem exists_acceptedColumn_iff (f : Frame) (s : State) :
    (∃ c, acceptedColumn f s = some c) ↔
      onehot8 (colMask f) = true ∧ colMask f ≠ s.lastAcc ∧ s.cfg.consThreshold ≤ (nextCons f s).toNat := by
  simp only [acceptedColumn_eq_some_iff, onehot8_iff, index8_eq_some_iff, ← and_assoc, exists_and_right]

theorem acceptedColumn_eq_none_iff (f : Frame) (s : State) :
    acceptedColumn f s = none ↔
      ¬(onehot8 (colMask f) = true ∧ colMask f ≠ s.lastAcc ∧ s.cfg.consThreshold ≤ (nextCons f s).toNat) := by
  rw [← exists_acceptedColumn_iff, ← Option.isSome_iff_exists, Option.not_isSome_iff_eq_none]

/-- R121: below the threshold no sample is accepted. -/
theorem acceptedColumn_of_cons_lt {f : Frame} {s : State} (h : (nextCons f s).toNat < s.cfg.consThreshold) :
    acceptedColumn f s = none :=
  (acceptedColumn_eq_none_iff f s).2 fun ⟨_, _, hcons⟩ => Nat.not_le_of_lt h hcons

/-- R115, R130: an accepted column is integrated. -/
theorem validate_matrix_of_accepted {f : Frame} {s : State} {c : Nat} (h : acceptedColumn f s = some c) :
    (validate f s).matrix = (integrate c (rowMask f) s).matrix := by
  obtain ⟨hc, -⟩ := (acceptedColumn_eq_some_iff f s c).1 h
  rw [validate_accepts h, integrate_eq hc]

/-- R112: the bad-frame counter, as a number. -/
theorem nextBadframe_toNat (f : Frame) (s : State) :
    (nextBadframe f s).toNat = if onehot8 (colMask f) = false ∧ s.cfg.hasDiag = true then
      min 65535 (s.badframeCnt.toNat + 1) else s.badframeCnt.toNat := by
  simp only [nextBadframe, Bool.and_eq_true, Bool.not_eq_true', apply_ite BitVec.toNat, satInc16_toNat]

/-- Settles O35: the history from `nextCons` and `nextBadframe`, and a case for the sample accepted or not. -/
theorem validateAcceptsOrDrops : Obligations.ValidateAcceptsOrDrops := by
  intro s f cm rm hcfg hcm hrm
  obtain rfl : cm = colMask f := hcm
  obtain rfl : rm = rowMask f := hrm
  refine ⟨validate_rawPrev f s, ?_, ?_, ?_, validate_frame f s⟩
  · rw [validate_cons, nextCons_toNat (consMax_le hcfg)]
  · rw [validate_badframeCnt]
    exact nextBadframe_toNat f s
  · rw [validate_cons]
    cases hacc : acceptedColumn f s with
    | none =>
      rw [if_neg ((acceptedColumn_eq_none_iff f s).1 hacc), validate_drops hacc]
      exact ⟨rfl, rfl⟩
    | some c =>
      obtain ⟨hc, hmask, -⟩ := (acceptedColumn_eq_some_iff f s c).1 hacc
      rw [if_pos ((exists_acceptedColumn_iff f s).1 ⟨c, hacc⟩)]
      exact ⟨by rw [validate_accepts hacc], c, hc, hmask, validate_matrix_of_accepted hacc⟩

/-! ### The accepted masks -/

theorem acceptedMasks_cons_of_none {f : Frame} {s : State} (h : acceptedColumn f s = none) (fs : List Frame) :
    acceptedMasks (f :: fs) s = acceptedMasks fs (validate f s) := by
  simp only [acceptedMasks, h]

theorem acceptedMasks_cons_of_some {f : Frame} {s : State} {c : Nat} (h : acceptedColumn f s = some c)
    (fs : List Frame) : acceptedMasks (f :: fs) s = colMask f :: acceptedMasks fs (validate f s) := by
  simp only [acceptedMasks, h]

/-- R119: in LAST_ACC followed by the masks accepted from here on, no two neighbours are equal. -/
theorem ne_of_neighbours_lastAcc_acceptedMasks {fs : List Frame} {s : State} {k : Nat} {a b : Byte}
    (ha : (s.lastAcc :: acceptedMasks fs s)[k]? = some a) (hb : (acceptedMasks fs s)[k]? = some b) : a ≠ b := by
  induction fs generalizing s k with
  | nil => cases hb
  | cons f fs ih =>
    have hrest := @ih (validate f s)
    rw [validate_lastAcc] at hrest
    cases hacc : acceptedColumn f s with
    | none =>
      rw [hacc] at hrest
      rw [acceptedMasks_cons_of_none hacc] at ha hb
      exact hrest ha hb
    | some c =>
      obtain ⟨-, -, hnew, -⟩ := (acceptedColumn_eq_some_iff f s c).1 hacc
      rw [hacc] at hrest
      rw [acceptedMasks_cons_of_some hacc] at ha hb
      cases k with
      | zero =>
        cases ha
        cases hb
        exact hnew.symm
      | succ k => exact hrest ha hb

/-- Settles O36: neighbours in the list that starts with LAST_ACC
(`ne_of_neighbours_lastAcc_acceptedMasks`). -/
theorem noMaskIsAcceptedTwiceRunning : Obligations.NoMaskIsAcceptedTwiceRunning := fun _ _ =>
  ⟨fun _ hfirst => (ne_of_neighbours_lastAcc_acceptedMasks (k := 0) rfl hfirst).symm,
    fun k _ _ ha hb => ne_of_neighbours_lastAcc_acceptedMasks (k := k + 1) ha hb⟩

/-! ### The same sample, tick after tick -/

/-- R8: the counter can reach the threshold. -/
theorem consThreshold_le_consMax {c : Config} (h : configValid c = true) : c.consThreshold ≤ c.consMax := by
  simp only [configValid, Bool.and_eq_true, decide_eq_true_eq] at h
  omega

/-- R113: until it saturates, CONS counts the ticks for which a sample stays. -/
theorem nextCons_validate_toNat {f : Frame} {s : State} (hmax : s.cfg.consMax ≤ 255)
    (h : (nextCons f s).toNat < s.cfg.consMax) :
    (nextCons f (validate f s)).toNat = (nextCons f s).toNat + 1 := by
  rw [nextCons_toNat (by rwa [validate_cfg]), validate_cfg, validate_cons, if_pos (validate_rawPrev f s).symm]
  exact Nat.min_eq_right h

/-- R120, R121: a sample that stays for `k` ticks, none of them past the threshold, only raises CONS by `k`. -/
theorem validateAll_replicate {f : Frame} {s : State} (hcfg : configValid s.cfg = true) (k : Nat)
    (hk : (nextCons f s).toNat + k ≤ s.cfg.consThreshold) :
    (validateAll (List.replicate k f) s).cfg = s.cfg
    ∧ (validateAll (List.replicate k f) s).lastAcc = s.lastAcc
    ∧ (nextCons f (validateAll (List.replicate k f) s)).toNat = (nextCons f s).toNat + k := by
  induction k generalizing s with
  | zero => exact ⟨rfl, rfl, rfl⟩
  | succ k ih =>
    have hlt : (nextCons f s).toNat < s.cfg.consThreshold := by omega
    have hroom := Nat.lt_of_lt_of_le hlt (consThreshold_le_consMax hcfg)
    have hcount := nextCons_validate_toNat (consMax_le hcfg) hroom
    have hlast : (validate f s).lastAcc = s.lastAcc := by rw [validate_drops (acceptedColumn_of_cons_lt hlt)]
    obtain ⟨hc, hl, hn⟩ := ih (s := validate f s) (by rwa [validate_cfg]) (by rw [hcount, validate_cfg]; omega)
    exact ⟨hc.trans (validate_cfg f s), hl.trans hlast, by rw [List.replicate_succ, validateAll, hn, hcount]; omega⟩

/-- Settles O37: CONS is 0 at the first tick of a new sample, and counts up to the threshold
(`validateAll_replicate`). -/
theorem newSamplesAreAcceptedAtTheThreshold : Obligations.NewSamplesAreAcceptedAtTheThreshold := by
  intro s f hcfg hnew
  have hzero : (nextCons f s).toNat = 0 := by rw [nextCons, if_neg hnew]; rfl
  refine ⟨fun k hk => ?_, fun hone hlast => ?_⟩
  · obtain ⟨hc, -, hn⟩ := validateAll_replicate (f := f) hcfg k (by omega)
    exact acceptedColumn_of_cons_lt (by rw [hc, hn]; omega)
  · obtain ⟨hc, hl, hn⟩ := validateAll_replicate (f := f) hcfg s.cfg.consThreshold (by omega)
    obtain ⟨c, hacc⟩ := (exists_acceptedColumn_iff f (validateAll (List.replicate s.cfg.consThreshold f) s)).2
      ⟨hone, by rwa [hl], by rw [hc, hn]; omega⟩
    obtain ⟨hc8, hmask, -⟩ := (acceptedColumn_eq_some_iff _ _ c).1 hacc
    exact ⟨c, hc8, hmask, hacc⟩

end Sys2Proof.Machine
end

section
/-! SUPPORT. Proofs about `spec/42_integrator.md`: INTEGRATE lane by lane (R130 to R134, R143), counters under
repeated updates (R142), the glow step and the updates it needs (R138, R139, R144), and the maximum sub-cycle
(R140). -/

namespace Sys2Proof.Machine

/-! ### One INTEGRATE -/

/-- R132: a lane whose row is on. -/
theorem integrateLane_false_toNat (v step : Frame) :
    (integrateLane false v step).toNat = min 65535 (v.toNat + step.toNat) := by
  rw [integrateLane_toNat, if_neg Bool.false_ne_true]

/-- R133: a lane whose row is off. -/
theorem integrateLane_true_toNat (v step : Frame) :
    (integrateLane true v step).toNat = v.toNat - step.toNat := by
  rw [integrateLane_toNat, if_pos rfl]

/-- R131, R135: the lamp of one row of the integrated column. -/
theorem readTable_integrate {c r : Nat} (hc : c < 8) (hr : r < 8) (rm : Byte) (s : State) :
    readTable (integrate c rm s).matrix (8 * c + r)
      = integrateLane (rm.getLsbD r) (readTable s.matrix (8 * c + r)) (readTable s.stepTab (8 * c + r)) := by
  rw [integrate_eq hc]
  exact readTable_integrateColumn hc hr rm s.stepTab s.matrix

/-- R135: the lamps of the other columns. -/
theorem readTable_integrate_other {c i : Nat} (h : i / 8 ≠ c) (rm : Byte) (s : State) :
    readTable (integrate c rm s).matrix i = readTable s.matrix i := by
  rcases Nat.lt_or_ge c 8 with hc | hc
  · rw [integrate_eq hc]
    exact readTable_integrateColumn_other h rm s.stepTab s.matrix
  · rw [integrate_out_of_range hc]

/-- Settles O22: the lanes of the column, the lamps of the others and the frame. -/
theorem integrateMovesOneColumn : Obligations.IntegrateMovesOneColumn := by
  refine fun s c rm => ⟨fun hc => integrate_out_of_range hc rm s, fun hc =>
    ⟨fun r hr => ⟨fun hon => ?_, fun hoff => ?_⟩, fun i hi => readTable_integrate_other hi rm s,
      integrate_frame c rm s⟩⟩
  · rw [readTable_integrate hc hr, hon, integrateLane_false_toNat]
  · rw [readTable_integrate hc hr, hoff, integrateLane_true_toNat]

/-- R143: a counter at 65535 does not rise. -/
theorem integrateLane_false_of_full (step : Frame) : integrateLane false 65535 step = 65535 := by
  refine BitVec.eq_of_toNat_eq ?_
  rw [integrateLane_false_toNat]
  exact Nat.min_eq_left (Nat.le_add_right 65535 step.toNat)

/-- R143: a counter at 0 does not fall. -/
theorem integrateLane_true_of_zero (step : Frame) : integrateLane true 0 step = 0 := by
  refine BitVec.eq_of_toNat_eq ?_
  rw [integrateLane_true_toNat]
  exact Nat.zero_sub step.toNat

/-- Settles O24: the lane of the lamp, at either end of its range. -/
theorem saturatedLampsStay : Obligations.SaturatedLampsStay := by
  rintro s c r rm hc hr (⟨hfull, hon⟩ | ⟨hzero, hoff⟩) <;> rw [readTable_integrate hc hr]
  · rw [hfull, hon, integrateLane_false_of_full]
  · rw [hzero, hoff, integrateLane_true_of_zero]

/-! ### Repeated updates -/

/-- R132: rising updates add up, as far as 65535. -/
theorem updates_false_toNat (step : Frame) (n : Nat) (v : Frame) :
    (updates false step n v).toNat = min 65535 (v.toNat + n * step.toNat) := by
  induction n generalizing v with
  | zero =>
    rw [updates]
    omega
  | succ n ih =>
    rw [updates, ih, integrateLane_false_toNat, Nat.succ_mul]
    omega

/-- R133: falling updates add up, as far as 0. -/
theorem updates_true_toNat (step : Frame) (n : Nat) (v : Frame) :
    (updates true step n v).toNat = v.toNat - n * step.toNat := by
  induction n generalizing v with
  | zero =>
    rw [updates]
    omega
  | succ n ih =>
    rw [updates, ih, integrateLane_true_toNat, Nat.succ_mul]
    omega

theorem updates_false_eq_full_iff (step : Frame) (n : Nat) (v : Frame) :
    updates false step n v = 65535 ↔ 65535 ≤ v.toNat + n * step.toNat := by
  rw [← BitVec.toNat_inj, updates_false_toNat]
  change min 65535 _ = 65535 ↔ _
  omega

theorem updates_true_eq_zero_iff (step : Frame) (n : Nat) (v : Frame) :
    updates true step n v = 0 ↔ v.toNat ≤ n * step.toNat := by
  rw [← BitVec.toNat_inj, updates_true_toNat]
  exact Nat.sub_eq_zero_iff_le

/-- R142: once the steps of the updates make up the whole range, both directions saturate from any value. -/
theorem updates_saturate {step : Frame} {n : Nat} (h : 65535 ≤ n * step.toNat) (v : Frame) :
    updates false step n v = 65535 ∧ updates true step n v = 0 := by
  rw [updates_false_eq_full_iff, updates_true_eq_zero_iff]
  omega

/-- From 0, rising updates saturate exactly when their steps make up the whole range. -/
theorem updates_false_zero_eq_full_iff (step : Frame) (n : Nat) :
    updates false step n 0 = 65535 ↔ 65535 ≤ n * step.toNat := by
  rw [updates_false_eq_full_iff]
  change 65535 ≤ 0 + n * step.toNat ↔ _
  rw [Nat.zero_add]

/-- `ceil_div` is the least number of steps that makes up the whole range. -/
theorem ceilDiv_le_iff {step n : Nat} (h : 1 ≤ step) : ceilDiv 65535 step ≤ n ↔ 65535 ≤ n * step := by
  refine ⟨fun hn => ?_, fun hn => Nat.le_of_not_lt fun hlt => Nat.not_lt_of_le hn (mul_lt_of_lt_ceilDiv h hlt)⟩
  calc 65535 ≤ step * ceilDiv 65535 step := le_mul_ceilDiv h
    _ ≤ step * n := Nat.mul_le_mul_left step hn
    _ = n * step := Nat.mul_comm step n

/-- Settles O23: `ceil_div` updates make up the whole range (`ceilDiv_le_iff`), and one lane never wraps. -/
theorem countersSaturateAndStay : Obligations.CountersSaturateAndStay := by
  refine fun step v hstep => ⟨fun n hn => updates_saturate ((ceilDiv_le_iff hstep).1 hn) v, ?_, ?_⟩
  · rw [integrateLane_false_toNat]
    omega
  · rw [integrateLane_true_toNat]
    exact Nat.sub_le v.toNat step.toNat

/-! ### The glow step -/

/-- R138: no scans is instant. -/
theorem glowStep_toNat_of_no_scans {c : Config} {g : Byte} {m : Bool} (h : scansFor c g m = 0) :
    (glowStep c g m).toNat = 65535 := by
  rw [glowStep_toNat, stepOfScans, if_pos h]

theorem glowStep_toNat_of_scans {c : Config} {g : Byte} {m : Bool} (h : scansFor c g m ≠ 0) :
    (glowStep c g m).toNat = ceilDiv 65535 (scansFor c g m) := by
  rw [glowStep_toNat, stepOfScans, if_neg h]

/-- R138: the division rounds up, so the steps of a code's scans make up the whole range. -/
theorem full_le_scansFor_mul_glowStep {c : Config} {g : Byte} {m : Bool} (h : 1 ≤ scansFor c g m) :
    65535 ≤ scansFor c g m * (glowStep c g m).toNat := by
  rw [glowStep_toNat_of_scans (Nat.one_le_iff_ne_zero.1 h)]
  exact le_mul_ceilDiv h

/-- Settles O25: the two cases of `stepOfScans`, and the steps of the scans against the whole range. -/
theorem glowStepTraversesInItsScans : Obligations.GlowStepTraversesInItsScans := by
  intro c g m scans hscans
  obtain rfl : scans = scansFor c g m := hscans
  exact ⟨glowStep_toNat_of_no_scans, glowStep_toNat_of_scans, glowStep_pos c g m,
    fun h => updates_saturate (full_le_scansFor_mul_glowStep h)⟩

/-- R144: up to 256 scans the step is no less than the number of scans, so rounding up costs no scan. -/
theorem pred_mul_ceilDiv_lt {n : Nat} (h : 1 ≤ n) (hn : n ≤ 256) : (n - 1) * ceilDiv 65535 n < 65535 := by
  have hstep : n - 1 < ceilDiv 65535 n := by
    refine Nat.lt_of_not_le fun hle => ?_
    have hreach : 65535 ≤ (n - 1) * n := (ceilDiv_le_iff h).1 hle
    have hroom : (n - 1) * n ≤ 255 * 256 := Nat.mul_le_mul (by omega) hn
    omega
  have hfloor : ceilDiv 65535 n * n ≤ 65535 + n - 1 := Nat.div_mul_le_self _ _
  rw [Nat.sub_mul, Nat.one_mul, Nat.mul_comm]
  omega

/-- R144: where one scan less does not make up the range, exactly the code's scans traverse it. -/
theorem updates_traverse_in_scansFor {c : Config} {g : Byte} {m : Bool} (h : 1 ≤ scansFor c g m)
    (hexact : (scansFor c g m - 1) * (glowStep c g m).toNat < 65535) :
    updates false (glowStep c g m) (scansFor c g m) 0 = 65535
      ∧ ∀ n, n < scansFor c g m → updates false (glowStep c g m) n 0 ≠ 65535 := by
  refine ⟨(updates_false_zero_eq_full_iff _ _).2 (full_le_scansFor_mul_glowStep h), fun n hn hfull => ?_⟩
  have hreach : 65535 ≤ n * (glowStep c g m).toNat := (updates_false_zero_eq_full_iff _ _).1 hfull
  have hfewer : n * (glowStep c g m).toNat ≤ (scansFor c g m - 1) * (glowStep c g m).toNat :=
    Nat.mul_le_mul_right _ (Nat.le_sub_one_of_lt hn)
  omega

/-- R144: for a step of at least 1, exactly `ceil_div` rising updates traverse the range. -/
theorem updates_traverse_in_ceilDiv {step : Frame} (h : 1 ≤ step.toNat) :
    updates false step (ceilDiv 65535 step.toNat) 0 = 65535
      ∧ ∀ n, n < ceilDiv 65535 step.toNat → updates false step n 0 ≠ 65535 := by
  simp only [Ne, updates_false_zero_eq_full_iff, ← ceilDiv_le_iff h]
  exact ⟨Nat.le_refl _, fun n hn => Nat.not_le_of_lt hn⟩

/-- Settles O26: the bound of 256 scans, the exact scans, and the count of updates in every case. -/
theorem traverseTakesExactlyItsScans : Obligations.TraverseTakesExactlyItsScans := by
  refine fun c g m hscans => ⟨fun hsmall => ?_, updates_traverse_in_scansFor hscans,
    updates_traverse_in_ceilDiv (glowStep_pos c g m)⟩
  rw [glowStep_toNat_of_scans (Nat.one_le_iff_ne_zero.1 hscans)]
  exact pred_mul_ceilDiv_lt hscans hsmall

/-! ### The maximum sub-cycle -/

theorem code_mul_le {n : Nat} (h : n ≤ 256) (b : Byte) : (b.toNat + 1) * n ≤ 256 * 256 :=
  Nat.mul_le_mul b.isLt h

/-- R140: `max_sub` keeps its value in 16 bits; where the quotient is 0 it is 0. -/
theorem maxSub_toNat {n : Nat} (h : n ≤ 256) (b : Byte) : (maxSub b n).toNat = (b.toNat + 1) * n / 8 - 1 := by
  have hbound := code_mul_le h b
  rw [maxSub]
  split
  · change 0 = _
    omega
  · rw [BitVec.toNat_ofNat]
    omega

/-- Settles O27: `max_sub` as a number (`maxSub_toNat`), with the product against `8 * n` for code 7 and above. -/
theorem maxSubFollowsTheCode : Obligations.MaxSubFollowsTheCode := by
  intro b n _ hn
  have hbound := code_mul_le hn b
  have hseven : b.toNat = 7 → (b.toNat + 1) * n = 8 * n := fun h => by rw [h]
  have habove : 7 ≤ b.toNat → 8 * n ≤ (b.toNat + 1) * n := fun h => Nat.mul_le_mul_right n (by omega)
  rw [maxSub_toNat hn]
  refine ⟨fun _ => ?_, fun _ => rfl, fun h => ?_, fun h => ?_, fun _ => ?_, ?_⟩
  · omega
  · rw [hseven h]
    omega
  · have := habove h
    omega
  · omega
  · omega

end Sys2Proof.Machine
end

section
/-! SUPPORT. Proofs about `spec/43_pwm_driver.md`: the frame AGFRAME emits (R153, R156), the two behaviours of
DRIVE (R151, R152, R157), the LED chain during an emission (R159), and the PWM window (R154, R158). -/

namespace Sys2Proof.Machine

/-! ### The afterglow frame -/

/-- R156: an active-low row byte is inverted bit by bit. -/
theorem rowByte_getLsbD (activeLow : Bool) (lit : Byte) {r : Nat} (hr : r < 8) :
    (rowByte activeLow lit).getLsbD r = xor (lit.getLsbD r) activeLow := by
  cases activeLow <;> simp [rowByte, hr]

/-- R153, R73: the column byte is the upper byte of the afterglow frame. -/
theorem afterglowFrame_getLsbD_column (s : State) {b : Nat} (hb : b < 8) :
    (afterglowFrame s).getLsbD (8 + b) = decide (b = s.tickCol.toNat) := by
  rw [afterglowFrame, BitVec.getLsbD_append, if_neg (by omega), Nat.add_sub_cancel_left,
    columnMask_getLsbD s.tickCol.isLt hb]

/-- R153, R156: the row byte is the lower byte of the afterglow frame. -/
theorem afterglowFrame_getLsbD_row (s : State) {r : Nat} (hr : r < 8) :
    (afterglowFrame s).getLsbD r =
      xor (lampOn (subCycles s.cfg s.tmode)
            (readTable s.matrix (8 * s.tickCol.toNat + r)) (readTable s.maxsubTab (8 * s.tickCol.toNat + r))
            s.subIdx.toNat)
        s.cfg.outRowActiveLow := by
  rw [afterglowFrame, BitVec.getLsbD_append, if_pos hr, rowByte_getLsbD _ _ hr, litRows_getLsbD _ _ _ _ _ hr,
    lampIndex]

theorem agframe_adds (s : State) : s.adds (agframe s)
    (((if s.out.soOeN = true then [.oeN false] else []) ++ [.emit (afterglowFrame s)]) ++ [.phase .drive]) :=
  adds_trans (t := s.enter .drive) rfl (emit_adds (afterglowFrame s) (s.enter .drive))

/-- The frame of AGFRAME. -/
theorem agframe_frame (s : State) :
    s.sameExcept (agframe s) [.phase, .trace, .lastOut, .soOeN, .soClk, .soData, .soLatch] :=
  sameExcept_trans (sameExcept_mono (enter_frame s .drive) (by decide))
    (sameExcept_mono (emit_frame (afterglowFrame s) (s.enter .drive)) (by decide))

/-- Settles O29: the two bytes bit by bit, and what the one emission leaves. -/
theorem afterglowFrameShowsOneColumn : Obligations.AfterglowFrameShowsOneColumn := by
  intro s
  refine ⟨fun _ => afterglowFrame_getLsbD_column s, fun _ => afterglowFrame_getLsbD_row s,
    ⟨_, agframe_adds s, ?_⟩, rfl, by rw [agframe_eq], agframe_frame s⟩
  cases s.out.soOeN <;> rfl

/-! ### The two behaviours of DRIVE -/

theorem phasesOf_append (new old : List Obs) : phasesOf (new ++ old) = phasesOf old ++ phasesOf new := by
  simp [phasesOf]

/-- A change of `SO_OE_N` is no phase. -/
@[simp] theorem phasesOf_oeChange (old new : Bool) : phasesOf (oeChange old new) = [] := by
  cases old <;> cases new <;> rfl

/-- The entries a step adds to the trace are unique. -/
theorem adds_unique {s t : State} {new new' : List Obs} (h : s.adds t new) (h' : s.adds t new') : new = new' :=
  List.append_cancel_right (h.symm.trans h')

/-- R151, R152, R157: the phases DRIVE enters. -/
theorem phasesOf_of_adds_drive {s : State} {new : List Obs} (hnew : s.adds (drive s) new) :
    phasesOf new = if s.agT = true then [.blank, .drive] else [.drive] := by
  rcases drive_cases s with ⟨hag, h⟩ | ⟨hag, -, h⟩ | ⟨hag, -, h⟩ <;> rw [h] at hnew
  · rw [adds_unique (new' := [.emit (afterglowFrame s), .phase .drive]
        ++ (oeChange s.out.soOeN false ++ [.emit 0, .phase .blank])) hnew (by simp [State.adds]),
      phasesOf_append, phasesOf_append, phasesOf_oeChange, if_pos hag]
    rfl
  · rw [adds_unique (new' := oeChange s.out.soOeN false ++ [.emit s.rawPrev, .phase .drive]) hnew
        (by simp [State.adds]), phasesOf_append, phasesOf_oeChange, if_neg (by simp [hag])]
    rfl
  · rw [adds_unique (new' := [.phase .drive]) hnew rfl, if_neg (by simp [hag])]
    rfl

/-- Settles O32: one case for the afterglow, and two for a sample PASS emits or does not (`passEmits_iff`). -/
theorem driveFollowsTheLatchedMode : Obligations.DriveFollowsTheLatchedMode := by
  intro s
  obtain ⟨new, hadds, hframes, -⟩ := drive_addsPorts s
  have hphases := phasesOf_of_adds_drive hadds
  have hlast := drive_lastOut s
  refine ⟨new, hadds, drive_frame s, fun hag => ?_, fun hag hemit => ?_, fun hag hraw hoe => ?_⟩
  · rw [hphases, hframes, drivenFrames, hlast, if_pos hag, if_pos hag, if_pos hag]
    exact ⟨rfl, rfl, rfl, drive_soOeN s⟩
  · have hpass : ¬ s.agT = true := by simp [hag]
    rw [hphases, hframes, drivenFrames, hlast, if_neg hpass, if_neg hpass, if_neg hpass, if_pos hemit, if_pos hemit]
    exact ⟨rfl, rfl, rfl, drive_soOeN s⟩
  · have hpass : ¬ s.agT = true := by simp [hag]
    have hskip : passEmits s = false := by simp [passEmits, hraw, hoe]
    have hframe : ¬ (s.rawPrev ≠ s.lastOut ∨ s.out.soOeN = true) := by simp [← passEmits_iff, hskip]
    rw [hphases, hframes, drivenFrames, if_neg hpass, if_neg hpass, if_neg hframe, drive_passSkips hag hskip]
    exact ⟨rfl, rfl, rfl, rfl⟩

/-! ### The LED chain during an emission -/

/-- R150: a chain's stages after a rising clock. -/
def shiftBit (stages : Frame) (b : Bool) : Frame := (stages <<< 1) ||| (BitVec.ofBool b).setWidth 16

@[simp] theorem seeAll_append (c : LedChain) (ws ws' : List PinWrite) :
    c.seeAll (ws ++ ws') = (c.seeAll ws).seeAll ws' := List.foldl_append

/-- R150: the writes of the bits shift them in one after another, and move nothing else but the data bit. -/
theorem seeAll_shiftOutWrites (bs : List Bool) {c : LedChain} (hclk : c.clk = false) :
    ∃ d, c.seeAll (shiftOutWrites bs) = { c with data := d, stages := bs.foldl shiftBit c.stages } := by
  induction bs generalizing c with
  | nil => exact ⟨c.data, rfl⟩
  | cons b bs ih =>
    obtain ⟨d, h⟩ := ih (c := { c with data := b, stages := shiftBit c.stages b }) hclk
    have hbit : c.seeAll [.soData b, .soClk true, .soClk false]
        = { c with data := b, stages := shiftBit c.stages b } := by
      simp [LedChain.seeAll, LedChain.see, shiftBit, hclk]
    exact ⟨d, by rw [shiftOutWrites, List.flatMap_cons, seeAll_append, hbit]; exact h⟩

/-- R76: after `k` bits the upper `k` bits of the frame have pushed the old stages up. -/
theorem foldl_shiftBit_range (f stages : Frame) (k : Nat) (hk : k ≤ 16) :
    ((List.range k).map fun j => f.getLsbD (15 - j)).foldl shiftBit stages
      = (stages <<< k) ||| (f >>> (16 - k)) := by
  induction k with
  | zero =>
    refine BitVec.eq_of_getLsbD_eq fun i hi => ?_
    simp
  | succ k ih =>
    rw [List.range_succ, List.map_append, List.foldl_append, ih (by omega)]
    refine BitVec.eq_of_getLsbD_eq fun i hi => ?_
    cases i with
    | zero =>
      have hbit : 16 - (k + 1) = 15 - k := by omega
      simp [shiftBit, hbit]
    | succ i =>
      have hbit : 15 - k + (i + 1) = 16 - k + i := by omega
      simp [shiftBit, hbit, hi]

/-- R150: sixteen bits replace all the stages. -/
theorem foldl_shiftBit_bitsMsbFirst (f stages : Frame) : (bitsMsbFirst f).foldl shiftBit stages = f := by
  rw [bitsMsbFirst, foldl_shiftBit_range f stages 16 (Nat.le_refl 16)]
  simp

/-- R159: the outputs change only when the latch rises. -/
theorem seeAll_outputs_of_not_mem {ws : List PinWrite} (h : .soLatch true ∉ ws) (c : LedChain) :
    (c.seeAll ws).outputs = c.outputs := by
  induction ws generalizing c with
  | nil => rfl
  | cons w ws ih =>
    obtain ⟨hw, hws⟩ := not_or.1 (mt List.mem_cons.2 h)
    have hsee : (c.see w).outputs = c.outputs := by
      cases w with
      | soClk b => rw [LedChain.see]; split <;> rfl
      | soLatch b =>
        cases b with
        | false => rfl
        | true => exact absurd rfl hw
      | soData | soOeN | siClk | siLoadN => rfl
    exact (ih hws (c.see w)).trans hsee

/-- R159: the outputs stay disabled until the output enable falls. -/
theorem writes_soOeN_of_not_mem {ws : List PinWrite} (h : .soOeN false ∉ ws) {o : OutPins} (ho : o.soOeN = true) :
    (o.writes ws).soOeN = true := by
  induction ws generalizing o with
  | nil => exact ho
  | cons w ws ih =>
    obtain ⟨hw, hws⟩ := not_or.1 (mt List.mem_cons.2 h)
    refine ih hws ?_
    cases w with
    | soOeN b =>
      cases b with
      | false => exact absurd rfl hw
      | true => rfl
    | soClk | soData | soLatch | siClk | siLoadN => exact ho

/-- R150: the writes of an emission before the latch rises. -/
def loadWrites (f : Frame) : List PinWrite := shiftOutWrites (bitsMsbFirst f) ++ [.soData false]

/-- R150: the writes of an emission after the latch rises. -/
def enableWrites : List PinWrite := [.soLatch false, .soOeN false]

theorem emitWrites_eq_load_latch_enable (f : Frame) :
    emitWrites f = loadWrites f ++ .soLatch true :: enableWrites := by
  rw [emitWrites_eq, loadWrites, List.append_assoc]
  rfl

theorem soLatch_not_mem_loadWrites (f : Frame) (b : Bool) : .soLatch b ∉ loadWrites f := by
  simp [loadWrites, shiftOutWrites]

theorem soOeN_not_mem_loadWrites (f : Frame) (b : Bool) : .soOeN b ∉ loadWrites f := by
  simp [loadWrites, shiftOutWrites]

/-- R159: once the latch has risen the outputs show the whole frame, until it rises again. -/
theorem seeAll_outputs_of_latched {c : LedChain} (hclk : c.clk = false) (hlatch : c.latch = false) (f : Frame)
    {ws : List PinWrite} (h : .soLatch true ∉ ws) :
    (c.seeAll (loadWrites f ++ .soLatch true :: ws)).outputs = f := by
  obtain ⟨d, hd⟩ := seeAll_shiftOutWrites (bitsMsbFirst f) hclk
  rw [foldl_shiftBit_bitsMsbFirst] at hd
  have hlatched : ((c.seeAll (loadWrites f)).see (.soLatch true)).outputs = f := by
    rw [loadWrites, seeAll_append, hd]
    simp [LedChain.seeAll, LedChain.see, hlatch]
  rw [seeAll_append]
  exact (seeAll_outputs_of_not_mem h _).trans hlatched

/-- Settles O31: the writes taken end before the latch rises, with outputs and output enable as they were, or after it,
with the whole frame on the outputs. -/
theorem noPartialFrameIsVisible : Obligations.NoPartialFrameIsVisible := by
  intro c f k o hclk hlatch
  rw [emitWrites_eq_load_latch_enable]
  have hwhole := seeAll_outputs_of_latched hclk hlatch f (ws := enableWrites) (by decide)
  rcases Nat.lt_or_ge (loadWrites f).length k with hk | hk
  · obtain ⟨j, rfl⟩ : ∃ j, k = (loadWrites f).length + (j + 1) := ⟨k - (loadWrites f).length - 1, by omega⟩
    have hlatched := seeAll_outputs_of_latched hclk hlatch f (ws := enableWrites.take j)
      fun hmem => absurd (List.mem_of_mem_take hmem) (by decide)
    rw [List.take_length_add_append, List.take_succ_cons]
    exact ⟨.inr hlatched, hwhole, fun _ _ => hlatched⟩
  · rw [List.take_append_of_le_length hk]
    have hnolatch : .soLatch true ∉ (loadWrites f).take k :=
      mt List.mem_of_mem_take (soLatch_not_mem_loadWrites f true)
    have hnoenable : .soOeN false ∉ (loadWrites f).take k :=
      mt List.mem_of_mem_take (soOeN_not_mem_loadWrites f false)
    refine ⟨.inl (seeAll_outputs_of_not_mem hnolatch c), hwhole, fun ho hfall => ?_⟩
    rw [writes_soOeN_of_not_mem hnoenable ho] at hfall
    exact Bool.noConfusion hfall

/-! ### The PWM window -/

/-- R154: a lamp is on in the sub-cycles up to its threshold, unless its counter is 0. -/
theorem lampOn_iff (n : Nat) (v m : Frame) (sub : Nat) :
    lampOn n v m sub = true ↔ v ≠ 0 ∧ sub ≤ min (v.toNat / (65536 / n)) m.toNat := by
  unfold lampOn
  split
  · next hv => exact iff_of_false Bool.false_ne_true fun h => h.1 hv
  · next hv => rw [decide_eq_true_eq, and_iff_right hv]

/-- R23, R8: a valid configuration whose windows have `n` sub-cycles in both timing modes. -/
def windowConfig (n : Nat) : Config := { Config.binding1 with n0 := n, n1 := n }

theorem configValid_windowConfig {n : Nat} (h1 : 1 ≤ n) (h256 : n ≤ 256) : configValid (windowConfig n) = true := by
  simp [configValid, windowConfig, Config.binding1, h1, h256]

theorem subCycles_windowConfig (n : Nat) (tmode : Bool) : subCycles (windowConfig n) tmode = n := by
  cases tmode <;> rfl

/-- R175: of the configuration, ADVANCE reads the sub-cycles of its timing mode alone. -/
theorem advances_withCfg (k : Nat) {s : State} {c : Config} (h : subCycles c s.tmode = subCycles s.cfg s.tmode) :
    advances k { s with cfg := c } = { advances k s with cfg := c } := by
  induction k generalizing s with
  | zero => rfl
  | succ k ih =>
    have hone : advance { s with cfg := c } = { advance s with cfg := c } := by
      simp only [advance_eq, h]
    rw [advances, hone]
    exact ih (s := advance s) h

/-- R25, R158: where the tick counter stands inside a window of 1 to 256 sub-cycles (`tickCounterCountsTicks`). -/
theorem advances_window {s : State} {n : Nat} (hn : n = subCycles s.cfg s.tmode) (h1 : 1 ≤ n) (h256 : n ≤ 256)
    (hcol : s.tickCol = 0) (hsub : s.subIdx = 0) (k : Nat) :
    (advances k s).tickCol.toNat = k % 8 ∧ (advances k s).subIdx.toNat = k / 8 % n := by
  have hcycles : subCycles (windowConfig n) s.tmode = n := subCycles_windowConfig n s.tmode
  have hcount := tickCounterCountsTicks { s with cfg := windowConfig n } k (configValid_windowConfig h1 h256) hcol hsub
  rw [advances_withCfg k (hcycles.trans hn)] at hcount
  simpa only [hcycles] using hcount

/-- R158: a column is visited once in each of the `n` rounds of the eight columns. -/
theorem length_filter_visits {c : Nat} (hc : c < 8) (p : Nat → Bool) (n : Nat) :
    ((List.range (8 * n)).filter fun k => k % 8 == c && p (k / 8)).length = ((List.range n).filter p).length := by
  have hround : ∀ (c : Fin 8) (b : Bool),
      ((List.range 8).filter fun j => j == c.val && b).length = if b = true then 1 else 0 := by decide
  induction n with
  | zero => rfl
  | succ n ih =>
    have hvisit : (((List.range 8).map (8 * n + ·)).filter fun k => k % 8 == c && p (k / 8)).length
        = if p n = true then 1 else 0 := by
      rw [List.filter_map, List.length_map, ← hround ⟨c, hc⟩ (p n)]
      refine congrArg List.length (List.filter_congr fun j hj => ?_)
      have hj : j < 8 := List.mem_range.1 hj
      have hmod : (8 * n + j) % 8 = j := by omega
      have hdiv : (8 * n + j) / 8 = n := by omega
      simp only [Function.comp_apply, hmod, hdiv]
    rw [Nat.mul_succ, List.range_add, List.filter_append, List.length_append, ih, hvisit, List.range_succ,
      List.filter_append, List.length_append]
    cases hp : p n <;> simp [hp]

theorem length_filter_le_range (t n : Nat) :
    ((List.range n).filter fun k => decide (k ≤ t)).length = min n (t + 1) := by
  induction n with
  | zero => simp
  | succ n ih =>
    rw [List.range_succ, List.filter_append, List.length_append, ih]
    by_cases h : n ≤ t
    · rw [List.filter_cons_of_pos (by simpa using h), List.filter_nil, List.length_singleton]
      omega
    · rw [List.filter_cons_of_neg (by simpa using h), List.filter_nil, List.length_nil]
      omega

/-- R158: the sub-cycles in which a lamp is on. -/
theorem length_filter_lampOn {n : Nat} (h1 : 1 ≤ n) (v m : Frame) :
    ((List.range n).filter (lampOn n v m)).length
      = if v = 0 then 0 else min (min (v.toNat / (65536 / n)) m.toNat) (n - 1) + 1 := by
  split
  · next hv =>
    have hoff : ∀ k, lampOn n v m k = false := fun k => by rw [lampOn, if_pos hv]
    simp [hoff]
  · next hv =>
    have hon : ∀ k, lampOn n v m k = decide (k ≤ min (v.toNat / (65536 / n)) m.toNat) := fun k => by
      rw [lampOn, if_neg hv]
    rw [List.filter_congr fun k _ => hon k, length_filter_le_range]
    omega

/-- Settles O28: the tick counter at each visit (`advances_window`), and the visits counted round by round. -/
theorem windowLightsALampItsCount : Obligations.WindowLightsALampItsCount := by
  intro s n c v m hn h1 h256 hc hcol hsub
  have hwindow := advances_window hn h1 h256 hcol hsub
  have hvisit : ∀ k, k < n → (advances (8 * k + c) s).tickCol.toNat = c
      ∧ (advances (8 * k + c) s).subIdx.toNat = k := fun k hk => by
    obtain ⟨htick, hround⟩ := hwindow (8 * k + c)
    have hmod : (8 * k + c) % 8 = c := by omega
    have hdiv : (8 * k + c) / 8 = k := by omega
    exact ⟨htick.trans hmod, by rw [hround, hdiv, Nat.mod_eq_of_lt hk]⟩
  refine ⟨hvisit, ?_, fun k hk => ?_, ?_⟩
  · obtain ⟨htick, hround⟩ := hwindow (8 * n)
    refine ⟨BitVec.eq_of_toNat_eq ?_, BitVec.eq_of_toNat_eq ?_⟩
    · rw [htick]
      exact Nat.mul_mod_right 8 n
    · rw [hround, Nat.mul_div_cancel_left n (by decide)]
      exact Nat.mod_self n
  · rw [(hvisit k hk).2]
    exact lampOn_iff n v m k
  · rw [← length_filter_lampOn h1 v m, ← length_filter_visits hc (lampOn n v m) n]
    refine congrArg List.length (List.filter_congr fun k hk => ?_)
    obtain ⟨htick, hround⟩ := hwindow k
    have hlt : k / 8 < n := Nat.div_lt_of_lt_mul (List.mem_range.1 hk)
    rw [htick, hround, Nat.mod_eq_of_lt hlt]

end Sys2Proof.Machine
end

section
/-! SUPPORT. Proofs about `spec/44_scheduler.md` and `spec/60_exceptions.md`: ADVANCE (R175), the phases and the
duration of a tick (R174, R177), the timing-mode change (R178), the watchdog's expiry (R180), and the event a step
takes (R182, R227). -/

namespace Sys2Proof.Machine

/-! ### ADVANCE -/

/-- R175: within the eight columns the next one is a step up. -/
theorem nextTickCol_toNat_of_ne {col : BitVec 3} (h : col ≠ 7) : (nextTickCol col).toNat = col.toNat + 1 := by
  have hlast : col.toNat ≠ 7 := fun hcol => h (BitVec.eq_of_toNat_eq hcol)
  have hlt := col.isLt
  rw [nextTickCol_toNat]
  omega

/-- Settles O38, by the column: the last one, or another. -/
theorem advanceMovesTheTickCounter : Obligations.AdvanceMovesTheTickCounter := by
  intro s hc
  obtain ⟨hn, hn'⟩ := subCycles_bounds hc s.tmode
  refine ⟨fun hlast => ?_, fun hcol => ?_, advance_frame s⟩ <;> rw [advance_eq]
  · exact ⟨if_pos hlast, (nextSubIdx_toNat hn hn' _ _).trans (if_pos hlast)⟩
  · exact ⟨nextTickCol_toNat_of_ne hcol, if_neg hcol⟩

/-! ### The phases of a tick -/

/-- From `s` to `t` the trace gains the phases `ps`, oldest first. -/
def State.addsPhases (s t : State) (ps : List Phase) : Prop := ∃ new, s.adds t new ∧ phasesOf new = ps

theorem addsPhases_trans {s t u : State} {ps ps' : List Phase} (h : s.addsPhases t ps) (h' : t.addsPhases u ps') :
    s.addsPhases u (ps ++ ps') := by
  obtain ⟨new, ha, rfl⟩ := h
  obtain ⟨new', ha', rfl⟩ := h'
  exact ⟨new' ++ new, adds_trans ha ha', phasesOf_append _ _⟩

theorem drive_addsPhases (s : State) :
    s.addsPhases (drive s) ((if s.agT = true then [.blank] else []) ++ [.drive]) := by
  obtain ⟨new, hadds, -⟩ := drive_addsPorts s
  refine ⟨new, hadds, (phasesOf_of_adds_drive hadds).trans ?_⟩
  split <;> rfl

theorem sample_addsPhases (s : State) : s.addsPhases (sample s) [.sample] := by
  rw [sample_eq]
  refine ⟨(if s.testT then [] else [.shiftIn s.pins.siLines]) ++ [.phase .sample], by simp [State.adds], ?_⟩
  cases s.testT <;> rfl

/-- R115, R130: INTEGRATE follows VALIDATE when the sample is accepted. -/
theorem validate_addsPhases (f : Frame) (s : State) : s.addsPhases (validate f s)
    (.validate :: if acceptedColumn f s = none then [] else [.integrate]) := by
  refine ⟨_, validate_trace f s, ?_⟩
  cases acceptedColumn f s <;> rfl

/-- R174: the phases from the start of a tick up to ADVANCE. -/
theorem tickPhases_addsPhases (s : State) : (tickStart s).addsPhases (tickPhases s)
    ((if s.agSync = true then [.blank] else []) ++ [.drive, .sample, .validate]
      ++ (if acceptedColumn (tickSample s) s = none then [] else [.integrate]) ++ [.advance]) := by
  have hsampled := tickSampled_frame s
  have hvalidate := validate_addsPhases (tickSample s) (sample (tickDriven s))
  rw [acceptedColumn_congr (tickSample s) (hsampled .cfg (by decide)) (hsampled .rawPrev (by decide))
    (hsampled .cons (by decide)) (hsampled .lastAcc (by decide))] at hvalidate
  have hdrive : (tickStart s).addsPhases (tickDriven s) ((if s.agSync = true then [.blank] else []) ++ [.drive]) :=
    drive_addsPhases (tickStart s)
  have hadvance : ∀ t : State, t.addsPhases (advance t) [.advance] := fun _ => ⟨[.phase .advance], rfl, rfl⟩
  rw [tickPhases_eq]
  simpa using addsPhases_trans hdrive <| addsPhases_trans (sample_addsPhases (tickDriven s)) <|
    addsPhases_trans hvalidate (hadvance _)

/-- Settles O40: the phases up to ADVANCE, then CHECKIN (`tick_inTime`). -/
theorem tickRunsItsPhasesInOrder : Obligations.TickRunsItsPhasesInOrder := by
  intro s hc _ ht hr hp
  obtain ⟨-, -, hpending, -, -, -, htrace⟩ := tickTimed_inTime hc ht hr hp
  obtain ⟨phases, hadds, hphases⟩ := tickPhases_addsPhases s
  have hstart : s.adds (tickPhases s) (phases ++ [.event .tick]) :=
    adds_trans (t := tickStart s) (new := [.event .tick]) rfl hadds
  have hcheckin : (tickPhases s).adds (tick s) [.phase .checkin] := by
    rw [tick_inTime hc ht hr hp]
    exact htrace
  refine ⟨[.phase .checkin] ++ (phases ++ [.event .tick]), adds_trans hstart hcheckin, ?_, by simp, ?_⟩
  · rw [phasesOf_append, phasesOf_append, hphases]
    exact List.append_assoc _ [Phase.advance] [Phase.checkin]
  · rw [tick_inTime hc ht hr hp]
    exact ⟨rfl, hpending, rfl⟩

/-! ### The duration of a tick -/

/-- R177: the duration counter stands at 0 when a tick starts, and counts its cycles. -/
theorem tickTimed_durCur_toNat (s : State) : (tickTimed s).durCur.toNat = min 65535 (tickTime s) := by
  obtain ⟨-, -, hzero, -⟩ := tickPhases_writes s
  rw [tickTimed, elapse_durCur _ _ (by simp [State.enter])]
  simp [State.enter, hzero]

/-- R177: the largest duration, as a number. -/
theorem nextDurMax_toNat (s : State) (d : Frame) : (nextDurMax s d).toNat
    = if s.cfg.hasDiag = true ∧ d.toNat ≤ s.cfg.durOutlierLimit ∧ s.durMax.toNat < d.toNat then d.toNat
      else s.durMax.toNat := by
  simp only [nextDurMax, apply_ite BitVec.toNat, Bool.and_eq_true, decide_eq_true_eq, and_assoc]

/-- Settles O42: the cycles counted before CHECKIN, and what CHECKIN makes of them. -/
theorem tickMeasuresItsDuration : Obligations.TickMeasuresItsDuration := by
  rintro s _ hc _ ht hr hp rfl
  have hdur := tickTimed_durCur_toNat s
  have hcfg := tickTimed_cfg s
  have hmax : (tickTimed s).durMax = s.durMax := tickTimed_frame s .durMax (by decide)
  rw [tick_inTime hc ht hr hp, checkin_eq]
  refine ⟨tickTime_le s, hdur, (nextDurMax_toNat (tickTimed s) (tickTimed s).durCur).trans ?_⟩
  rw [hdur, hcfg, hmax]

/-! ### The timing-mode change and the watchdog's expiry -/

/-- R178: the condition of a timing-mode change. -/
theorem of_nextEvent_tmodeChange {s : State} (h : s.nextEvent = .tmodeChange) :
    s.tmodeSync ≠ s.tmode ∧ s.phase = .idle ∧ s.tickPending = false := by
  rcases nextEvent_cases s with ⟨e, -⟩ | ⟨-, ⟨e, -⟩ | ⟨-, ⟨e, -⟩ | ⟨-, ⟨hdiff, -⟩, hpending, hidle⟩ | ⟨e, -⟩ | ⟨e, -⟩⟩⟩
  case inr.inr.inr.inl => exact ⟨hdiff, hidle, hpending⟩
  all_goals rw [e] at h; cases h

theorem tmodeChange_frame (s : State) : s.sameExcept (tmodeChange s)
    [.tmode, .timer, .tickPending, .tickCol, .subIdx, .stepTab, .maxsubTab, .cfgDirty, .wdtCnt, .trace] := by
  rw [tmodeChange_eq]
  intro f hf
  cases f <;> first | rfl | exact absurd (by decide) hf

/-- Settles O43: the condition, each register as the change writes it, and the frame. -/
theorem timingModeChangeRestartsTheTick : Obligations.TimingModeChangeRestartsTheTick := fun s =>
  ⟨of_nextEvent_tmodeChange, rfl, rfl, rfl, rfl, rfl,
    fun _ hi => ⟨readTable_deriveStep _ _ _ hi, readTable_deriveMaxsub _ _ _ hi⟩, rfl, rfl, tmodeChange_frame s⟩

/-- R180: the watchdog expires only while it is enabled. -/
theorem wdtEn_of_nextEvent_wdtExpire {s : State} (h : s.nextEvent = .wdtExpire) : s.wdtEn = true := by
  rcases nextEvent_cases s with ⟨e, -⟩ | ⟨-, ⟨-, hdue | ⟨-, hen⟩⟩ | ⟨-, ⟨e, -⟩ | ⟨e, -⟩ | ⟨e, -⟩ | ⟨e, -⟩⟩⟩
  case inr.inl.inl => exact (Bool.and_eq_true_iff.1 hdue).1
  case inr.inl.inr => exact hen
  all_goals rw [e] at h; cases h

/-- R180, R241: a watchdog expiry resets what the reset by `RESET_N` resets, its cause apart. -/
theorem resetAction_sameExcept_wdtExpire (s : State) :
    (resetAction .pin s).sameExcept (wdtExpire s) [.rstWdt, .lastEc, .trace] := by
  intro f hf
  cases f <;> first | rfl | exact absurd (by decide) hf

/-- Settles O47: its condition, its cause, the rest of the reset, and its trace. -/
theorem watchdogExpiryResetsTheBlock : Obligations.WatchdogExpiryResetsTheBlock := fun s =>
  ⟨wdtEn_of_nextEvent_wdtExpire, rfl, rfl, resetAction_sameExcept_wdtExpire s, by
    simp [State.adds, wdtExpire_trace, oeChange]⟩

/-! ### Which event comes next -/

/-- R179, R180: the watchdog is enabled, and it is due or the environment draws its fault. -/
def State.expires (s : State) : Prop :=
  s.wdtEn = true ∧ (s.cfg.wdtCycles ≤ s.wdtCnt ∨ s.pins.wdtFault = true)

theorem expires_iff (s : State) : s.expires ↔ (wdtDue s || (s.pins.wdtFault && s.wdtEn)) = true := by
  simp only [State.expires, wdtDue, Bool.or_eq_true, Bool.and_eq_true, decide_eq_true_eq, and_or_left,
    and_comm (a := s.pins.wdtFault = true)]

/-- R8: a block in time expires only by the environment's fault. -/
theorem not_expires_of_inTime {s : State} (hc : configValid s.cfg = true) (ht : s.InTime)
    (hf : s.pins.wdtFault = false) : ¬ s.expires := by
  simp [expires_iff, wdtDue_of_inTime hc ht, hf]

section
variable {s : State} (hn : s.pins.resetN = true) (hi : s.inReset = false)
include hn hi

theorem nextEvent_wdtExpire (hx : s.expires) : s.nextEvent = .wdtExpire := by
  simp [State.nextEvent, hn, hi, (expires_iff s).1 hx]

variable (hx : ¬ s.expires)
include hx

/-- R227: the order of the events below a reset and an expiry. -/
theorem nextEvent_of_not_expires : s.nextEvent =
    if s.run && s.tickPending && decide (s.phase = .idle) then .tick
    else if tmodeDue s then .tmodeChange
    else if s.pins.cmdValid && s.cmdReady then .hostCmd
    else .clock := by
  simp [State.nextEvent, hn, hi, Bool.eq_false_iff.2 (mt (expires_iff s).2 hx)]

theorem nextEvent_of_phase_ne_idle (hphase : s.phase ≠ .idle) : s.nextEvent = .clock := by
  simp [nextEvent_of_not_expires hn hi hx, tmodeDue, State.cmdReady, hphase]

theorem nextEvent_tick (hphase : s.phase = .idle) (hr : s.run = true) (hp : s.tickPending = true) :
    s.nextEvent = .tick := by
  simp [nextEvent_of_not_expires hn hi hx, hphase, hr, hp]

variable (hphase : s.phase = .idle) (hp : s.tickPending = false)
include hphase hp

theorem nextEvent_tmodeChange (hm : s.tmodeSync ≠ s.tmode) (hl : s.pins.tmodeLater = false) :
    s.nextEvent = .tmodeChange := by
  simp [nextEvent_of_not_expires hn hi hx, tmodeDue, hphase, hp, hm, hl]

/-- R190: a presented command, with nothing else to take. -/
theorem nextEvent_of_ready (hm : s.tmodeSync = s.tmode ∨ s.pins.tmodeLater = true) :
    s.nextEvent = if s.pins.cmdValid = true then .hostCmd else .clock := by
  have hdue : tmodeDue s = false := by rcases hm with hm | hm <;> simp [tmodeDue, hm]
  simp [nextEvent_of_not_expires hn hi hx, hdue, State.cmdReady, hn, hi, hphase, hp]

end

/-! ### The step of each event -/

/-- A step runs its event, then takes the next inputs. -/
theorem step_of_runEvent {s u : State} (hc : configValid s.cfg = true) (h : runEvent s = .next u) :
    step s = .next (nextInputs u) := by
  simp only [step, stepEvent, hc, if_true, h, mapNext]

theorem nextInputs_of_agenda_nil {s : State} (h : s.agenda = []) : nextInputs s = s := by
  simp only [nextInputs, h]

theorem nextInputs_of_agenda_cons {s : State} {p : Inputs} {rest : List Inputs} (h : s.agenda = p :: rest) :
    nextInputs s = { s with pins := p, agenda := rest } := by
  simp only [nextInputs, h]

/-- A step with a command to take, whose watchdog does not expire in its cycles, answers the word. -/
theorem step_of_nextEvent_hostCmd {s : State} (hc : configValid s.cfg = true) (hev : s.nextEvent = .hostCmd)
    (hd : wdtDue (commandState s) = false) : ∃ v, execWord s.pins.cmd (commandState s) = .next v
      ∧ step s = .next (nextInputs (logCommand s.pins.cmd v)) := by
  rcases hostCmd_cases s with ⟨hdue, -⟩ | ⟨-, v, hv, hcmd⟩
  · simp [hd] at hdue
  · exact ⟨v, hv, step_of_runEvent hc (by simp only [runEvent, hev, hcmd])⟩

/-! ### Events in any order -/

/-- R209: of a running block no command moves the timers and leaves it running. -/
theorem execWord_keeps_timers {w : Word} {s t : State} (hr : s.run = true) (h : execWord w s = .next t)
    (hrun : t.run = true) : t.timer = s.timer ∧ t.tickPending = s.tickPending ∧ t.wdtCnt = s.wdtCnt := by
  rcases execWord_cases h with ⟨r, rfl⟩ | ⟨i, v, rfl⟩
  · have hf := refuse_frame r s
    exact ⟨hf .timer (by decide), hf .tickPending (by decide), hf .wdtCnt (by decide)⟩
  by_cases hstop : i = .stop
  · subst hstop
    exact absurd hrun Bool.false_ne_true
  by_cases hstart : i = .start
  · subst hstart
    rw [effectOf, startEffect_running hr]
    exact ⟨rfl, rfl, rfl⟩
  · have hf := effectOf_frame_quiet hstop hstart s
    exact ⟨hf .timer (by decide), hf .tickPending (by decide), hf .wdtCnt (by decide)⟩

section
variable {s : State} (hc : configValid s.cfg = true) (hs : s.Consistent) (ht : s.InTime) (hr : s.run = true)
  (hp : s.tickPending = false) (hi : s.inReset = false) (hn : s.pins.resetN = true)
  (hf : s.pins.wdtFault = false) (hl : s.pins.tmodeLater = true)
include hc hs ht hr hp hi hn hf hl

/-- R182: a drawn tick is the next event, and nothing is traced before it. -/
theorem step_to_tick (ha : s.agenda = []) (hv : s.pins.cmdValid = false) (hnow : s.pins.tickNow = true) :
    ∃ t, step s = .next t ∧ t.nextEvent = .tick ∧ t.trace = s.trace := by
  have hidle := hs.phase_idle
  have hev : s.nextEvent = .clock :=
    (nextEvent_of_ready hn hi (not_expires_of_inTime hc ht hf) hidle hp (.inr hl)).trans (by simp [hv])
  have hstep := step_of_runEvent (u := clockCycle s) hc (by simp only [runEvent, hev])
  obtain ⟨htime, htrace⟩ := clockCycle_of_inTime hc hs ht hp
  have hexpires := clockCycle_expires hr (.inr (by simp [tickDrawn, hnow, hp, hidle])) hp hidle
  rw [nextInputs_of_agenda_nil ((clockCycle_frame s .agenda (by decide)).trans ha)] at hstep
  refine ⟨clockCycle s, hstep, ?_, htrace⟩
  rw [hexpires] at htime ⊢
  exact nextEvent_tick hn hi (not_expires_of_inTime hc htime hf) hidle hr rfl

/-- R182: a presented command that takes no time is the next event, and brings no tick nearer. -/
theorem step_hostCmd_timeless (hv : s.pins.cmdValid = true) (h0 : s.pins.cmdCycles = 0) :
    s.nextEvent = .hostCmd
    ∧ ∃ t, step s = .next t
      ∧ (t.run = true → t.tickPending = false ∧ t.timer = s.timer ∧ t.wdtCnt = s.wdtCnt) := by
  have hev : s.nextEvent = .hostCmd :=
    (nextEvent_of_ready hn hi (not_expires_of_inTime hc ht hf) hs.phase_idle hp (.inr hl)).trans (by simp [hv])
  have htaken : commandState s = takeCommand s := by simp [commandState, cmdTime, hr, h0]
  have hdue : wdtDue (commandState s) = false :=
    wdtDue_of_inTime (by rwa [commandState_cfg]) (commandState_of_inTime hc hs ht hp).1
  obtain ⟨v, hexec, hstep⟩ := step_of_nextEvent_hostCmd hc hev hdue
  rw [htaken] at hexec
  refine ⟨hev, _, hstep, fun hrun => ?_⟩
  have hframe : v.sameExcept (nextInputs (logCommand s.pins.cmd v)) [.pins, .agenda, .trace] :=
    sameExcept_trans (sameExcept_mono (logCommand_frame _ v) (by decide))
      (sameExcept_mono (nextInputs_frame _) (by decide))
  obtain ⟨htimer, hpending, hwdt⟩ :=
    execWord_keeps_timers (s := takeCommand s) hr hexec ((hframe .run (by decide)).symm.trans hrun)
  exact ⟨(hframe .tickPending (by decide)).trans (hpending.trans hp), (hframe .timer (by decide)).trans htimer,
    (hframe .wdtCnt (by decide)).trans hwdt⟩

end

/-- What the environment presents is not part of the invariants. -/
theorem consistent_withPins {s : State} (hs : s.Consistent) (p : Inputs) : ({ s with pins := p } : State).Consistent :=
  { hs with }

theorem inTime_withPins {s : State} (ht : s.InTime) (p : Inputs) : ({ s with pins := p } : State).InTime :=
  { ht with }

/-- Settles O45: the order of the events one by one, the step of each, and the two draws. -/
theorem eventsAreTakenByPriority : Obligations.EventsAreTakenByPriority := by
  refine ⟨fun s => ⟨nextEvent_reset, fun hn hi => ⟨fun hen hx => ?_, fun hx => ?_⟩, fun hc => ?_,
    nextInputs_of_agenda_nil, fun _ _ => nextInputs_of_agenda_cons⟩, fun s p hc hs ht hr hp hi ha hn hf hl => ?_⟩
  · exact nextEvent_wdtExpire hn hi ⟨hen, hx⟩
  · exact ⟨nextEvent_of_phase_ne_idle hn hi hx, nextEvent_tick hn hi hx, nextEvent_tmodeChange hn hi hx,
      nextEvent_of_ready hn hi hx⟩
  · refine ⟨fun hev => ?_, fun hev => ?_, fun hev => ?_, fun hev => ?_, fun hev => ?_⟩ <;>
      exact step_of_runEvent hc (by simp only [runEvent, hev])
  · have hs := consistent_withPins hs p
    have ht := inTime_withPins ht p
    exact ⟨step_to_tick (s := { s with pins := p }) hc hs ht hr hp hi hn hf hl ha,
      step_hostCmd_timeless (s := { s with pins := p }) hc hs ht hr hp hi hn hf hl⟩

end Sys2Proof.Machine
end

section
/-! SUPPORT. Proofs about `spec/45_host_commands.md`: the checks on a command word (R191), what each of the fifteen
commands answers and writes (R192 to R206), and the step that takes a command word (R190, R207). -/

namespace Sys2Proof.Machine

/-! ### The three answers -/

section
variable {i : Instr} {s : State} {sp : Space} {k : Nat}

/-- R191: a command allowed in every run state that uses no index is answered. -/
theorem exec_plain (hany : stoppedOnlyOf i = false) (ho : operandOf i = none) :
    exec i s = .next (respond .ok (valueOf i s) (effectOf i s)) :=
  exec_ok (by rw [hany, Bool.false_and]) fun sp k h => by simp [ho] at h

/-- R191: a command allowed in this run state whose index is in its space is answered. -/
theorem exec_indexed (h : (stoppedOnlyOf i && s.run) = false) (ho : operandOf i = some (sp, k)) (hk : k < sp.size) :
    exec i s = .next (respond .ok (valueOf i s) (effectOf i s)) :=
  exec_ok h fun sp' k' h' => by
    obtain ⟨rfl, rfl⟩ : sp = sp' ∧ k = k' := by simpa [ho] using h'
    exact hk

/-- R199 to R205: a command without an effect answers its element and changes nothing else. -/
theorem exec_reads (h : (stoppedOnlyOf i && s.run) = false) (ho : operandOf i = some (sp, k)) (hk : k < sp.size)
    (hread : effectOf i s = s) : ∃ t, exec i s = .next t ∧ s.answered t (valueOf i s) [] :=
  ⟨_, exec_indexed h ho hk, by rw [hread]; exact answered_respond (sameExcept_refl s [])⟩

theorem exec_busyRefused (h : stoppedOnlyOf i = true) (hr : s.run = true) :
    ∃ t, exec i s = .next t ∧ s.busyRefused t :=
  ⟨_, exec_busy h hr, busyRefused_refuse s⟩

theorem exec_rangeRefused (h : (stoppedOnlyOf i && s.run) = false) (ho : operandOf i = some (sp, k))
    (hk : sp.size ≤ k) : ∃ t, exec i s = .next t ∧ s.rangeRefused t :=
  ⟨_, exec_range h ho hk, rangeRefused_refuse s⟩

end

/-- R191: the check that decides the answer of a command. -/
theorem exec_checks (i : Instr) (s : State) : ∃ t, exec i s = .next t ∧
    ((stoppedOnlyOf i = true ∧ s.run = true) ∧ s.busyRefused t
    ∨ ¬ (stoppedOnlyOf i = true ∧ s.run = true) ∧
      ((∃ sp k, operandOf i = some (sp, k) ∧ sp.size ≤ k) ∧ s.rangeRefused t
      ∨ ¬ (∃ sp k, operandOf i = some (sp, k) ∧ sp.size ≤ k) ∧ t.res = .ok)) := by
  by_cases hbusy : stoppedOnlyOf i = true ∧ s.run = true
  · exact ⟨_, exec_busy hbusy.1 hbusy.2, .inl ⟨hbusy, busyRefused_refuse s⟩⟩
  have hallowed : (stoppedOnlyOf i && s.run) = false := Bool.eq_false_iff.2 (mt Bool.and_eq_true_iff.1 hbusy)
  by_cases hrange : ∃ sp k, operandOf i = some (sp, k) ∧ sp.size ≤ k
  · obtain ⟨sp, k, ho, hk⟩ := id hrange
    exact ⟨_, exec_range hallowed ho hk, .inr ⟨hbusy, .inl ⟨hrange, rangeRefused_refuse s⟩⟩⟩
  · have hidx : ∀ sp k, operandOf i = some (sp, k) → k < sp.size := fun sp k ho =>
      Nat.lt_of_not_le fun hk => hrange ⟨sp, k, ho, hk⟩
    exact ⟨_, exec_ok hallowed hidx, .inr ⟨hbusy, .inr ⟨hrange, rfl⟩⟩⟩

/-! ### The checks on a word -/

/-- R80, R81: a word holds the operands of the command it decodes to. -/
theorem operandsIn_of_decode {w : Word} {i : Instr} (h : decode w = .ok i) : i.operandsIn w := by
  unfold decode at h
  split at h <;> cases h <;> simp [Instr.operandsIn]

/-- R79, R82: a word is a command exactly where its opcode is in the map. -/
theorem opcode_mem_map_iff (w : Word) : (opcField w).toNat ∈
      [0x00, 0x01, 0x02, 0x03, 0x04, 0x10, 0x11, 0x12, 0x13, 0x14, 0x15, 0x16, 0x20, 0x21, 0x22]
    ↔ ∃ i, decode w = .ok i := by
  constructor
  · intro hmem
    cases hd : decode w with
    | ok i => exact ⟨i, rfl⟩
    | error r =>
      unfold decode at hd
      split at hd <;> cases hd
      simp_all
  · rintro ⟨i, hd⟩
    rw [← opcode_of_decode hd]
    cases i <;> simp [Instr.opcode]

/-- R79: the opcodes of the commands refused while running. -/
theorem stoppedOnlyOf_iff_opcode (i : Instr) :
    stoppedOnlyOf i = true ↔ i.opcode.toNat ∈ [0x10, 0x11, 0x14, 0x20] := by
  cases i <;> simp [stoppedOnlyOf, Instr.opcode]

/-- R191: a command that uses `IDX` has one operand to check. -/
theorem exists_operand_iff {i : Instr} {sp : Space} {k : Nat} (ho : operandOf i = some (sp, k)) :
    (∃ sp' k', operandOf i = some (sp', k') ∧ sp'.size ≤ k') ↔ sp.size ≤ k := by
  constructor
  · rintro ⟨sp', k', ho', hk⟩
    obtain ⟨rfl, rfl⟩ : sp = sp' ∧ k = k' := by simpa only [ho, Option.some.injEq, Prod.mk.injEq] using ho'
    exact hk
  · exact fun hk => ⟨sp, k, ho, hk⟩

/-- R50, R191: the opcodes of the commands whose index is at or above the size of its space. -/
theorem size_le_index_iff {w : Word} {i : Instr} (h : i.operandsIn w) :
    (∃ sp k, operandOf i = some (sp, k) ∧ sp.size ≤ k) ↔
      (i.opcode.toNat ∈ [0x10, 0x11, 0x12, 0x13, 0x15, 0x16, 0x20] ∧ 64 ≤ idxField w)
      ∨ (i.opcode.toNat = 0x21 ∧ 8 ≤ idxField w) := by
  cases i with
  | nop | stop | start | rdStatus | apply | clrStatus mask | clrDiag mask => simp [operandOf, Instr.opcode]
  | wrGlowcode idx code | wrBrightcode idx code =>
    obtain ⟨rfl, -⟩ := h
    rw [exists_operand_iff rfl]
    simp [Space.size, Instr.opcode]
  | rdGlowcode idx | rdBrightcode idx | rdStep idx | rdMaxsub idx | rdLamp idx | rdDiag idx =>
    obtain rfl := h
    rw [exists_operand_iff rfl]
    simp [Space.size, Instr.opcode]

/-- R190: a word that is a command is executed as it. -/
theorem execWord_of_ok {w : Word} {i : Instr} (h : decode w = .ok i) (s : State) : execWord w s = exec i s := by
  simp only [execWord, h]

/-- Settles O16: a word is rejected by its opcode alone, and a command by its own checks in their order. -/
theorem checksGoIllegalThenBusyThenRange : Obligations.ChecksGoIllegalThenBusyThenRange := by
  rintro w s opc idx (hopc : opc = (opcField w).toNat) (hidx : idx = idxField w)
  subst hopc hidx
  cases hd : decode w with
  | error r =>
    refine ⟨_, execWord_of_error hd s, ?_⟩
    rw [if_pos (mt (opcode_mem_map_iff w).1 (by simp [hd]))]
    exact illegalRefused_refuse s
  | ok i =>
    obtain ⟨t, ht, hchecks⟩ := exec_checks i s
    refine ⟨t, (execWord_of_ok hd s).trans ht, ?_⟩
    rw [stoppedOnlyOf_iff_opcode, size_le_index_iff (operandsIn_of_decode hd), opcode_of_decode hd] at hchecks
    rw [if_neg fun hout => hout ((opcode_mem_map_iff w).2 ⟨i, hd⟩)]
    rcases hchecks with ⟨hbusy, h⟩ | ⟨hbusy, ⟨hrange, h⟩ | ⟨hrange, h⟩⟩
    · rwa [if_pos hbusy]
    · rwa [if_neg hbusy, if_pos hrange]
    · rwa [if_neg hbusy, if_neg hrange]

/-! ### NOP, STOP and START -/

/-- Settles O5: NOP passes its checks in every state and has no effect. -/
theorem nopChangesNothingElse : Obligations.NopChangesNothingElse :=
  ⟨fun _ h => decode_of_fields h trivial, fun s => ⟨_, exec_plain rfl rfl, answered_respond (sameExcept_refl s _)⟩⟩

/-- R170, R193: a stopped block has nothing for STOP to change. -/
theorem stopEffect_stopped {s : State} (hr : s.run = false) (hs : s.Consistent) (ht : s.InTime) :
    stopEffect s = s := by
  obtain ⟨hblank, hen, hpending⟩ := hs.stopped hr
  obtain ⟨htimer, hwdt⟩ := ht.stopped hr
  have hout : { s.out with soOeN := true } = s.out := by rw [← hblank]
  have htrace : oeChange s.out.soOeN true = [] := if_pos hblank
  rw [stopEffect_eq, hout, htrace]
  cases s
  simp_all

/-- Settles O6: what STOP writes, its frame, and that it writes nothing new in a stopped block. -/
theorem stopStopsTheScheduler : Obligations.StopStopsTheScheduler := by
  refine ⟨fun _ h => decode_of_fields h trivial, fun s => ⟨_, exec_plain rfl rfl, rfl, rfl, rfl, rfl, rfl, rfl, rfl,
    answered_respond (stopEffect_frame s), fun hr hs ht => ?_⟩⟩
  rw [effectOf, stopEffect_stopped hr hs ht]
  exact answered_respond (sameExcept_refl s _)

/-- `elapse` takes its last cycle apart as well as its first. -/
theorem elapse_succ_last (n : Nat) (s : State) : elapse (n + 1) s = clockCycle (elapse n s) := by
  induction n generalizing s with
  | zero => rfl
  | succ n ih => exact ih (clockCycle s)

/-- R171: a timer that starts at 0, with no tick pending, running or drawn, expires after exactly one period. -/
theorem elapse_first_tick {s : State} {period : Nat} (hpos : 0 < period) (hperiod : period = tickPeriod s.cfg s.tmode)
    (hr : s.run = true) (ht : s.timer = 0) (hp : s.tickPending = false) (hi : s.phase = .idle)
    (hnow : s.pins.tickNow = false) :
    (∀ n, n < period → (elapse n s).tickPending = false) ∧ (elapse period s).tickPending = true := by
  have hbefore : ∀ n, n < period → (elapse n s).timer = n ∧ (elapse n s).tickPending = false := fun n hn => by
    obtain ⟨htimer, hpending, -⟩ := elapse_before_expiry n hr (by omega) (.inl hnow)
    exact ⟨by omega, hpending.trans hp⟩
  refine ⟨fun n hn => (hbefore n hn).2, ?_⟩
  obtain ⟨n, rfl⟩ := Nat.exists_eq_add_one.2 hpos
  obtain ⟨htimer, hpending⟩ := hbefore n (Nat.lt_succ_self n)
  have hexpires : tickPeriod (elapse n s).cfg (elapse n s).tmode ≤ (elapse n s).timer + 1 := by
    rw [elapse_cfg, elapse_tmode, htimer]
    exact Nat.le_of_eq hperiod.symm
  rw [elapse_succ_last, clockCycle_expires ((elapse_run n s).trans hr) (.inl hexpires) hpending
    ((elapse_phase n s).trans hi)]

/-- Settles O7: START of a stopped block leaves the timer at 0, so its first tick is a period away. -/
theorem startRunsTheScheduler : Obligations.StartRunsTheScheduler := by
  refine ⟨fun _ h => decode_of_fields h trivial, fun s => ⟨_, exec_plain rfl rfl, fun hr => ?_, fun hr => ?_⟩⟩
  · rw [effectOf, startEffect_running hr]
    exact answered_respond (sameExcept_refl s _)
  · have hanswer := answered_respond (v := 0) (startEffect_frame s)
    rw [effectOf, startEffect_stopped hr] at *
    refine ⟨rfl, rfl, rfl, rfl, rfl, rfl, fun hd i hi => ?_, fun hd => ?_, hanswer,
      fun hc hi hnow =>
        elapse_first_tick (Nat.zero_lt_of_lt (tickPeriod_gt hc s.tmode)) rfl rfl rfl rfl hi hnow⟩
    · simp [hd, hi]
    · simp [hd]

/-! ### STATUS -/

/-- R38: the bits of the `STATUS` word. -/
theorem status_bits (s : State) :
    s.status.getLsbD 0 = s.run
    ∧ s.status.getLsbD 1 = s.tmode
    ∧ s.status.getLsbD 2 = s.agSync
    ∧ s.status.getLsbD 3 = s.testSync
    ∧ s.status.getLsbD 4 = s.cfgDirty
    ∧ s.status.getLsbD 5 = !s.out.soOeN
    ∧ s.status.getLsbD 6 = s.rstWdt
    ∧ s.status.getLsbD 7 = false
    ∧ s.status.getLsbD 8 = s.errOverrun
    ∧ s.status.getLsbD 9 = s.errBusy
    ∧ s.status.getLsbD 10 = s.errIllegal
    ∧ s.status.getLsbD 11 = s.errRange := by
  simp only [State.status, BitVec.getLsbD_append]
  simp

theorem status_lastEc (s : State) : s.status.extractLsb' 12 4 = s.lastEc.code := by
  apply BitVec.eq_of_getLsbD_eq
  intro k hk
  simp only [State.status, BitVec.getLsbD_extractLsb', BitVec.getLsbD_append]
  simp [hk]

/-- Settles O8: the answer is the `STATUS` word. -/
theorem readStatusReturnsEachField : Obligations.ReadStatusReturnsEachField := by
  refine ⟨⟨rfl, rfl, rfl, rfl, rfl, rfl, rfl⟩, fun _ h => decode_of_fields h trivial, fun s => ?_⟩
  obtain ⟨h0, h1, h2, h3, h4, h5, h6, h7, h8, h9, h10, h11⟩ := status_bits s
  exact ⟨_, exec_plain rfl rfl, h0, h1, h2, h3, h4, h5, h6, h7, h8, h9, h10, h11, status_lastEc s,
    answered_respond (sameExcept_refl s _)⟩

/-- A bit cleared by a mask bit. -/
theorem and_not_eq_ite (a m : Bool) : (a && !m) = if m = true then false else a := by
  cases m <;> simp

/-- Settles O9: bit by bit, with the frame of CLR_STATUS. -/
theorem clearStatusClearsByMask : Obligations.ClearStatusClearsByMask :=
  ⟨fun _ h => decode_of_fields h rfl, fun s mask => ⟨_, exec_plain rfl rfl, and_not_eq_ite _ _, and_not_eq_ite _ _,
    and_not_eq_ite _ _, and_not_eq_ite _ _, and_not_eq_ite _ _, rfl, answered_respond (clearStatus_frame mask s)⟩⟩

/-! ### Codes and tables -/

/-- Settles O10: each write by what its checks say, and its element by the laws of tables. -/
theorem codeWritesStoreOneCode : Obligations.CodeWritesStoreOneCode := by
  refine ⟨fun _ => ⟨(decode_of_fields · ⟨rfl, rfl⟩), (decode_of_fields · ⟨rfl, rfl⟩)⟩, fun s idx code =>
    ⟨fun hr => ⟨exec_busyRefused rfl hr, exec_busyRefused rfl hr⟩, fun hr hk =>
      ⟨exec_rangeRefused hr rfl hk, exec_rangeRefused hr rfl hk⟩, fun hr hk => ⟨?_, ?_⟩⟩⟩
  · exact ⟨_, exec_indexed hr rfl hk, readTable_writeTable_self _ code hk,
      fun j hj => readTable_writeTable_ne _ code hj, rfl, answered_respond (writeGlowCode_frame idx code s)⟩
  · exact ⟨_, exec_indexed hr rfl hk, readTable_writeTable_self _ code hk,
      fun j hj => readTable_writeTable_ne _ code hj, rfl, answered_respond (writeBrightCode_frame idx code s)⟩

/-- Settles O11: the four are commands without an effect, allowed in every run state. -/
theorem readsReturnCodesAndTables : Obligations.ReadsReturnCodesAndTables :=
  ⟨fun _ => ⟨(decode_of_fields · rfl), (decode_of_fields · rfl), (decode_of_fields · rfl), (decode_of_fields · rfl)⟩,
    fun _ _ => ⟨fun hk => ⟨exec_reads rfl rfl hk rfl, exec_reads rfl rfl hk rfl, exec_reads rfl rfl hk rfl,
      exec_reads rfl rfl hk rfl⟩, fun hk => ⟨exec_rangeRefused rfl rfl hk, exec_rangeRefused rfl rfl hk,
      exec_rangeRefused rfl rfl hk, exec_rangeRefused rfl rfl hk⟩⟩⟩

/-- Settles O12: DERIVE makes each element of the two tables. -/
theorem applyDerivesTheTables : Obligations.ApplyDerivesTheTables :=
  ⟨fun _ h => decode_of_fields h trivial, fun s => ⟨exec_busyRefused rfl, fun hr =>
    ⟨_, exec_ok hr (fun _ _ h => by cases h),
      fun _ hi => ⟨readTable_deriveStep _ _ _ hi, readTable_deriveMaxsub _ _ _ hi⟩, rfl,
      answered_respond (derive_frame s)⟩⟩⟩

/-- R55, R197 to R200: a code written reads back zero-extended. -/
theorem setWidth_readTable_writeTable (t : Table 8) {idx : Nat} (code : Byte) (hk : idx < 64) :
    ((readTable (writeTable t idx code) idx).setWidth 16).toNat = code.toNat := by
  rw [readTable_writeTable_self t code hk, BitVec.toNat_setWidth_of_le (by decide)]

/-- Settles O18: the code read is the element written, zero-extended. -/
theorem writtenCodesReadBack : Obligations.WrittenCodesReadBack := by
  intro s idx code hr hk
  exact ⟨⟨_, _, exec_indexed hr rfl hk, exec_indexed rfl rfl hk, setWidth_readTable_writeTable _ code hk, rfl⟩,
    ⟨_, _, exec_indexed hr rfl hk, exec_indexed rfl rfl hk, setWidth_readTable_writeTable _ code hk, rfl⟩⟩

/-! ### Diagnostics -/

/-- Settles O13: the check of the run state comes before that of the index. -/
theorem readLampOnlyWhileStopped : Obligations.ReadLampOnlyWhileStopped :=
  ⟨fun _ h => decode_of_fields h rfl, fun _ _ => ⟨exec_busyRefused rfl, fun hr hk => exec_rangeRefused hr rfl hk,
    fun hr hk => exec_reads hr rfl hk rfl⟩⟩

/-- R205: view 4 holds the consistency counter above the last accepted mask. -/
theorem diagView_four (s : State) :
    (s.diagView 4).extractLsb' 8 8 = s.cons ∧ (s.diagView 4).extractLsb' 0 8 = s.lastAcc :=
  ⟨BitVec.extractLsb'_append_eq_left, BitVec.extractLsb'_append_eq_right⟩

/-- R205: view 5 holds the sub-cycle index above the tick's column. -/
theorem diagView_five (s : State) : (s.diagView 5).extractLsb' 8 8 = s.subIdx
    ∧ ((s.diagView 5).extractLsb' 0 8).toNat = s.tickCol.toNat := by
  have hcol : (s.diagView 5).extractLsb' 0 8 = s.tickCol.setWidth 8 := BitVec.extractLsb'_append_eq_right
  exact ⟨BitVec.extractLsb'_append_eq_left, by rw [hcol, BitVec.toNat_setWidth_of_le (by decide)]⟩

/-- R34, R205: view 7 holds the code of `VSTATE`. -/
theorem diagView_seven_toNat (s : State) : (s.diagView 7).toNat =
    if onehot8 (s.rawPrev.extractLsb' 8 8) = true ∧ s.rawPrev.extractLsb' 8 8 = s.lastAcc then 2
    else if s.cons = 0 then 0 else 1 := by
  simp only [State.diagView, State.vstate, Bool.and_eq_true, beq_iff_eq]
  split
  · rfl
  · split <;> rfl

/-- Settles O14: the packed views 4, 5 and 7 by their fields, the others as their registers. -/
theorem readDiagReturnsEachView : Obligations.ReadDiagReturnsEachView := by
  refine ⟨fun _ h => decode_of_fields h rfl, fun s => ?_⟩
  have hview : ∀ idx, idx < 8 → exec (.rdDiag idx) s = .next (respond .ok (s.diagView idx) s)
      ∧ s.answered (respond .ok (s.diagView idx) s) (s.diagView idx) [] := fun idx hk =>
    ⟨exec_indexed (sp := .diag) rfl rfl hk, answered_respond (sameExcept_refl s [])⟩
  obtain ⟨h4, ha4⟩ := hview 4 (by decide)
  obtain ⟨h5, ha5⟩ := hview 5 (by decide)
  obtain ⟨h7, ha7⟩ := hview 7 (by decide)
  exact ⟨⟨_, hview 0 (by decide)⟩, ⟨_, hview 1 (by decide)⟩, ⟨_, hview 2 (by decide)⟩, ⟨_, hview 3 (by decide)⟩,
    ⟨_, h4, ha4, diagView_four s⟩, ⟨_, h5, ha5, diagView_five s⟩, ⟨_, hview 6 (by decide)⟩,
    ⟨_, h7, ha7, diagView_seven_toNat s⟩, fun _ hk => exec_rangeRefused rfl rfl hk⟩

/-- Settles O15: counter by counter, with the frame of CLR_DIAG. -/
theorem clearDiagClearsByMask : Obligations.ClearDiagClearsByMask :=
  ⟨fun _ h => decode_of_fields h rfl, fun s mask => ⟨_, exec_plain rfl rfl, by simp [effectOf, clearDiag], rfl,
    by simp [effectOf, clearDiag], answered_respond (clearDiag_frame mask s)⟩⟩

/-! ### The step that takes a command word -/

/-- Settles O50: the step of a taken command, the two kinds of word, and the frame of the command's cycles. -/
theorem stepRunsTheDecodedCommand : Obligations.StepRunsTheDecodedCommand := fun s hc hev hdue =>
  ⟨step_of_nextEvent_hostCmd hc hev hdue, fun _ hd => execWord_of_ok hd _,
    fun _ hd => ⟨_, execWord_of_error hd _, illegalRefused_refuse _⟩, elapse_pins _ _,
    sameExcept_mono (commandState_frame s) (by decide)⟩

/-- R43: the watchdog counts the cycles of a command while it is enabled. -/
theorem commandState_wdtCnt (s : State) :
    (commandState s).wdtCnt = if s.wdtEn = true then s.wdtCnt + cmdTime s else s.wdtCnt :=
  elapse_wdtCnt (cmdTime s) (takeCommand s)

/-- R8, R43: the watchdog of a presented word is not due, nor will it be after the cycles of the word. -/
theorem presentWord_wdtCnt_lt {s : State} (w : Word) (hc : configValid s.cfg = true) (hen : s.wdtEn = s.run)
    (h : s.wdtEn = true) : (presentWord w s).wdtCnt + cmdTime s < s.cfg.wdtCycles := by
  have hcmd := cmdTime_le (hen.symm.trans h)
  have hwdt := wdtCycles_gt hc s.tmode
  simp only [presentWord, h, Bool.true_and, decide_eq_true_eq]
  split <;> omega

/-- R45, R227: a presented word is the next command. -/
theorem presentWord_nextEvent {s : State} (w : Word) (hc : configValid s.cfg = true) (hen : s.wdtEn = s.run) :
    (presentWord w s).nextEvent = .hostCmd := by
  have hx : ¬ (presentWord w s).expires := by
    rintro ⟨h, hdue | hfault⟩
    · have hlt := presentWord_wdtCnt_lt w hc hen h
      replace hdue : s.cfg.wdtCycles ≤ (presentWord w s).wdtCnt := hdue
      omega
    · cases hfault
  exact (nextEvent_of_ready rfl rfl hx rfl rfl (.inl rfl)).trans (if_pos rfl)

/-- R8, R190: the watchdog does not expire in the cycles of a presented word. -/
theorem presentWord_wdtDue {s : State} (w : Word) (hc : configValid s.cfg = true) (hen : s.wdtEn = s.run) :
    wdtDue (commandState (presentWord w s)) = false := by
  refine Bool.eq_false_iff.2 fun hdue => ?_
  obtain ⟨hon, hle⟩ : (commandState (presentWord w s)).wdtEn = true
      ∧ (commandState (presentWord w s)).cfg.wdtCycles ≤ (commandState (presentWord w s)).wdtCnt := by
    simpa [wdtDue] using hdue
  replace hon : s.wdtEn = true := (commandState_frame (presentWord w s) .wdtEn (by decide)).symm.trans hon
  replace hle : s.cfg.wdtCycles ≤ (presentWord w s).wdtCnt + cmdTime s := by
    rwa [commandState_cfg, commandState_wdtCnt, if_pos (show (presentWord w s).wdtEn = true from hon)] at hle
  exact absurd hle (Nat.not_le_of_lt (presentWord_wdtCnt_lt w hc hen hon))

/-- Settles O51: nothing goes before the presented word, and it runs to its end. -/
theorem fetchWordIsRunNext : Obligations.FetchWordIsRunNext := by
  intro s w i hc hen hw hd
  have hword : BitVec.ofNat 32 (w % 2 ^ 32) = BitVec.ofNat 32 w := by rw [Nat.mod_eq_of_lt hw]
  have hfetch : s.withFetchWord 32 w = presentWord (BitVec.ofNat 32 w) s := by rw [State.withFetchWord, hword]
  obtain ⟨t, ht, hstep⟩ := step_of_nextEvent_hostCmd (s := presentWord (BitVec.ofNat 32 w) s) hc
    (presentWord_nextEvent _ hc hen) (presentWord_wdtDue _ hc hen)
  rw [hfetch]
  exact ⟨t, (execWord_of_ok hd _).symm.trans ht, hstep⟩

end Sys2Proof.Machine
end

section
/-! SUPPORT. Proofs about `spec/46_external_interfaces.md`: the host's command sequences BOOT (R212) and LIVE_WRITE
(R214), and that a record gives the same tables either way (R217). -/

namespace Sys2Proof.Machine

/-! ### Running a sequence of commands -/

theorem execAll_cons {i : Instr} {s t : State} (h : exec i s = .next t) (is : List Instr) :
    execAll (i :: is) s = execAll is t := by
  simp only [execAll, h]

theorem execAll_append {is : List Instr} {s t : State} (h : execAll is s = .next t) (js : List Instr) :
    execAll (is ++ js) s = execAll js t := by
  induction is generalizing s with
  | nil => cases h; rfl
  | cons i is ih =>
    obtain ⟨u, hu⟩ := exec_total i s
    rw [execAll_cons hu] at h
    rw [List.cons_append, execAll_cons hu, ih h]

/-- R212, R214: a live write is the boot sequence after a STOP. -/
theorem liveWriteCommands_eq (record : Option CodeGrids) :
    liveWriteCommands record = .stop :: bootCommands record := by
  cases record <;> rfl

/-! ### A rejected update -/

/-- R193, R194: STOP then START of a running block with clean tables, and what of their frames comes back. -/
theorem restart_frame {s : State} (hr : s.run = true) (hclean : s.cfgDirty = false) (hen : s.wdtEn = true) :
    s.sameExcept (startEffect (respond .ok 0 (stopEffect s)))
      [.rsp, .res, .timer, .tickPending, .wdtCnt, .soOeN, .trace] := by
  have hall : s.sameExcept (startEffect (respond .ok 0 (stopEffect s)))
      (.run :: .wdtEn :: .cfgDirty :: .stepTab :: .maxsubTab ::
        [.rsp, .res, .timer, .tickPending, .wdtCnt, .soOeN, .trace]) :=
    sameExcept_trans (sameExcept_mono (answered_respond (stopEffect_frame s)).2.2 (by decide))
      (sameExcept_mono (startEffect_frame _) (by decide))
  have hdirty : (respond .ok 0 (stopEffect s)).cfgDirty = false := hclean
  rw [startEffect_stopped rfl, hdirty] at hall ⊢
  exact sameExcept_of_cons (sameExcept_of_cons (sameExcept_of_cons (sameExcept_of_cons (sameExcept_of_cons hall
    hr.symm) hen.symm) hclean.symm) rfl) rfl

/-- Settles O59: with no code written the tables are clean at the START, which so derives nothing. -/
theorem rejectedUpdateChangesNoConfiguration : Obligations.RejectedUpdateChangesNoConfiguration := by
  intro s hr hs
  obtain ⟨hclean, hen⟩ := hs.running hr
  have hframe := restart_frame hr hclean hen
  have hexec : execAll (liveWriteCommands none) s
      = .next (respond .ok 0 (startEffect (respond .ok 0 (stopEffect s)))) :=
    (execAll_cons (exec_plain rfl rfl) _).trans (execAll_cons (exec_plain rfl rfl) _)
  exact ⟨_, hexec, startEffect_run _, sameExcept_trans hframe (sameExcept_mono (respond_frame _ _ _) (by decide))⟩

/-! ### The code writes of a record -/

/-- R212, R214: the two code writes of lamp `i`. -/
def lampWrites (g : CodeGrids) (i : Nat) : List Instr :=
  [.wrGlowcode i (readTable g.glow i), .wrBrightcode i (readTable g.bright i)]

theorem writeGrids_eq (g : CodeGrids) : writeGrids g = (List.range 64).flatMap (lampWrites g) := rfl

/-- From `s` to `t` the codes of the lamps below `n` were written as the record `g` has them. -/
structure State.Writes (s t : State) (g : CodeGrids) (n : Nat) : Prop where
  frame : s.sameExcept t [.glowCode, .brightCode, .cfgDirty, .rsp, .res]
  glow : ∀ i, i < n → readTable t.glowCode i = readTable g.glow i
  bright : ∀ i, i < n → readTable t.brightCode i = readTable g.bright i
  dirty : 0 < n → t.cfgDirty = true

/-- A table that agrees with another below `n` and takes its element `n` agrees below `n + 1`. -/
theorem readTable_writeTable_of_agree {w n : Nat} {t u : Table w} (h : ∀ i, i < n → readTable t i = readTable u i)
    (hn : n < 64) (i : Nat) (hi : i < n + 1) : readTable (writeTable t n (readTable u n)) i = readTable u i := by
  rcases Nat.lt_succ_iff_lt_or_eq.1 hi with hlt | rfl
  · exact (readTable_writeTable_ne t _ hlt.ne).trans (h i hlt)
  · exact readTable_writeTable_self t _ hn

/-- R197, R198: the two writes of one lamp are accepted, and add its codes to those of the lamps before it. -/
theorem State.Writes.lamp {s t : State} {g : CodeGrids} {n : Nat} (h : s.Writes t g n) (hr : t.run = false)
    (hn : n < 64) : ∃ u, execAll (lampWrites g n) t = .next u ∧ s.Writes u g (n + 1) := by
  have hglow : exec (.wrGlowcode n (readTable g.glow n)) t
      = .next (respond .ok 0 (writeGlowCode n (readTable g.glow n) t)) := exec_indexed hr rfl hn
  have hbright := exec_indexed (i := .wrBrightcode n (readTable g.bright n))
    (s := respond .ok 0 (writeGlowCode n (readTable g.glow n) t)) hr rfl hn
  exact ⟨_, (execAll_cons hglow _).trans (execAll_cons hbright _),
    { frame := sameExcept_trans h.frame <|
        sameExcept_trans (sameExcept_mono (answered_respond (writeGlowCode_frame n _ t)).2.2 (by decide))
          (sameExcept_mono (answered_respond (writeBrightCode_frame n _ _)).2.2 (by decide))
      glow := readTable_writeTable_of_agree h.glow hn
      bright := readTable_writeTable_of_agree h.bright hn
      dirty := fun _ => rfl }⟩

/-- Lamp after lamp, a stopped block takes the codes of the record. -/
theorem execAll_lampWrites (g : CodeGrids) {s : State} (hr : s.run = false) (n : Nat) (hn : n ≤ 64) :
    ∃ t, execAll ((List.range n).flatMap (lampWrites g)) s = .next t ∧ s.Writes t g n := by
  induction n with
  | zero => exact ⟨s, rfl, sameExcept_refl s _, nofun, nofun, nofun⟩
  | succ n ih =>
    obtain ⟨t, hexec, ht⟩ := ih (by omega)
    obtain ⟨u, hlamp, hu⟩ := ht.lamp ((ht.frame .run (by decide)).trans hr) hn
    refine ⟨u, ?_, hu⟩
    rw [List.range_succ, List.flatMap_append, execAll_append hexec, List.flatMap_singleton, hlamp]

/-! ### A record live and at boot -/

/-- The block runs with the codes of the record `g` and the tables DERIVE makes of them (R217). -/
structure State.RunsRecord (t : State) (c : Config) (tmode : Bool) (g : CodeGrids) : Prop where
  run : t.run = true
  clean : t.cfgDirty = false
  glow : t.glowCode = g.glow
  bright : t.brightCode = g.bright
  step : t.stepTab = deriveStep c tmode g.glow
  maxsub : t.maxsubTab = deriveMaxsub c tmode g.bright

/-- R194, R212: the writes leave the tables unclean, and the START derives them. -/
theorem execAll_bootCommands (g : CodeGrids) {s : State} (hr : s.run = false) :
    ∃ t, execAll (bootCommands (some g)) s = .next t ∧ t.RunsRecord s.cfg s.tmode g := by
  obtain ⟨t, hexec, ht⟩ := execAll_lampWrites g hr 64 le_rfl
  rw [← writeGrids_eq] at hexec
  have hstopped : t.run = false := (ht.frame .run (by decide)).trans hr
  have hcfg : t.cfg = s.cfg := ht.frame .cfg (by decide)
  have htmode : t.tmode = s.tmode := ht.frame .tmode (by decide)
  have hglow : t.glowCode = g.glow := table_ext ht.glow
  have hbright : t.brightCode = g.bright := table_ext ht.bright
  refine ⟨respond .ok 0 (startEffect t), (execAll_append hexec _).trans (execAll_cons (exec_plain rfl rfl) _), ?_⟩
  rw [startEffect_stopped hstopped, ht.dirty (by decide), hcfg, htmode, hglow, hbright]
  exact ⟨rfl, rfl, rfl, rfl, rfl, rfl⟩

/-- R193, R214: the STOP of a live write leaves a stopped block of the same timing mode. -/
theorem execAll_liveWriteCommands (g : CodeGrids) (s : State) :
    ∃ t, execAll (liveWriteCommands (some g)) s = .next t ∧ t.RunsRecord s.cfg s.tmode g := by
  rw [liveWriteCommands_eq, execAll_cons (exec_plain rfl rfl)]
  exact execAll_bootCommands g rfl

/-- R55, R199: RD_GLOWCODE answers the code in any run state. -/
theorem exec_rdGlowcode_toNat (t : State) {i : Nat} (hi : i < 64) :
    ∃ v, exec (.rdGlowcode i) t = .next v ∧ v.rsp.toNat = (readTable t.glowCode i).toNat :=
  ⟨_, exec_indexed rfl rfl hi, BitVec.toNat_setWidth_of_le (by decide)⟩

/-- R55, R200: RD_BRIGHTCODE answers the code in any run state. -/
theorem exec_rdBrightcode_toNat (t : State) {i : Nat} (hi : i < 64) :
    ∃ v, exec (.rdBrightcode i) t = .next v ∧ v.rsp.toNat = (readTable t.brightCode i).toNat :=
  ⟨_, exec_indexed rfl rfl hi, BitVec.toNat_setWidth_of_le (by decide)⟩

/-- Settles O60: both sequences end in a block that runs the record, in the same timing mode. -/
theorem liveWriteAndBootAgree : Obligations.LiveWriteAndBootAgree := by
  intro s g cause pins hstrap
  obtain ⟨t, hlive, ht⟩ := execAll_liveWriteCommands g s
  obtain ⟨u, hboot, hu⟩ := execAll_bootCommands g (s := State.afterReset s.cfg cause pins) rfl
  replace hu : u.RunsRecord s.cfg s.tmode g := hstrap ▸ hu
  refine ⟨t, u, hlive, hboot, ht.glow, ht.bright, hu.glow, hu.bright, ht.step.trans hu.step.symm,
    ht.maxsub.trans hu.maxsub.symm, ht.step, ht.maxsub, fun i hi => ?_, ht.run, hu.run, ht.clean, hu.clean⟩
  rw [← ht.glow, ← ht.bright]
  exact ⟨exec_rdGlowcode_toNat t hi, exec_rdBrightcode_toNat t hi⟩

end Sys2Proof.Machine
end

section
/-! SUPPORT. Proofs about `spec/60_exceptions.md` and `spec/70_reset_and_hazards.md`: what `raise Error` records and
what clears a sticky bit (R221), and the block while `RESET_N` is low (R240, R242). -/

namespace Sys2Proof.Machine

/-! ### What `raise Error` records -/

/-- R221: what an error of a cause writes; the causes without a sticky bit write nothing. -/
def recordFields : Cause → List Field
  | .overrun => [.errOverrun, .lastEc]
  | .busy => [.errBusy, .lastEc]
  | .illegal => [.errIllegal, .lastEc]
  | .range => [.errRange, .lastEc]
  | .none | .framing | .wdt => []

/-- The frame of `raise Error`. -/
theorem raiseError_frame (ec : Cause) (s : State) : s.sameExcept (raiseError ec s) (recordFields ec) := by
  intro f hf
  cases ec <;> cases f <;> first | rfl | exact absurd (by decide) hf

/-! ### Sticky bits -/

/-- R196, R221: from `s` to `t` every sticky bit that is 1 stays 1, but for those CLR_STATUS's `mask` names. -/
def State.keepsSticky (s t : State) (mask : Frame) : Prop :=
  (s.errOverrun = true → mask.getLsbD 8 = false → t.errOverrun = true)
  ∧ (s.errBusy = true → mask.getLsbD 9 = false → t.errBusy = true)
  ∧ (s.errIllegal = true → mask.getLsbD 10 = false → t.errIllegal = true)
  ∧ (s.errRange = true → mask.getLsbD 11 = false → t.errRange = true)

theorem keepsSticky_refl (s : State) (mask : Frame) : s.keepsSticky s mask :=
  ⟨fun h _ => h, fun h _ => h, fun h _ => h, fun h _ => h⟩

theorem keepsSticky_trans {s t u : State} {mask : Frame} (h : s.keepsSticky t mask) (h' : t.keepsSticky u mask) :
    s.keepsSticky u mask := by
  obtain ⟨ho, hb, hi, hr⟩ := h
  obtain ⟨ho', hb', hi', hr'⟩ := h'
  exact ⟨fun hs hm => ho' (ho hs hm) hm, fun hs hm => hb' (hb hs hm) hm, fun hs hm => hi' (hi hs hm) hm,
    fun hs hm => hr' (hr hs hm) hm⟩

/-- The four sticky bits of R38. -/
def stickyFields : List Field := [.errOverrun, .errBusy, .errIllegal, .errRange]

/-- What writes no sticky bit keeps them all. -/
theorem keepsSticky_of_sameExcept {s t : State} {mask : Frame} {l : List Field} (h : s.sameExcept t l)
    (hl : ∀ f ∈ stickyFields, f ∉ l) : s.keepsSticky t mask :=
  ⟨fun hs _ => (h .errOverrun (hl _ (by decide))).trans hs, fun hs _ => (h .errBusy (hl _ (by decide))).trans hs,
    fun hs _ => (h .errIllegal (hl _ (by decide))).trans hs, fun hs _ => (h .errRange (hl _ (by decide))).trans hs⟩

/-- R221: raising an error sets a sticky bit, and clears none. -/
theorem raiseError_keepsSticky (ec : Cause) (s : State) (mask : Frame) : s.keepsSticky (raiseError ec s) mask := by
  cases ec with
  | overrun => exact ⟨fun _ _ => rfl, fun h _ => h, fun h _ => h, fun h _ => h⟩
  | busy => exact ⟨fun h _ => h, fun _ _ => rfl, fun h _ => h, fun h _ => h⟩
  | illegal => exact ⟨fun h _ => h, fun h _ => h, fun _ _ => rfl, fun h _ => h⟩
  | range => exact ⟨fun h _ => h, fun h _ => h, fun h _ => h, fun _ _ => rfl⟩
  | none | framing | wdt => exact keepsSticky_refl s mask

/-! ### The cycles an event takes -/

/-- R172: a clock cycle writes no sticky bit but that of a missed deadline, which it sets. -/
theorem clockCycle_keepsSticky (s : State) (mask : Frame) : s.keepsSticky (clockCycle s) mask := by
  rcases clockCycle_cases s with h | h | h | h <;> rw [h]
  case inr.inr.inr => exact ⟨fun _ _ => rfl, fun h _ => h, fun h _ => h, fun h _ => h⟩
  all_goals exact keepsSticky_refl s mask

theorem elapse_keepsSticky (n : Nat) (s : State) (mask : Frame) : s.keepsSticky (elapse n s) mask := by
  induction n generalizing s with
  | zero => exact keepsSticky_refl s mask
  | succ n ih => exact keepsSticky_trans (clockCycle_keepsSticky s mask) (ih (clockCycle s))

theorem commandState_keepsSticky (s : State) (mask : Frame) : s.keepsSticky (commandState s) mask :=
  elapse_keepsSticky (cmdTime s) (takeCommand s) mask

theorem tickTimed_keepsSticky (s : State) (mask : Frame) : s.keepsSticky (tickTimed s) mask :=
  keepsSticky_trans (keepsSticky_of_sameExcept (tickPhases_frame s) (by decide))
    (elapse_keepsSticky (tickTime s) ((tickPhases s).enter .checkin) mask)

/-- A tick keeps the sticky bits, or the watchdog expires in it. -/
theorem tick_keepsSticky (s : State) (mask : Frame) : s.keepsSticky (tick s) mask ∨ s.addsWdtReset (tick s) := by
  rw [tick_eq]
  split
  · obtain ⟨new, h⟩ := tickTimed_adds s
    exact .inr (wdtExpire_addsWdtReset h)
  · exact .inl (tickTimed_keepsSticky s mask)

/-! ### Commands -/

/-- R196: CLR_STATUS clears the sticky bits its mask names, and no other. -/
theorem clearStatus_keepsSticky (mask : Frame) (s : State) : s.keepsSticky (clearStatus mask s) mask := by
  simp +contextual [State.keepsSticky, clearStatus]

/-- No other command's effect writes a sticky bit. -/
theorem effectOf_keepsSticky {i : Instr} (hclr : ∀ m, i ≠ .clrStatus m) (s : State) (mask : Frame) :
    s.keepsSticky (effectOf i s) mask := by
  cases i with
  | clrStatus m => exact absurd rfl (hclr m)
  | start => exact keepsSticky_of_sameExcept (startEffect_frame s) (by decide)
  | _ => exact keepsSticky_refl s mask

/-- R196, R221: a word that is no CLR_STATUS clears no sticky bit. -/
theorem execWord_keepsSticky {w : Word} {s t : State} (h : execWord w s = .next t) :
    (∃ mask, decode w = .ok (.clrStatus mask) ∧ s.keepsSticky t mask) ∨ s.keepsSticky t 0 := by
  rcases execWord_answers h with ⟨r, rfl⟩ | ⟨i, v, hi, -, rfl⟩
  · exact .inr (raiseError_keepsSticky r.cause s 0)
  by_cases hclr : ∃ m, i = .clrStatus m
  · obtain ⟨m, rfl⟩ := hclr
    exact .inl ⟨m, hi, clearStatus_keepsSticky m s⟩
  · exact .inr (effectOf_keepsSticky (not_exists.1 hclr) s 0)

/-! ### Every step -/

/-- R221: everything that can clear a sticky bit. -/
theorem steps_keepsSticky {s u : State} (h : Steps s u) :
    s.nextEvent = .reset ∨ s.addsWdtReset u
    ∨ (s.nextEvent = .hostCmd ∧ ∃ mask, decode s.pins.cmd = .ok (.clrStatus mask) ∧ s.keepsSticky u mask)
    ∨ s.keepsSticky u 0 := by
  cases h with
  | reset hev => exact .inl hev
  | wdtExpire => exact .inr (.inl (wdtExpire_addsWdtReset (new := []) rfl))
  | tick => exact .inr ((tick_keepsSticky s 0).symm.imp_right .inr)
  | tmodeChange => exact .inr (.inr (.inr (keepsSticky_of_sameExcept (tmodeChange_frame s) (by decide))))
  | hostCmd hev _ _ _ _ v hv =>
    rcases execWord_keepsSticky hv with ⟨mask, hd, hkeep⟩ | hkeep
    · exact .inr (.inr (.inl ⟨hev, mask, hd, keepsSticky_trans (commandState_keepsSticky s mask) hkeep⟩))
    · exact .inr (.inr (.inr (keepsSticky_trans (commandState_keepsSticky s 0) hkeep)))
  | hostCmdExpires =>
    obtain ⟨new, h⟩ := commandState_adds s
    exact .inr (.inl (wdtExpire_addsWdtReset h))
  | clock => exact .inr (.inr (.inr (clockCycle_keepsSticky s 0)))

/-- Settles O17: each cause with its frame, then case by case of what a step can do; a step that is no CLR_STATUS
clears as much as the mask 0 does. -/
theorem raiseErrorRecordsTheCause : Obligations.RaiseErrorRecordsTheCause := by
  refine ⟨fun s => ⟨⟨rfl, rfl, raiseError_frame .overrun s⟩, ⟨rfl, rfl, raiseError_frame .busy s⟩,
    ⟨rfl, rfl, raiseError_frame .illegal s⟩, ⟨rfl, rfl, raiseError_frame .range s⟩, rfl, rfl, rfl⟩, fun s t h => ?_⟩
  obtain ⟨-, u, hu, rfl⟩ := step_cases h
  have htrace : (nextInputs u).trace = u.trace := nextInputs_frame u .trace (by decide)
  have hnext : ∀ mask, u.keepsSticky (nextInputs u) mask := fun _ =>
    keepsSticky_of_sameExcept (nextInputs_frame u) (by decide)
  rcases steps_keepsSticky hu with hev | ⟨new, hadds, hnew⟩ | ⟨hev, mask, hd, hkeep⟩ | hkeep
  · exact .inl hev
  · exact .inr (.inl ⟨new, htrace.trans hadds, hnew⟩)
  · exact .inr (.inr (.inl ⟨hev, mask, hd, keepsSticky_trans hkeep (hnext mask)⟩))
  · obtain ⟨ho, hb, hi, hr⟩ := keepsSticky_trans hkeep (hnext 0)
    exact .inr (.inr (.inr ⟨(ho · rfl), (hb · rfl), (hi · rfl), (hr · rfl)⟩))

/-! ### The reset pin -/

theorem resetEvent_agenda (s : State) : (resetEvent s).agenda = s.agenda := by
  unfold resetEvent
  split <;> rfl

/-- R240: the block stays in reset until `RESET_N` is high. -/
theorem resetEvent_inReset (s : State) : (resetEvent s).inReset = !s.pins.resetN := by
  unfold resetEvent
  split <;> rfl

/-- R240: the step of a reset leaves the block ready exactly where `RESET_N` is high. -/
theorem resetEvent_cmdReady (s : State) : (resetEvent s).cmdReady = s.pins.resetN := by
  have hpins : (resetEvent s).pins = s.pins := resetEvent_frame s .pins (by decide)
  have hpending : (resetEvent s).tickPending = false := resetEvent_frame s .tickPending (by decide)
  have hphase : (resetEvent s).phase = .idle := resetEvent_frame s .phase (by decide)
  simp [State.cmdReady, resetEvent_inReset, hpins, hpending, hphase]

/-- Settles O48: the reset comes before every other event, and what it leaves. -/
theorem resetPinHoldsTheBlock : Obligations.ResetPinHoldsTheBlock := fun s =>
  ⟨nextEvent_reset, resetEvent_frame s, resetEvent_agenda s,
    fun h => ⟨by rw [resetEvent_inReset, h]; rfl, (resetEvent_cmdReady s).trans h⟩,
    fun h => ⟨by rw [resetEvent_inReset, h]; rfl, (resetEvent_cmdReady s).trans h⟩⟩

end Sys2Proof.Machine
end
